-- ==== Sys2Proof/Word.lean ====
section
/-! DEFINITION. The word types of the MAXMASPG DSP engine: 64-bit registers and command words, bytes of data memory, and the bit patterns of binary64 values. -/

namespace Sys2Proof

/-- A host-visible register, an address, a count or a command word: 64 bits (00 R8). -/
abbrev Word := BitVec 64

/-- One byte of data memory (20 R60). -/
abbrev Byte := BitVec 8

/-- A binary64 value, held as its 64-bit encoding (00 R8, R11: `bits` and `f64` are the identity on it). -/
abbrev F64 := BitVec 64

/-- A complex value: a real and an imaginary binary64 (40 R140). -/
abbrev Cplx := F64 × F64

end Sys2Proof
end

