-- ==== Sys2Proof/Machine/Float64.lean ====
section
/-! DEFINITION. Binary64 arithmetic on bit patterns (40 R130 to R139) and complex arithmetic (40 R140 to R145). A finite value is a whole number of units of 2^-1074, the least subnormal; every operation computes the exact rational result and rounds it once. -/

namespace Sys2Proof.Machine.Float64

/-- The exponent field and fraction bits of `+∞` (40 R130). -/
def infBits : Nat := 0x7FF0000000000000

/-- The canonical quiet NaN (40 R131). -/
def nan : F64 := 0x7FF8000000000000

/-- `+0.0`. -/
def zero : F64 := 0

/-- `1.0`. -/
def one : F64 := 0x3FF0000000000000

/-- `2.0`. -/
def two : F64 := 0x4000000000000000

/-- The sign bit. -/
def sign (x : F64) : Bool := x.getLsbD 63

/-- The 63 bits below the sign, as a number. -/
def magBits (x : F64) : Nat := x.toNat % 2 ^ 63

/-- `x` is a NaN. -/
def isNaN (x : F64) : Bool := infBits < magBits x

/-- `x` is an infinity. -/
def isInf (x : F64) : Bool := magBits x == infBits

/-- Neither an infinity nor a NaN (40 R136). -/
def isFinite (x : F64) : Bool := magBits x < infBits

/-- `x` is `+0` or `-0`. -/
def isZero (x : F64) : Bool := magBits x == 0

/-- The value with a given sign and a given pattern of the 63 bits below it. -/
def withSign (s : Bool) (m : Nat) : F64 := BitVec.ofNat 64 ((if s then 2 ^ 63 else 0) + m)

/-- `fneg` flips bit 63 and changes nothing else, for every value (40 R134). -/
def fneg (x : F64) : F64 := x ^^^ 0x8000000000000000

/-- The magnitude, in units of 2^-1074, that a pattern of the 63 bits below the sign stands for: a zero exponent field is
subnormal. -/
def patternUnits (v : Nat) : Nat :=
  if v / 2 ^ 52 = 0 then v % 2 ^ 52 else (2 ^ 52 + v % 2 ^ 52) * 2 ^ (v / 2 ^ 52 - 1)

/-- The magnitude of a finite value in units of 2^-1074. -/
def magUnits (x : F64) : Nat := patternUnits (magBits x)

/-- A finite value as an integer number of units of 2^-1074. -/
def units (x : F64) : Int := if sign x then -(magUnits x : Int) else (magUnits x : Int)

/-- Division with rounding to nearest, ties to even. -/
def divNearestEven (num den : Nat) : Nat :=
  if den < 2 * (num % den) ∨ (2 * (num % den) = den ∧ num / den % 2 = 1) then num / den + 1 else num / den

/-- The pattern of the value nearest `num / den` units of 2^-1074, ties to even, as if exponents were unbounded above. With `k`
such that the integer part has at most 53 bits above bit `k`, the pattern of `m·2^k` is `k·2^52 + m`, subnormals and a carry
out of the significand included. -/
def roundPattern (num den : Nat) : Nat :=
  let k := Nat.log2 (num / den) - 52
  k * 2 ^ 52 + divNearestEven num (den * 2 ^ k)

/-- Round `num / den` units of 2^-1074 to binary64, to nearest, ties to even (40 R130): the 63 bits below the sign. A result past
the largest finite value is `+∞`. -/
def roundMag (num den : Nat) : Nat := min (roundPattern num den) infBits

/-- The units of 2^-1074 in one. Irreducible, so that no proof writes the number out by accident. -/
@[irreducible] def unitsPerOne : Nat := 2 ^ 1074

/-- Addition (40 R132). An exact zero sum is `-0` only when both operands are negative. -/
def fadd (a b : F64) : F64 :=
  if isNaN a || isNaN b then nan
  else if isInf a then (if isInf b && (sign a != sign b) then nan else a)
  else if isInf b then b
  else
    let s := units a + units b
    if s = 0 then withSign (sign a && sign b) 0 else withSign (s < 0) (roundMag s.natAbs 1)

/-- Subtraction (40 R132): the sum with the negated second operand. -/
def fsub (a b : F64) : F64 := fadd a (fneg b)

/-- Multiplication (40 R132). -/
def fmul (a b : F64) : F64 :=
  let s := sign a != sign b
  if isNaN a || isNaN b then nan
  else if isInf a || isInf b then (if isZero a || isZero b then nan else withSign s infBits)
  else withSign s (roundMag (magUnits a * magUnits b) unitsPerOne)

/-- Division (40 R132). -/
def fdiv (a b : F64) : F64 :=
  let s := sign a != sign b
  if isNaN a || isNaN b then nan
  else if isInf a then (if isInf b then nan else withSign s infBits)
  else if isInf b then withSign s 0
  else if isZero b then (if isZero a then nan else withSign s infBits)
  else withSign s (roundMag (magUnits a * unitsPerOne) (magUnits b))

/-- Where a value that is not a NaN stands in the order of binary64 values; both zeros stand at 0. -/
def orderKey (x : F64) : Int := if sign x then -(magBits x : Int) else (magBits x : Int)

/-- `a < b`: false when either operand is a NaN (40 R135). -/
def flt (a b : F64) : Bool := !isNaN a && !isNaN b && decide (orderKey a < orderKey b)

/-- `a ≤ b`: false when either operand is a NaN (40 R135). -/
def fle (a b : F64) : Bool := !isNaN a && !isNaN b && decide (orderKey a ≤ orderKey b)

/-- `toF64 i`: an integer rounded to binary64 (40 R137). -/
def toF64 (i : Nat) : F64 := withSign false (roundMag (i * unitsPerOne) 1)

/-- `floorI x` for finite `x` (40 R138). -/
def floorI (x : F64) : Int := units x / (unitsPerOne : Int)

/-- `ceilI x` for finite `x` (40 R138). -/
def ceilI (x : F64) : Int := -(-units x / (unitsPerOne : Int))

/-- From `acc`, the products of paired entries added in ascending order, each product and each sum rounded (40 R139). -/
def sumProducts (acc : F64) : List F64 → List F64 → F64
  | x :: xs, y :: ys => sumProducts (fadd acc (fmul x y)) xs ys
  | _, _ => acc

/-- Complex addition (40 R141). -/
def cadd (x y : Cplx) : Cplx := (fadd x.1 y.1, fadd x.2 y.2)

/-- Complex subtraction (40 R141). -/
def csub (x y : Cplx) : Cplx := (fsub x.1 y.1, fsub x.2 y.2)

/-- Complex multiplication: four products, one subtraction, one addition, none skipped (40 R143). -/
def cmul (x y : Cplx) : Cplx :=
  (fsub (fmul x.1 y.1) (fmul x.2 y.2), fadd (fmul x.1 y.2) (fmul x.2 y.1))

/-- Complex conjugate (40 R144). -/
def conj (x : Cplx) : Cplx := (x.1, fneg x.2)

/-- Scaling by a real (40 R145). -/
def cscale (x : Cplx) (s : F64) : Cplx := (fmul x.1 s, fmul x.2 s)

end Sys2Proof.Machine.Float64
end

