-- ==== Sys2Proof/Config.lean ====
section
/-! DEFINITION. The implementation parameters of the engine (00 R7) and the free values of the model: what the spec leaves open is an opaque constant here, so no proof can see it. -/

namespace Sys2Proof.Config

/-- `MAX_LOG2N`: the longest transform has `2^20` points (00 R7). -/
def maxLog2N : Nat := 20

/-- `MAX_ORDER`: the largest LPC and IIR order (00 R7). -/
def maxOrder : Nat := 64

/-- log2 of `DMEM_SIZE`, as `CFG` reports it (10 R25). -/
def log2Dmem : Nat := 26

/-- `DMEM_SIZE`: bytes of data memory, `0x0400_0000` (00 R7). -/
def dmemSize : Nat := 0x04000000

/-- Size of the register window at aperture offset 0 (20 R70). -/
def windowSize : Nat := 0x1000

/-- Aperture offset of the DMEM window (20 R70). -/
def dmemOffset : Nat := 0x04000000

/-- Size of the host aperture (20 R70). -/
def apertureSize : Nat := 0x08000000

/-- The constant of the `ID` register (10 R24). -/
def idValue : Word := 0x000000014D585350

/-- The reset value of `CEP_EPS`, the binary64 nearest `1e-10` (10 R38). -/
def cepEpsReset : Word := 0x3DDB7CDFD9D7BDBB

/-- The OPEN parameter `ENGINE_BASE` (00 R7, 20 R70): the aperture lies at a multiple of its size; which one is the
platform's. DESIGN CHOICE, safe: no body (log entry 5). -/
opaque engineBaseIndex : Nat

/-- `ENGINE_BASE`, aligned to `0x0800_0000` by construction (20 R70). -/
def engineBase : Nat := engineBaseIndex * apertureSize

/-- The OPEN parameter `IRQ_LINE` (60 R307): which host interrupt input `irq` drives. No body (log entry 19). -/
opaque irqLine : Nat

/-- The OPEN parameter `RESET_SOURCE` (70 R341, 93 H12): which of the platform's signals asserts the engine's power-on reset input.
No body (log entry 19). -/
opaque resetSource : Nat

/-- FREE VALUE. A byte of an `out` or `scratch` region of a command that a soft reset abandons (70 R342, 93 H2): it is
unspecified, one draw per reset (the first argument, `State.draws`) and address. DESIGN CHOICE of form, safe (log entry 8). -/
opaque abortByte (draw address : Nat) : Byte

/-- FREE VALUE. The logarithm where the rational enclosures of Machine/Elementary.lean do not decide the rounding. No input is
known to reach it. UNVERIFIED that none does; safe (log entry 9). -/
opaque logUndecided (x : F64) : F64

/-- FREE VALUE. A cosine where the rational enclosures do not decide the rounding, for the angle `2πk/m` with `k/m` in lowest
terms. UNVERIFIED that no transform size of the engine reaches it; safe (log entry 10). -/
opaque cosUndecided (k m : Nat) : F64

end Sys2Proof.Config
end

