-- ==== Sys2Proof/Machine/State.lean ====
section
/-! DEFINITION. The state of the engine (10 R20) as plain data, the reasons a step can stop, and the state after power-on reset (70 R340). -/

namespace Sys2Proof.Machine

/-- The engine phase (10 R40). -/
inductive Phase where
  | idle
  | busy
  deriving DecidableEq, Repr

/-- The error codes 0 to 9 of 60 R300; `none` is code 0. Codes 10 to 255 are never written. -/
inductive ErrorCode where
  | none
  | invalidLength
  | invalidRange
  | numericalBreakdown
  | dimensionMismatch
  | emptyInput
  | illegalCommand
  | addressRange
  | misaligned
  | overlap
  deriving DecidableEq, Repr

/-- The twelve argument registers (10 R33 to R38). -/
structure Args where
  src0 : Word
  src1 : Word
  dst0 : Word
  dst1 : Word
  scr : Word
  len0 : Word
  len1 : Word
  len2 : Word
  len3 : Word
  fp0 : F64
  fp1 : F64
  cepEps : F64
  deriving DecidableEq, Repr

/-- The argument snapshot (10 R45): the accepted command word and the argument registers at acceptance. -/
structure Snapshot where
  cmd : Word
  args : Args
  deriving DecidableEq, Repr

/-- One host access: an offset in the engine's aperture of `0x0800_0000` bytes (20 R70), a width in bytes, and for a write
the data (a narrow write sends its low bytes). -/
inductive HostAccess where
  | read (offset : BitVec 27) (width : Nat)
  | write (offset : BitVec 27) (width : Nat) (data : Word)
  deriving DecidableEq, Repr

/-- What arrives next in the total order of 20 R75: a host access, or the engine's turn to take its command step, whose
delay after acceptance the spec leaves open (40 R127, 93 H9). DESIGN CHOICE, log entry 2. -/
inductive PortEvent where
  | access (a : HostAccess)
  | engineTurn
  deriving DecidableEq, Repr

/-- The bus response to a host access: read data, a normal write response, or a bus error (60 R304). -/
inductive Answer where
  | data (v : Word)
  | written
  | busError
  deriving DecidableEq, Repr

/-- Data memory: (address, byte) pairs, addresses strictly rising. An unlisted address is *unwritten* (70 R340). -/
abbrev Mem := List Host.Cell

/-- The state of the engine (10 R20), with the model's own fields `port`, `answers` and `draws`. -/
structure State where
  /-- `CMD`: the last accepted command word (10 R27). -/
  cmd : Word
  /-- `STATUS.DONE` (10 R28). -/
  done : Bool
  /-- `STATUS.ERR` (10 R28). -/
  err : Bool
  /-- `STATUS.OVR` (10 R28). -/
  ovr : Bool
  /-- `IRQ_EN.DONE_IE` (10 R29). -/
  doneIe : Bool
  /-- `IRQ_EN.ERR_IE` (10 R29). -/
  errIe : Bool
  /-- `IRQ_EN.OVR_IE` (10 R29). -/
  ovrIe : Bool
  /-- `ERR_CODE.CODE` (10 R30). -/
  errCode : ErrorCode
  /-- `ERR_CODE.OP` (10 R30). -/
  errOp : BitVec 8
  /-- `ERR_INFO0` (10 R31). -/
  errInfo0 : Word
  /-- `ERR_INFO1` (10 R31). -/
  errInfo1 : Word
  /-- `RESULT0` (10 R32). -/
  result0 : Word
  /-- The argument registers (10 R33 to R38). -/
  args : Args
  /-- The engine phase (10 R40). -/
  phase : Phase
  /-- The argument snapshot (10 R45). -/
  snap : Snapshot
  /-- The data memory (20 R60). -/
  dmem : Mem
  /-- Host DMEM accesses held while BUSY, in arrival order (20 R76). -/
  held : List HostAccess
  /-- The model's own: host accesses and engine turns still to come, first to arrive first (20 R75). -/
  port : List PortEvent
  /-- The model's own: the answers given to host accesses, oldest first. -/
  answers : List Answer
  /-- The model's own: how many soft resets have drawn unspecified bytes (70 R342). -/
  draws : Nat
  deriving DecidableEq, Repr

/-- Why a run stops. -/
inductive Fault where
  /-- A command step or a host DMEM read needs a byte that nothing has written since power-on: 'a fault of the run, not a
  value' (70 R340, 93 H1). Raised by every command's loads and by a host DMEM read. Safe. -/
  | unwrittenRead
  deriving DecidableEq, Repr

/-- Why an instruction has no meaning. -/
inductive Refusal where
  /-- The instruction has no meaning in the model yet: raised by an arm of `exec` alone, and by none today. Safe. -/
  | notModelled (mnemonic : String)
  deriving DecidableEq, Repr

/-- The argument registers after reset (70 R340, 10 R23's table). -/
def Args.reset : Args :=
  { src0 := 0, src1 := 0, dst0 := 0, dst1 := 0, scr := 0, len0 := 0, len1 := 0, len2 := 0, len3 := 0,
    fp0 := 0, fp1 := 0, cepEps := Config.cepEpsReset }

/-- The state after power-on reset (70 R340). `snap` is unspecified there and read by no rule while IDLE: zeros, DESIGN CHOICE,
log entry 6. -/
def State.reset : State :=
  { cmd := 0, done := false, err := false, ovr := false, doneIe := false, errIe := false, ovrIe := false,
    errCode := .none, errOp := 0, errInfo0 := 0, errInfo1 := 0, result0 := 0, args := Args.reset, phase := .idle,
    snap := { cmd := 0, args := { Args.reset with cepEps := 0 } }, dmem := [], held := [], port := [], answers := [],
    draws := 0 }

end Sys2Proof.Machine
end

