-- ==== Sys2Proof/Machine/Flags.lean ====
section
/-! DEFINITION. The status and interrupt-enable registers as words, the write-one-to-clear rule, the error-code word and the interrupt level (10 R28 to R30, R41, R46). -/

namespace Sys2Proof.Machine

/-- A Boolean as bit `n` of a word. -/
def bitAt (b : Bool) (n : Nat) : Word := if b then BitVec.ofNat 64 (2 ^ n) else 0

/-- `STATUS.BUSY` is 1 exactly when `phase = BUSY` (10 R40). -/
def State.busy (s : State) : Bool := s.phase == .busy

/-- `STATUS` as it reads (10 R28): `BUSY`, `DONE`, `ERR`, `OVR` in bits 0 to 3, the rest zero. -/
def State.statusWord (s : State) : Word :=
  bitAt s.busy 0 ||| bitAt s.done 1 ||| bitAt s.err 2 ||| bitAt s.ovr 3

/-- `IRQ_EN` as it reads (10 R29). -/
def State.irqEnWord (s : State) : Word := bitAt s.doneIe 0 ||| bitAt s.errIe 1 ||| bitAt s.ovrIe 2

/-- A write to `STATUS` clears each W1C field whose bit is 1 and ignores the other bits (10 R28). -/
def State.clearStatus (s : State) (v : Word) : State :=
  { s with
    done := s.done && !v.getLsbD 1
    err := s.err && !v.getLsbD 2
    ovr := s.ovr && !v.getLsbD 3 }

/-- A write to `IRQ_EN` stores bits 2:0 (10 R29). -/
def State.setIrqEn (s : State) (v : Word) : State :=
  { s with doneIe := v.getLsbD 0, errIe := v.getLsbD 1, ovrIe := v.getLsbD 2 }

/-- The number of an error code (60 R300). -/
def ErrorCode.number : ErrorCode → BitVec 8
  | .none => 0
  | .invalidLength => 1
  | .invalidRange => 2
  | .numericalBreakdown => 3
  | .dimensionMismatch => 4
  | .emptyInput => 5
  | .illegalCommand => 6
  | .addressRange => 7
  | .misaligned => 8
  | .overlap => 9

/-- `ERR_CODE` as it reads: `CODE` in bits 7:0, `OP` in bits 15:8 (10 R30). -/
def State.errCodeWord (s : State) : Word := (s.errOp ++ s.errCode.number).setWidth 64

/-- The interrupt output, a level (10 R41, 60 R306). -/
def State.irq (s : State) : Bool := (s.done && s.doneIe) || (s.err && s.errIe) || (s.ovr && s.ovrIe)

/-- The host interrupt line the engine drives high, where the platform routes `irq` (60 R307). -/
def State.drivenLine (s : State) : Option Nat := if s.irq then some Config.irqLine else none

end Sys2Proof.Machine
end

