-- ==== Sys2Proof/Machine/Ops.lean ====
section
/-! DEFINITION. The named operations over memory and registers: reading and writing DMEM (00 R11, 20 R61, R62), accepting and dropping a command (40 R120, R121), and the two ends of a command: failing, the engine's only exception (40 R128, 60 R305), and completing (40 R129). -/

namespace Sys2Proof.Machine

/-! ### Data memory -/

/-- The memory's canonical form: addresses strictly rising, all inside DMEM. Every byte value may be listed, since an unlisted
address is unwritten and reads as no value. -/
abbrev Mem.wf (m : Mem) : Prop :=
  m.Pairwise (fun c d => c.1 < d.1) ∧ ∀ c ∈ m, c.1 < Config.dmemSize

/-- The byte at an address, `none` where nothing has been written since power-on (70 R340). -/
def Mem.readByte (m : Mem) (a : Nat) : Option Byte := (m.find? (fun c => c.1 == a)).map (·.2)

/-- The cells of a run of bytes from an address up. -/
def Mem.cellsAt : Nat → List Byte → Mem
  | _, [] => []
  | a, b :: bs => (a, b) :: Mem.cellsAt (a + 1) bs

/-- The memory after the bytes `bs` are stored from address `a` up. -/
def Mem.writeBytes (m : Mem) (a : Nat) (bs : List Byte) : Mem :=
  m.filter (fun c => c.1 < a) ++ Mem.cellsAt a bs ++ m.filter (fun c => a + bs.length ≤ c.1)

/-- The `n` bytes from address `a` up, `none` if one of them is unwritten. -/
def Mem.readBytes (m : Mem) : Nat → Nat → Option (List Byte)
  | _, 0 => some []
  | a, n + 1 =>
    match Mem.readByte m a, Mem.readBytes m (a + 1) n with
    | some b, some bs => some (b :: bs)
    | _, _ => none

/-- The number that bytes stand for, the first the least significant (20 R61). -/
def leNat : List Byte → Nat
  | [] => 0
  | b :: bs => b.toNat + 256 * leNat bs

/-- The `n` low bytes of a number, the least significant first (20 R61). -/
def leBytes : Nat → Nat → List Byte
  | 0, _ => []
  | n + 1, v => BitVec.ofNat 8 v :: leBytes n (v / 256)

/-- `MemRead(addr, n)` (00 R11). -/
def Mem.read (m : Mem) (a n : Nat) : Option Nat := (Mem.readBytes m a n).map leNat

/-- `MemWrite(addr, n, v)` (00 R11). -/
def Mem.write (m : Mem) (a n v : Nat) : Mem := Mem.writeBytes m a (leBytes n v)

/-- `LoadF(addr)` (00 R11). -/
def loadF (m : Mem) (a : Nat) : Option F64 := (Mem.read m a 8).map (BitVec.ofNat 64)

/-- `n` consecutive reals from `base` up (20 R62). -/
def loadReals (m : Mem) : Nat → Nat → Option (List F64)
  | _, 0 => some []
  | base, n + 1 =>
    match loadF m base, loadReals m (base + 8) n with
    | some x, some xs => some (x :: xs)
    | _, _ => none

/-- `n` consecutive complex values from `base` up, the real part of each first (20 R62). -/
def loadComplexes (m : Mem) : Nat → Nat → Option (List Cplx)
  | _, 0 => some []
  | base, n + 1 =>
    match loadF m base, loadF m (base + 8), loadComplexes m (base + 16) n with
    | some re, some im, some xs => some ((re, im) :: xs)
    | _, _, _ => none

/-- The bytes of a sequence of reals (20 R62). -/
def realBytes : List F64 → List Byte
  | [] => []
  | x :: xs => leBytes 8 x.toNat ++ realBytes xs

/-- The bytes of a sequence of complex values (20 R62). -/
def complexBytes : List Cplx → List Byte
  | [] => []
  | x :: xs => leBytes 8 x.1.toNat ++ (leBytes 8 x.2.toNat ++ complexBytes xs)

/-- The bytes of a sequence of quantization indices (20 R62). -/
def indexBytes : List Nat → List Byte
  | [] => []
  | i :: is => leBytes 4 i ++ indexBytes is

/-- Storing blocks of bytes, each at its address, one after another. -/
def Mem.writeBlocks (m : Mem) : List (Nat × List Byte) → Mem
  | [] => m
  | b :: bs => Mem.writeBlocks (Mem.writeBytes m b.1 b.2) bs

/-! ### Named updates of one field -/

/-- What is still to arrive at the host port becomes `rest`. -/
def State.withPort (s : State) (rest : List PortEvent) : State := { s with port := rest }

/-- The held accesses become `later`. -/
def State.withHeld (s : State) (later : List HostAccess) : State := { s with held := later }

/-- Data memory becomes `m`. -/
def State.withDmem (s : State) (m : Mem) : State := { s with dmem := m }

/-- The argument registers become `a`. -/
def State.withArgs (s : State) (a : Args) : State := { s with args := a }

/-- Data memory becomes `m`, in which unspecified bytes have been drawn (70 R342). -/
def State.withDrawn (s : State) (m : Mem) : State := { s with dmem := m, draws := s.draws + 1 }

/-! ### Failing and completing -/

/-- What `fail Code(info0, info1)` reports (00 R12); `result` is 0 but in the one case of 44 R231. -/
structure Failure where
  code : ErrorCode
  info0 : Word
  info1 : Word
  result : Word := 0
  deriving DecidableEq, Repr

/-- Taking the engine's exception (40 R128, 60 R305): the error registers are written, `ERR` and `DONE` set, the phase returns to
IDLE; no DMEM byte changes. -/
def State.fail (s : State) (f : Failure) : State :=
  { s with
    errCode := f.code
    errOp := s.snap.cmd.extractLsb' 0 8
    errInfo0 := f.info0
    errInfo1 := f.info1
    result0 := f.result
    err := true
    done := true
    phase := .idle }

/-- Successful completion (40 R129). -/
def State.complete (s : State) (count : Nat) : State :=
  { s with result0 := BitVec.ofNat 64 count, done := true, phase := .idle }

/-! ### Accepting and dropping a command -/

/-- Acceptance of a command word (40 R120): the snapshot is taken, the status of the last command cleared, and the phase becomes
BUSY. Nothing is decoded or checked. -/
def State.accept (s : State) (w : Word) : State :=
  { s with
    cmd := w
    snap := { cmd := w, args := s.args }
    done := false
    err := false
    errCode := .none
    errOp := 0
    errInfo0 := 0
    errInfo1 := 0
    result0 := 0
    phase := .busy }

/-- A dropped command word: only `STATUS.OVR` is set (40 R121). -/
def State.drop (s : State) : State := { s with ovr := true }

/-- A host write to `CMD` (10 R27): accepted in IDLE, dropped in BUSY. -/
def State.writeCmd (s : State) (w : Word) : State :=
  match s.phase with
  | .idle => s.accept w
  | .busy => s.drop

/-- Every register of the window and the phase at their reset values (70 R342 items 1 and 2). The snapshot, which no rule reads
in IDLE, is left as it is (log entry 12). -/
def State.resetRegisters (s : State) : State :=
  { s with
    cmd := 0
    done := false
    err := false
    ovr := false
    doneIe := false
    errIe := false
    ovrIe := false
    errCode := .none
    errOp := 0
    errInfo0 := 0
    errInfo1 := 0
    result0 := 0
    args := Args.reset
    phase := .idle }

end Sys2Proof.Machine
end

