-- ==== Sys2Proof/Syntax.lean ====
section
/-! DEFINITION. The commands of the engine: one constructor per row of spec/opcode_table.json (30 R95), and the fields of a command word (30 R90). No command has an immediate (30 R91): its operands are the argument registers of the snapshot. -/

namespace Sys2Proof

/-- The nine commands (00 R4, 30 R95). -/
inductive Instr where
  /-- `FFT`: forward transform of a complex sequence (41 R170). -/
  | fft
  /-- `FFT.R`: forward transform of a real sequence (41 R171). -/
  | fftR
  /-- `IFFT`: inverse transform (41 R172). -/
  | ifft
  /-- `ACORR`: autocorrelation at every lag (42 R190). -/
  | acorr
  /-- `LEVDUR`: Levinson-Durbin recursion (43 R200). -/
  | levdur
  /-- `IIRSYN`: all-pole synthesis filter (43 R210). -/
  | iirsyn
  /-- `RESAMPLE`: linear-interpolation resampler (44 R230). -/
  | resample
  /-- `CEPSTRUM`: real cepstrum (45 R250). -/
  | cepstrum
  /-- `VQNEAR`: nearest-codeword search (46 R270). -/
  | vqnear
  deriving DecidableEq, Repr

/-- The fields of a command word (30 R90). -/
structure Fields where
  /-- `OP`, bits 7:0. -/
  op : BitVec 8
  /-- `REAL`, bit 8. -/
  real : BitVec 1
  /-- `RSV`, bits 63:9. -/
  rsv : BitVec 55
  deriving DecidableEq, Repr

/-- The fields the opcode table gives each command (30 R95). -/
def Instr.fields : Instr → Fields
  | .fft => ⟨0x01, 0, 0⟩
  | .fftR => ⟨0x01, 1, 0⟩
  | .ifft => ⟨0x02, 0, 0⟩
  | .acorr => ⟨0x03, 0, 0⟩
  | .levdur => ⟨0x04, 0, 0⟩
  | .iirsyn => ⟨0x05, 0, 0⟩
  | .resample => ⟨0x06, 0, 0⟩
  | .cepstrum => ⟨0x07, 0, 0⟩
  | .vqnear => ⟨0x08, 0, 0⟩

end Sys2Proof
end

