-- ==== Sys2Proof/Machine/Operands.lean ====
section
/-! DEFINITION. Operand assembly: each command's parameter checks in the order of its rule and its region list (30 R96, 40 R122), the region and overlap checks (40 R124, R125), and the shared shape of a command step (40 R123). -/

namespace Sys2Proof.Machine

open Sys2Proof.Machine.Float64

/-! ### Offsets of the count and rate registers, as error information names them (60 R301) -/

/-- Offset of `LEN0`. -/
def offLen0 : Word := 0x0A8
/-- Offset of `LEN1`. -/
def offLen1 : Word := 0x0B0
/-- Offset of `LEN2`. -/
def offLen2 : Word := 0x0B8
/-- Offset of `LEN3`. -/
def offLen3 : Word := 0x0C0
/-- Offset of `FP0`. -/
def offFp0 : Word := 0x0C8
/-- Offset of `FP1`. -/
def offFp1 : Word := 0x0D0

/-! ### Regions -/

/-- What a command does with a region (40 R122). -/
inductive Role where
  | input
  | output
  | scratch
  deriving DecidableEq, Repr

/-- A region of DMEM that a command names (40 R122). Sizes are unbounded integers. -/
structure Region where
  index : Nat
  base : Nat
  size : Nat
  align : Nat
  role : Role
  deriving DecidableEq, Repr

/-- The region is written by the command. -/
def Region.written (r : Region) : Bool := r.role != .input

/-- Two byte ranges intersect (40 R125). -/
def Region.overlaps (p q : Region) : Bool := max p.base q.base < min (p.base + p.size) (q.base + q.size)

/-- `check_region` (40 R124): range first, then alignment. -/
def checkRegion (r : Region) : Option Failure :=
  if Config.dmemSize < r.base + r.size then
    some { code := .addressRange, info0 := BitVec.ofNat 64 r.index, info1 := BitVec.ofNat 64 r.base }
  else if r.base % r.align ≠ 0 then
    some { code := .misaligned, info0 := BitVec.ofNat 64 r.index, info1 := BitVec.ofNat 64 r.base }
  else none

/-- Region checks in ascending index, the first failure (40 R124). -/
def checkRegions : List Region → Option Failure
  | [] => none
  | r :: rs =>
    match checkRegion r with
    | some f => some f
    | none => checkRegions rs

/-- The one permitted overlap: `FFT` or `IFFT` with its output exactly its input (40 R125, 41 R174). -/
def inPlaceAllowed (i : Instr) (p q : Region) : Bool :=
  (i == .fft || i == .ifft) && p.index == 0 && q.index == 2 && p.base == q.base

/-- A pair of regions fails the overlap check (40 R125). -/
def forbiddenPair (i : Instr) (p q : Region) : Bool :=
  (p.written || q.written) && p.overlaps q && !inPlaceAllowed i p q

/-- The first region after `p` that may not overlap it but does. -/
def checkAgainst (i : Instr) (p : Region) : List Region → Option Failure
  | [] => none
  | q :: qs =>
    if forbiddenPair i p q then
      some { code := .overlap, info0 := BitVec.ofNat 64 p.index, info1 := BitVec.ofNat 64 q.index }
    else checkAgainst i p qs

/-- The overlap check over all pairs, ascending in the lower and then in the higher index (40 R125). -/
def checkOverlaps (i : Instr) : List Region → Option Failure
  | [] => none
  | p :: rest =>
    match checkAgainst i p rest with
    | some f => some f
    | none => checkOverlaps i rest

/-! ### Parameter checks and region lists, one definition a command -/

/-- `check_len` (41 R175), on the value of `LEN0`. -/
def checkLen (n : Word) : Option Failure :=
  if n.toNat = 0 ∨ n.toNat &&& (n.toNat - 1) ≠ 0 ∨ 2 ^ Config.maxLog2N < n.toNat then
    some { code := .invalidLength, info0 := offLen0, info1 := n }
  else none

/-- `EmptyInput` on a zero count register (60 R301). -/
def emptyInput (off : Word) : Failure := { code := .emptyInput, info0 := off, info1 := 0 }

/-- `InvalidRange` on a register, with the value that failed (60 R301). -/
def invalidRange (off value : Word) : Failure := { code := .invalidRange, info0 := off, info1 := value }

/-- `FFT` (41 R170). -/
def fftRegions (a : Args) : Except Failure (List Region) :=
  match checkLen a.len0 with
  | some f => .error f
  | none => .ok [⟨0, a.src0.toNat, 16 * a.len0.toNat, 8, .input⟩, ⟨2, a.dst0.toNat, 16 * a.len0.toNat, 8, .output⟩]

/-- `FFT.R` (41 R171). -/
def fftRRegions (a : Args) : Except Failure (List Region) :=
  match checkLen a.len0 with
  | some f => .error f
  | none => .ok [⟨0, a.src0.toNat, 8 * a.len0.toNat, 8, .input⟩, ⟨2, a.dst0.toNat, 16 * a.len0.toNat, 8, .output⟩]

/-- `IFFT` (41 R172). -/
def ifftRegions (a : Args) : Except Failure (List Region) :=
  match checkLen a.len0 with
  | some f => .error f
  | none => .ok [⟨0, a.src0.toNat, 16 * a.len0.toNat, 8, .input⟩, ⟨2, a.dst0.toNat, 16 * a.len0.toNat, 8, .output⟩]

/-- `ACORR` (42 R190). -/
def acorrRegions (a : Args) : Except Failure (List Region) :=
  if a.len0.toNat = 0 then .error (emptyInput offLen0)
  else .ok [⟨0, a.src0.toNat, 8 * a.len0.toNat, 8, .input⟩, ⟨2, a.dst0.toNat, 8 * a.len0.toNat, 8, .output⟩]

/-- `LEVDUR` (43 R200): `RLEN`, then the order, then `RLEN` against the order. -/
def levdurRegions (a : Args) : Except Failure (List Region) :=
  if a.len0.toNat = 0 then .error (emptyInput offLen0)
  else if Config.maxOrder < a.len1.toNat then .error (invalidRange offLen1 a.len1)
  else if a.len0.toNat < a.len1.toNat + 1 then .error (invalidRange offLen0 a.len0)
  else .ok [⟨0, a.src0.toNat, 8 * (a.len1.toNat + 1), 8, .input⟩,
            ⟨2, a.dst0.toNat, 8 * (a.len1.toNat + 1), 8, .output⟩,
            ⟨3, a.dst1.toNat, 8 * (a.len1.toNat + 1), 8, .output⟩]

/-- `IIRSYN` (43 R210). -/
def iirsynRegions (a : Args) : Except Failure (List Region) :=
  if a.len0.toNat = 0 then .error (emptyInput offLen0)
  else if Config.maxOrder < a.len1.toNat then .error (invalidRange offLen1 a.len1)
  else .ok [⟨0, a.src0.toNat, 8 * a.len0.toNat, 8, .input⟩,
            ⟨1, a.src1.toNat, 8 * (a.len1.toNat + 1), 8, .input⟩,
            ⟨2, a.dst0.toNat, 8 * a.len0.toNat, 8, .output⟩]

/-- `ratio` of `RESAMPLE` (44 R231). -/
def resampleRatio (a : Args) : F64 := fdiv a.fp0 a.fp1

/-- `q` of `RESAMPLE`, whose ceiling is the output length (44 R231). -/
def resampleQuotient (a : Args) : F64 := fdiv (toF64 a.len0.toNat) (resampleRatio a)

/-- `L`, the output length of `RESAMPLE`, unbounded (44 R231). -/
def resampleLength (a : Args) : Nat := (ceilI (resampleQuotient a)).toNat

/-- `L` saturated at `2^64-1` (44 R231, 90 C10). -/
def saturate (n : Nat) : Word := BitVec.ofNat 64 (min n (2 ^ 64 - 1))

/-- A rate or ratio in range: finite and above zero (44 R231). -/
def positiveFinite (x : F64) : Bool := isFinite x && flt zero x

/-- `RESAMPLE` (44 R230, R231). A failed capacity check leaves the required length in `RESULT0`. -/
def resampleRegions (a : Args) : Except Failure (List Region) :=
  if a.len0.toNat = 0 then .error (emptyInput offLen0)
  else if !positiveFinite a.fp0 then .error (invalidRange offFp0 a.fp0)
  else if !positiveFinite a.fp1 then .error (invalidRange offFp1 a.fp1)
  else if !positiveFinite (resampleRatio a) then .error (invalidRange offFp0 (resampleRatio a))
  else if !isFinite (resampleQuotient a) then .error (invalidRange offFp0 (resampleQuotient a))
  else if a.len1.toNat < resampleLength a then
    .error { invalidRange offLen1 (saturate (resampleLength a)) with result := saturate (resampleLength a) }
  else .ok [⟨0, a.src0.toNat, 8 * a.len0.toNat, 8, .input⟩, ⟨2, a.dst0.toNat, 8 * resampleLength a, 8, .output⟩]

/-- `CEPSTRUM` (45 R250). -/
def cepstrumRegions (a : Args) : Except Failure (List Region) :=
  if a.len0.toNat = 0 then .error (emptyInput offLen0)
  else
    match checkLen a.len0 with
    | some f => .error f
    | none =>
      if a.len1.toNat = 0 ∨ a.len0.toNat < a.len1.toNat then .error (invalidRange offLen1 a.len1)
      else .ok [⟨0, a.src0.toNat, 8 * a.len0.toNat, 8, .input⟩,
                ⟨2, a.dst0.toNat, 8 * a.len1.toNat, 8, .output⟩,
                ⟨4, a.scr.toNat, 16 * a.len0.toNat, 8, .scratch⟩]

/-- `VQNEAR` (46 R270). -/
def vqnearRegions (a : Args) : Except Failure (List Region) :=
  if a.len0.toNat = 0 then .error (emptyInput offLen0)
  else if a.len1.toNat = 0 then .error (emptyInput offLen1)
  else if a.len2.toNat = 0 then .error (emptyInput offLen2)
  else if a.len3.toNat = 0 then .error (emptyInput offLen3)
  else if a.len2 ≠ a.len3 then .error { code := .dimensionMismatch, info0 := a.len2, info1 := a.len3 }
  else if 2 ^ 32 < a.len1.toNat then .error (invalidRange offLen1 a.len1)
  else .ok [⟨0, a.src0.toNat, 8 * (a.len0.toNat * a.len2.toNat), 8, .input⟩,
            ⟨1, a.src1.toNat, 8 * (a.len1.toNat * a.len2.toNat), 8, .input⟩,
            ⟨2, a.dst0.toNat, 4 * a.len0.toNat, 4, .output⟩]

/-- The parameter checks and region list of a command (40 R123). -/
def commandRegions (i : Instr) (a : Args) : Except Failure (List Region) :=
  match i with
  | .fft => fftRegions a
  | .fftR => fftRRegions a
  | .ifft => ifftRegions a
  | .acorr => acorrRegions a
  | .levdur => levdurRegions a
  | .iirsyn => iirsynRegions a
  | .resample => resampleRegions a
  | .cepstrum => cepstrumRegions a
  | .vqnear => vqnearRegions a

/-- Every check of a command before it computes, in the order of 40 R123 and 60 R303: parameters, regions, overlaps. -/
def checkCommand (i : Instr) (a : Args) : Except Failure (List Region) :=
  match commandRegions i a with
  | .error f => .error f
  | .ok rs =>
    match checkRegions rs with
    | some f => .error f
    | none =>
      match checkOverlaps i rs with
      | some f => .error f
      | none => .ok rs

/-! ### The shape of a command step -/

/-- What a command's computation gives: the blocks of bytes it stores and the count it reports. -/
structure Results where
  blocks : List (Nat × List Byte)
  count : Nat
  deriving DecidableEq, Repr

/-- The command step after decoding (40 R123): the checks, the computation on the memory of the step, the stores, the
completion. The computation answers `none` when it needs an unwritten byte (70 R340) and an error when it fails, which only
`LEVDUR`'s can. -/
def runCommand (i : Instr) (s : State) (compute : Mem → Option (Except Failure Results)) :
    Host.Outcome State Fault Refusal :=
  match checkCommand i s.snap.args with
  | .error f => .next (s.fail f)
  | .ok _ =>
    match compute s.dmem with
    | none => .fault .unwrittenRead
    | some (.error f) => .next (s.fail f)
    | some (.ok r) => .next ((s.withDmem (Mem.writeBlocks s.dmem r.blocks)).complete r.count)

end Sys2Proof.Machine
end

