-- ==== Sys2Proof/Machine/Autocorrelation.lean ====
section
/-! DEFINITION. The autocorrelation lag-sum engine: ACORR (42 R190 to R192). -/

namespace Sys2Proof.Machine

open Sys2Proof.Machine.Float64

/-- The lag sums of `s` against `s` without its first entries, one for each entry left, lag ascending (42 R190). -/
def lagSums (s : List F64) : List F64 → List F64
  | [] => []
  | x :: rest => sumProducts zero s (x :: rest) :: lagSums s rest

/-- `ac` of 42 R190: every lag, unnormalised. -/
def autocorrelate (s : List F64) : List F64 := lagSums s s

/-- The computation of `ACORR` (42 R190). -/
def acorrCompute (a : Args) (m : Mem) : Option (Except Failure Results) :=
  match loadReals m a.src0.toNat a.len0.toNat with
  | none => none
  | some xs => some (.ok { blocks := [(a.dst0.toNat, realBytes (autocorrelate xs))], count := a.len0.toNat })

/-- `ACORR` (42 R190). -/
def execAcorr (s : State) : Host.Outcome State Fault Refusal := runCommand .acorr s (acorrCompute s.snap.args)

end Sys2Proof.Machine
end

