-- ==== Sys2Proof/Machine/Elementary.lean ====
section
/-! DEFINITION. The parameters `LOG` (40 R133) and `TW` (40 R142) at this hardware's value: correctly rounded (00 R7). Each is computed from a lower and an upper rational bound of the real value; where both bounds round to one binary64 value, that value is the correctly rounded one. Where they never do, the value is a free value of Config. -/

namespace Sys2Proof.Machine.Elementary

open Sys2Proof.Machine.Float64

/-- The sum of `(p/q)^j / (2(i+j)+1)` over `j < n`, as a numerator and a denominator. -/
def atanhSum (p q : Nat) : Nat → Nat → Nat × Nat
  | 0, _ => (0, 1)
  | n + 1, i =>
    match atanhSum p q n (i + 1) with
    | (u, v) => (q * v + (2 * i + 1) * p * u, (2 * i + 1) * q * v)

/-- Lower and upper bounds of `2·atanh(a/b)`, which is `ln((b+a)/(b-a))`, for `0 ≤ a/b ≤ 1/3`, in units of `2^-P`: `n` terms
of the series, rounded down; and the same, rounded up, with the rest of the series, which is below `4/3^(2n+1)`. -/
def logRatioBounds (n P a b : Nat) : Nat × Nat :=
  match atanhSum (a * a) (b * b) n 0 with
  | (u, v) =>
    let lo := 2 * a * u * 2 ^ P / (b * v)
    (lo, lo + 2 + 4 * 2 ^ P / 3 ^ (2 * n + 1))

/-- The 53 leading bits of a magnitude in units, and the position of its leading bit among them. -/
def leadingBits (u : Nat) : Nat × Nat :=
  if u.log2 ≤ 52 then (u, u.log2) else (u / 2 ^ (u.log2 - 52), 52)

/-- Lower and upper bounds of `ln(u·2^-1074)`, in units of `2^-P`: with `u·2^-1074 = (m/2^l)·2^e` and `1 ≤ m/2^l < 2`, it is
`e·ln 2 + ln(m/2^l)`. -/
def logBounds (n P u : Nat) : Int × Int :=
  let e : Int := (u.log2 : Int) - 1074
  match leadingBits u, logRatioBounds n P 1 3 with
  | (m, l), (lo2, hi2) =>
    match logRatioBounds n P (m - 2 ^ l) (m + 2 ^ l) with
    | (lom, him) =>
      if 0 ≤ e then (e * lo2 + lom, e * hi2 + him) else (e * hi2 + lom, e * lo2 + him)

/-- A fixed-point number of units of `2^-P`, rounded to binary64. -/
def roundFixed (P : Nat) (v : Int) : F64 := withSign (v < 0) (roundMag (v.natAbs * unitsPerOne) (2 ^ P))

/-- Number of series terms and precision of each attempt at a logarithm. -/
def logAttempts : List (Nat × Nat) := [(64, 200), (160, 500)]

/-- The first attempt whose two bounds round to one value (40 R133: 'the binary64 value nearest to ln(x)'). -/
def logNearest (x : F64) : List (Nat × Nat) → F64
  | [] => Config.logUndecided x
  | (n, P) :: rest =>
    match logBounds n P (magUnits x) with
    | (lo, hi) => if roundFixed P lo = roundFixed P hi then roundFixed P lo else logNearest x rest

/-- `flog x`: the natural logarithm with its special values (40 R133). -/
def flog (x : F64) : F64 :=
  if isNaN x then nan
  else if isZero x then withSign true infBits
  else if sign x then nan
  else if isInf x then x
  else if x = one then zero
  else logNearest x logAttempts

/-- `⌊π·2^192⌋`. -/
def piScaled : Nat := 0x3243f6a8885a308d313198a2e03707344a4093822299f31d0

/-- A partial sum of the cosine series at an angle whose square is `t/d`, from its `i`-th term on, divided by that term: `n`
further terms, as a numerator and a denominator. -/
def cosSum (t d : Nat) : Nat → Nat → Int × Nat
  | 0, _ => (1, 1)
  | n + 1, i =>
    match cosSum t d n (i + 1) with
    | (u, v) =>
      let c := d * ((2 * i + 1) * (2 * i + 2))
      ((c * v : Nat) - (t : Int) * u, c * v)

/-- The 63 bits below the sign of a non-negative rational, rounded; a negative one counts as zero. -/
def roundRatio (r : Int × Nat) : Nat := roundMag (r.1.toNat * unitsPerOne) r.2

/-- The binary64 value nearest `cos(2πk/m)` for `0 < k < m/4`: an odd number of terms after the first at an upper bound of the
angle bounds it below, an even number at a lower bound of the angle bounds it above. -/
def cosNearest (k m : Nat) : F64 :=
  let lo := 2 * k * piScaled / m
  let hi := 2 * k * (piScaled + 1) / m + 1
  let below := roundRatio (cosSum (hi * hi) (2 ^ 384) 27 0)
  let above := roundRatio (cosSum (lo * lo) (2 ^ 384) 26 0)
  if below = above then withSign false below else Config.cosUndecided (k / k.gcd m) (m / k.gcd m)

/-- The binary64 value nearest `cos(2πk/m)` in the first quadrant, `0 ≤ k ≤ m/4`, with the exact cases exact (40 R142). -/
def cosQuadrant (k m : Nat) : F64 :=
  if k = 0 then one else if 4 * k = m then zero else cosNearest k m

/-- `TW(k, m)`, for `m ≥ 2` a power of two and `k < m/2`: the binary64 values nearest `cos(2πk/m)` and `-sin(2πk/m)`, an exact
zero written as `+0.0` (40 R142). The sine is the cosine of the complementary angle. -/
def tw (k m : Nat) : Cplx :=
  if k = 0 then (one, zero)
  else if 4 * k ≤ m then (cosQuadrant k m, fneg (cosQuadrant (m / 4 - k) m))
  else (fneg (cosQuadrant (m / 2 - k) m), fneg (cosQuadrant (k - m / 4) m))

end Sys2Proof.Machine.Elementary
end

