-- ==== Sys2Proof/Machine/Transform.lean ====
section
/-! DEFINITION. The transform engine: the recursive radix-2 transform (41 R173) and the commands FFT, FFT.R and IFFT (41 R170 to R172). -/

namespace Sys2Proof.Machine

open Sys2Proof.Machine.Float64

/-- The entries of even index. -/
def evens {α : Type} : List α → List α
  | [] => []
  | [x] => [x]
  | x :: _ :: xs => x :: evens xs

/-- The entries of odd index. -/
def odds {α : Type} : List α → List α
  | [] => []
  | [_] => []
  | _ :: y :: xs => y :: odds xs

/-- Entry `k` times `TW(k, m)`, for `k` counted from the first argument up (41 R173). -/
def twiddled (m : Nat) : Nat → List Cplx → List Cplx
  | _, [] => []
  | k, o :: os => cmul (Elementary.tw k m) o :: twiddled m (k + 1) os

/-- The combine of two half transforms at size `m` (41 R173): `t = TW(k, m)·O[k]`, then `E[k] + t` at `k` and `E[k] - t` at
`k + m/2`. -/
def combine (m : Nat) (es os : List Cplx) : List Cplx :=
  let ts := twiddled m 0 os
  List.zipWith cadd es ts ++ List.zipWith csub es ts

/-- `fft_core` of a sequence of `2^l` values (41 R173). -/
def fftLevels : Nat → List Cplx → List Cplx
  | 0, xs => xs
  | l + 1, xs => combine (2 ^ (l + 1)) (fftLevels l (evens xs)) (fftLevels l (odds xs))

/-- `fft_core` (41 R173), for a sequence whose length is a power of two. -/
def fftCore (xs : List Cplx) : List Cplx := fftLevels (Nat.log2 xs.length) xs

/-- The inverse transform of `n` values (41 R172): conjugate, transform, conjugate, scale by `1/n`. -/
def ifftCore (n : Nat) (xs : List Cplx) : List Cplx :=
  let s := fdiv one (toF64 n)
  (fftCore (xs.map conj)).map (fun y => cscale (conj y) s)

/-- A real sample 'treated as complex with zero imaginary part' (41 R171). -/
def ofReal (x : F64) : Cplx := (x, zero)

/-- The computation of `FFT` (41 R170). -/
def fftCompute (a : Args) (m : Mem) : Option (Except Failure Results) :=
  match loadComplexes m a.src0.toNat a.len0.toNat with
  | none => none
  | some xs => some (.ok { blocks := [(a.dst0.toNat, complexBytes (fftCore xs))], count := a.len0.toNat })

/-- `FFT` (41 R170). -/
def execFft (s : State) : Host.Outcome State Fault Refusal := runCommand .fft s (fftCompute s.snap.args)

/-- The computation of `FFT.R` (41 R171). -/
def fftRCompute (a : Args) (m : Mem) : Option (Except Failure Results) :=
  match loadReals m a.src0.toNat a.len0.toNat with
  | none => none
  | some xs =>
    some (.ok { blocks := [(a.dst0.toNat, complexBytes (fftCore (xs.map ofReal)))], count := a.len0.toNat })

/-- `FFT.R` (41 R171). -/
def execFftR (s : State) : Host.Outcome State Fault Refusal := runCommand .fftR s (fftRCompute s.snap.args)

/-- The computation of `IFFT` (41 R172). -/
def ifftCompute (a : Args) (m : Mem) : Option (Except Failure Results) :=
  match loadComplexes m a.src0.toNat a.len0.toNat with
  | none => none
  | some xs =>
    some (.ok { blocks := [(a.dst0.toNat, complexBytes (ifftCore a.len0.toNat xs))], count := a.len0.toNat })

/-- `IFFT` (41 R172). -/
def execIfft (s : State) : Host.Outcome State Fault Refusal := runCommand .ifft s (ifftCompute s.snap.args)

end Sys2Proof.Machine
end

