-- ==== Sys2Proof/Machine/Cepstrum.lean ====
section
/-! DEFINITION. The real cepstrum: CEPSTRUM (45 R250 to R254). -/

namespace Sys2Proof.Machine

open Sys2Proof.Machine.Float64

/-- The log-magnitude of a spectrum bin (45 R251): squares, their sum real square first, epsilon, the natural logarithm, the
halving; as a complex value with zero imaginary part. -/
def logMagnitude (eps : F64) (x : Cplx) : Cplx :=
  (fdiv (Elementary.flog (fadd (fadd (fmul x.1 x.1) (fmul x.2 x.2)) eps)) two, zero)

/-- `C[0..N-1]` of 45 R250: the inverse transform of the log-magnitude spectrum. -/
def cepstrumOf (eps : F64) (n : Nat) (xs : List F64) : List Cplx :=
  ifftCore n ((fftCore (xs.map ofReal)).map (logMagnitude eps))

/-- The computation of `CEPSTRUM` (45 R250, R252): the whole complex result to the work region, its first real parts to the
output. -/
def cepstrumCompute (a : Args) (m : Mem) : Option (Except Failure Results) :=
  match loadReals m a.src0.toNat a.len0.toNat with
  | none => none
  | some xs =>
    let cs := cepstrumOf a.cepEps a.len0.toNat xs
    some (.ok { blocks := [(a.scr.toNat, complexBytes cs),
                           (a.dst0.toNat, realBytes ((cs.take a.len1.toNat).map (·.1)))],
                count := a.len1.toNat })

/-- `CEPSTRUM` (45 R250). -/
def execCepstrum (s : State) : Host.Outcome State Fault Refusal := runCommand .cepstrum s (cepstrumCompute s.snap.args)

end Sys2Proof.Machine
end

