-- ==== Sys2Proof/Machine/LinearPrediction.lean ====
section
/-! DEFINITION. The linear prediction core: LEVDUR (43 R200 to R204) and IIRSYN (43 R210, R211). -/

namespace Sys2Proof.Machine

open Sys2Proof.Machine.Float64

/-! ### Levinson-Durbin -/

/-- `NumericalBreakdown(j, bits(e))` (43 R202, 60 R301). -/
def breakdown (j : Nat) (e : F64) : Failure :=
  { code := .numericalBreakdown, info0 := BitVec.ofNat 64 j, info1 := e }

/-- The strict energy check, of an energy that will be divided by: it must be finite and above zero (43 R202). -/
def strictEnergyOk (e : F64) : Bool := isFinite e && !fle e zero

/-- The final energy check, of the requested order: it must be finite and not below zero (43 R202). -/
def finalEnergyOk (e : F64) : Bool := isFinite e && !flt e zero

/-- The reflection term `k` of step `m`: `R` holds `R[0..]`, `a` holds `a[0..m-1]`, `e` is `e[m-1]` (43 R200). The products pair
`a[1], a[2], …` with `R[m-1], R[m-2], …, R[1]`. -/
def reflection (R : List F64) (m : Nat) (a : List F64) (e : F64) : F64 :=
  fneg (fdiv (sumProducts (R.getD m zero) a.tail (R.take m).tail.reverse) e)

/-- The coefficients of order `m` from those of order `m-1`, all taken from the copy of the previous order (43 R200, R203). -/
def updateCoefficients (a : List F64) (k : F64) : List F64 :=
  one :: (List.zipWith (fun x y => fadd x (fmul k y)) a.tail a.tail.reverse ++ [k])

/-- The energy of order `m` from that of order `m-1` (43 R200). -/
def nextEnergy (e k : F64) : F64 := fmul e (fsub one (fmul k k))

/-- Steps `m, m+1, …`, as many as the first argument says, then the final check (43 R200, R202): the coefficients `a[0..p]` and
the energies `e[0..p]`. `es` holds `e[0..m-2]`, `e` is `e[m-1]`. -/
def levinsonSteps (R : List F64) : Nat → Nat → List F64 → List F64 → F64 → Except Failure (List F64 × List F64)
  | 0, m, a, es, e => if finalEnergyOk e then .ok (a, es ++ [e]) else .error (breakdown (m - 1) e)
  | n + 1, m, a, es, e =>
    if strictEnergyOk e then
      let k := reflection R m a e
      levinsonSteps R n (m + 1) (updateCoefficients a k) (es ++ [e]) (nextEnergy e k)
    else .error (breakdown (m - 1) e)

/-- The Levinson-Durbin recursion to order `p` (43 R200). -/
def levinsonDurbin (R : List F64) (p : Nat) : Except Failure (List F64 × List F64) :=
  levinsonSteps R p 1 [one] [] (R.getD 0 zero)

/-- The computation of `LEVDUR` (43 R200): nothing is stored unless the whole recursion succeeds. -/
def levdurCompute (a : Args) (m : Mem) : Option (Except Failure Results) :=
  match loadReals m a.src0.toNat (a.len1.toNat + 1) with
  | none => none
  | some R =>
    match levinsonDurbin R a.len1.toNat with
    | .error f => some (.error f)
    | .ok (cs, es) =>
      some (.ok { blocks := [(a.dst0.toNat, realBytes cs), (a.dst1.toNat, realBytes es)], count := a.len1.toNat + 1 })

/-- `LEVDUR` (43 R200). -/
def execLevdur (s : State) : Host.Outcome State Fault Refusal := runCommand .levdur s (levdurCompute s.snap.args)

/-! ### IIR synthesis -/

/-- From `acc`, the products of paired entries subtracted in ascending order (43 R210). -/
def subtractProducts (acc : F64) : List F64 → List F64 → F64
  | c :: cs, d :: ds => subtractProducts (fsub acc (fmul c d)) cs ds
  | _, _ => acc

/-- The filter over the samples left, with coefficients `c[1..p]` and delay line `d[1..p]`, the latest output first (43 R210): the
delay line shifts and its oldest entry is discarded. -/
def iirFilter (gain : F64) (cs : List F64) : List F64 → List F64 → List F64
  | _, [] => []
  | d, x :: xs =>
    let y := subtractProducts (fmul gain x) cs d
    y :: iirFilter gain cs ((y :: d).take cs.length) xs

/-- `y` of 43 R210: the delay line starts at `+0.0` in every entry (43 R211). -/
def iirSynthesize (gain : F64) (cs xs : List F64) : List F64 :=
  iirFilter gain cs (List.replicate cs.length zero) xs

/-- The computation of `IIRSYN` (43 R210); `coeffs[0]` is not read. -/
def iirsynCompute (a : Args) (m : Mem) : Option (Except Failure Results) :=
  match loadReals m a.src0.toNat a.len0.toNat, loadReals m (a.src1.toNat + 8) a.len1.toNat with
  | some xs, some cs =>
    some (.ok { blocks := [(a.dst0.toNat, realBytes (iirSynthesize a.fp0 cs xs))], count := a.len0.toNat })
  | _, _ => none

/-- `IIRSYN` (43 R210). -/
def execIirsyn (s : State) : Host.Outcome State Fault Refusal := runCommand .iirsyn s (iirsynCompute s.snap.args)

end Sys2Proof.Machine
end

