-- ==== Sys2Proof/Machine/Resampler.lean ====
section
/-! DEFINITION. The linear interpolation resampler: RESAMPLE (44 R230 to R232); its length and checks are in Machine/Operands.lean. -/

namespace Sys2Proof.Machine

open Sys2Proof.Machine.Float64

/-- `interp(x, n, ratio, i)` (44 R232): both indices are clamped to the last sample. -/
def interpolate (xs : List F64) (n : Nat) (ratio : F64) (i : Nat) : F64 :=
  let pos := fmul (toF64 i) ratio
  let f := (floorI pos).toNat
  let frac := fsub pos (toF64 f)
  let left := xs.getD (min f (n - 1)) zero
  let right := xs.getD (min (f + 1) (n - 1)) zero
  fadd (fmul left (fsub one frac)) (fmul right frac)

/-- Output samples `i, i+1, …`, as many as the last argument says (44 R230). -/
def resampleFrom (xs : List F64) (n : Nat) (ratio : F64) (i : Nat) : Nat → List F64
  | 0 => []
  | l + 1 => interpolate xs n ratio i :: resampleFrom xs n ratio (i + 1) l

/-- The computation of `RESAMPLE` (44 R230). -/
def resampleCompute (a : Args) (m : Mem) : Option (Except Failure Results) :=
  match loadReals m a.src0.toNat a.len0.toNat with
  | none => none
  | some xs =>
    let ys := resampleFrom xs a.len0.toNat (resampleRatio a) 0 (resampleLength a)
    some (.ok { blocks := [(a.dst0.toNat, realBytes ys)], count := resampleLength a })

/-- `RESAMPLE` (44 R230). -/
def execResample (s : State) : Host.Outcome State Fault Refusal := runCommand .resample s (resampleCompute s.snap.args)

end Sys2Proof.Machine
end

