-- ==== Sys2Proof/Machine/VectorQuantizer.lean ====
section
/-! DEFINITION. The nearest-codeword search: VQNEAR (46 R270 to R274). -/

namespace Sys2Proof.Machine

open Sys2Proof.Machine.Float64

/-- The squared Euclidean distance, from `acc`, over ascending components (46 R271). -/
def distanceFrom (acc : F64) : List F64 → List F64 → F64
  | x :: xs, y :: ys => distanceFrom (fadd acc (fmul (fsub x y) (fsub x y))) xs ys
  | _, _ => acc

/-- `dist` of 46 R270. -/
def distance (v c : List F64) : F64 := distanceFrom zero v c

/-- The search over the codewords left, the first of them number `c` (46 R270): a later one wins only when strictly nearer. -/
def searchFrom (v : List F64) (best : Nat) (bestDist : F64) (c : Nat) : List (List F64) → Nat
  | [] => best
  | w :: ws =>
    let d := distance v w
    if flt d bestDist then searchFrom v c d (c + 1) ws else searchFrom v best bestDist (c + 1) ws

/-- The index of the nearest codeword (46 R270, R272): the search starts from codeword 0's distance. -/
def nearest (codebook : List (List F64)) (v : List F64) : Nat :=
  match codebook with
  | [] => 0
  | w :: ws => searchFrom v 0 (distance v w) 1 ws

/-- The rows of a row-major array (20 R62): `n` rows of dimension `d`. -/
def rows (d : Nat) : Nat → List F64 → List (List F64)
  | 0, _ => []
  | n + 1, xs => xs.take d :: rows d n (xs.drop d)

/-- The computation of `VQNEAR` (46 R270). -/
def vqnearCompute (a : Args) (m : Mem) : Option (Except Failure Results) :=
  match loadReals m a.src0.toNat (a.len0.toNat * a.len2.toNat),
        loadReals m a.src1.toNat (a.len1.toNat * a.len2.toNat) with
  | some fs, some cb =>
    let codebook := rows a.len2.toNat a.len1.toNat cb
    let idx := (rows a.len2.toNat a.len0.toNat fs).map (nearest codebook)
    some (.ok { blocks := [(a.dst0.toNat, indexBytes idx)], count := a.len0.toNat })
  | _, _ => none

/-- `VQNEAR` (46 R270). -/
def execVqnear (s : State) : Host.Outcome State Fault Refusal := runCommand .vqnear s (vqnearCompute s.snap.args)

end Sys2Proof.Machine
end

