-- ==== Sys2Proof/Machine/Dispatch.lean ====
section
/-! DEFINITION. The dispatch of the command step: one arm per command (40 R123). -/

namespace Sys2Proof.Machine

def exec (i : Instr) (s : State) : Host.Outcome State Fault Refusal :=
  match i with
  | .fft => Sys2Proof.Machine.execFft s
  | .fftR => Sys2Proof.Machine.execFftR s
  | .ifft => Sys2Proof.Machine.execIfft s
  | .acorr => Sys2Proof.Machine.execAcorr s
  | .levdur => Sys2Proof.Machine.execLevdur s
  | .iirsyn => Sys2Proof.Machine.execIirsyn s
  | .resample => Sys2Proof.Machine.execResample s
  | .cepstrum => Sys2Proof.Machine.execCepstrum s
  | .vqnear => Sys2Proof.Machine.execVqnear s

end Sys2Proof.Machine
end

