-- ==== Sys2Proof/WellFormed.lean ====
section
/-! DEFINITION. Which fields make a legal command word (30 R97): three checks, one per clause of the rule. -/

namespace Sys2Proof

/-- `RSV` must be zero (30 R93). -/
def Fields.reservedOk (f : Fields) : Bool := f.rsv == 0

/-- `OP` is one of the eight operation codes (30 R97: `0x00` and `0x09` to `0xFF` are illegal). -/
def Fields.opOk (f : Fields) : Bool := 1 ≤ f.op.toNat && f.op.toNat ≤ 8

/-- `REAL` is legal only with `OP = 0x01` (30 R92). -/
def Fields.realOk (f : Fields) : Bool := f.real == 0 || f.op == 0x01

/-- The fields of a legal command word. -/
def Fields.wellFormed (f : Fields) : Bool := f.reservedOk && f.opOk && f.realOk

/-- A command is well formed when its fields are. -/
def Instr.wellFormed (i : Instr) : Bool := i.fields.wellFormed

end Sys2Proof
end

