-- ==== Sys2Proof/Decode.lean ====
section
/-! DEFINITION. Decoding a command word, total over all `2^64` words (30 R94), with every illegal word rejected by name (30 R97), and the encoder (30 R95). -/

namespace Sys2Proof

/-- Why a command word is `ILLEGAL` (30 R97). -/
inductive IllegalWord where
  /-- `RSV ≠ 0` (30 R93). -/
  | reservedBits
  /-- `REAL = 1` with `OP ≠ 0x01` (30 R92). -/
  | realFlag
  /-- `OP = 0x00` or `OP` in `0x09` to `0xFF`. -/
  | opcode
  deriving DecidableEq, Repr

/-- The fields of a command word (30 R91). -/
def fieldsOf (w : Word) : Fields :=
  ⟨w.extractLsb' 0 8, w.extractLsb' 8 1, w.extractLsb' 9 55⟩

/-- The word with given fields (30 R90). -/
def wordOf (f : Fields) : Word := f.rsv ++ f.real ++ f.op

/-- The opcode map for words whose `RSV` and `REAL` are zero (30 R94, R95). -/
def decodeOp (op : BitVec 8) : Except IllegalWord Instr :=
  if op = 0x02 then .ok .ifft
  else if op = 0x03 then .ok .acorr
  else if op = 0x04 then .ok .levdur
  else if op = 0x05 then .ok .iirsyn
  else if op = 0x06 then .ok .resample
  else if op = 0x07 then .ok .cepstrum
  else if op = 0x08 then .ok .vqnear
  else .error .opcode

/-- `decode` of 30 R94, its tests in the order of the rule. -/
def decode (w : Word) : Except IllegalWord Instr :=
  let f := fieldsOf w
  if f.rsv ≠ 0 then .error .reservedBits
  else if f.op = 0x01 ∧ f.real = 0 then .ok .fft
  else if f.op = 0x01 ∧ f.real = 1 then .ok .fftR
  else if f.real = 1 then .error .realFlag
  else decodeOp f.op

/-- The command word of each command (30 R95, column 'command word'). -/
def encode : Instr → Word
  | .fft => 0x0000000000000001
  | .fftR => 0x0000000000000101
  | .ifft => 0x0000000000000002
  | .acorr => 0x0000000000000003
  | .levdur => 0x0000000000000004
  | .iirsyn => 0x0000000000000005
  | .resample => 0x0000000000000006
  | .cepstrum => 0x0000000000000007
  | .vqnear => 0x0000000000000008

/-- The command word whose low `nbits` bits are `w` and whose other bits are zero. -/
def tableWord (nbits w : Nat) : Word := BitVec.ofNat 64 (w % 2 ^ nbits)

/-- What the decoder reads from the opcode table's word `w` of `nbits` bits. -/
def decodeTableWord (nbits w : Nat) : Option Instr := (decode (tableWord nbits w)).toOption

end Sys2Proof
end

