-- ==== Sys2Proof/Machine/HostPort.lean ====
section
/-! DEFINITION. The host port: the register window (10 R23 to R39), the aperture map (20 R70), the DMEM window (20 R66), soft reset (70 R342) and the host hold (20 R76). -/

namespace Sys2Proof.Machine

/-! ### The register window -/

/-- The named registers of the window (10 R23). -/
inductive Reg where
  | id | cfg | ctrl | cmd | status | irqEn | errCode | errInfo0 | errInfo1 | result0
  | src0 | src1 | dst0 | dst1 | scr | len0 | len1 | len2 | len3 | fp0 | fp1 | cepEps
  deriving DecidableEq, Repr

/-- The offset of a register in the window (10 R23's table). -/
def Reg.offset : Reg → Nat
  | .id => 0x000
  | .cfg => 0x008
  | .ctrl => 0x010
  | .cmd => 0x018
  | .status => 0x020
  | .irqEn => 0x028
  | .errCode => 0x030
  | .errInfo0 => 0x038
  | .errInfo1 => 0x040
  | .result0 => 0x048
  | .src0 => 0x080
  | .src1 => 0x088
  | .dst0 => 0x090
  | .dst1 => 0x098
  | .scr => 0x0A0
  | .len0 => 0x0A8
  | .len1 => 0x0B0
  | .len2 => 0x0B8
  | .len3 => 0x0C0
  | .fp0 => 0x0C8
  | .fp1 => 0x0D0
  | .cepEps => 0x0D8

/-- Every named register. -/
def Reg.all : List Reg :=
  [.id, .cfg, .ctrl, .cmd, .status, .irqEn, .errCode, .errInfo0, .errInfo1, .result0,
   .src0, .src1, .dst0, .dst1, .scr, .len0, .len1, .len2, .len3, .fp0, .fp1, .cepEps]

/-- The register at an offset, if one is named there (10 R23, R39). -/
def Reg.atOffset (off : Nat) : Option Reg := Reg.all.find? (fun r => r.offset == off)

/-- `CFG` reports the parameters (10 R25). -/
def cfgValue : Word := BitVec.ofNat 64 (Config.maxLog2N + 2 ^ 8 * Config.maxOrder + 2 ^ 16 * Config.log2Dmem)

/-- The value a register reads as; no read has a side effect (20 R68). -/
def State.readReg (s : State) : Reg → Word
  | .id => Config.idValue
  | .cfg => cfgValue
  | .ctrl => 0
  | .cmd => s.cmd
  | .status => s.statusWord
  | .irqEn => s.irqEnWord
  | .errCode => s.errCodeWord
  | .errInfo0 => s.errInfo0
  | .errInfo1 => s.errInfo1
  | .result0 => s.result0
  | .src0 => s.args.src0
  | .src1 => s.args.src1
  | .dst0 => s.args.dst0
  | .dst1 => s.args.dst1
  | .scr => s.args.scr
  | .len0 => s.args.len0
  | .len1 => s.args.len1
  | .len2 => s.args.len2
  | .len3 => s.args.len3
  | .fp0 => s.args.fp0
  | .fp1 => s.args.fp1
  | .cepEps => s.args.cepEps

/-- An unnamed offset reads as zero (10 R39). -/
def State.readWindow (s : State) (off : Nat) : Word :=
  match Reg.atOffset off with
  | some r => s.readReg r
  | none => 0

/-! ### Soft reset -/

/-- Bytes the spec leaves unspecified, one draw a byte (70 R342). -/
def drawnBytes (draw : Nat) : Nat → Nat → List Byte
  | _, 0 => []
  | a, n + 1 => Config.abortByte draw a :: drawnBytes draw (a + 1) n

/-- Every byte of the written regions becomes unspecified (70 R342 item 3). -/
def scrambleRegions (draw : Nat) (m : Mem) : List Region → Mem
  | [] => m
  | r :: rs =>
    scrambleRegions draw (if r.written then Mem.writeBytes m r.base (drawnBytes draw r.base r.size) else m) rs

/-- DMEM after a soft reset abandons the command of a snapshot: unchanged if the command would have failed a check, else with the
bytes of its `out` and `scratch` regions unspecified (70 R342 item 3). -/
def abandonedMem (draw : Nat) (snap : Snapshot) (m : Mem) : Mem :=
  match decode snap.cmd with
  | .error _ => m
  | .ok i =>
    match checkCommand i snap.args with
    | .error _ => m
    | .ok rs => scrambleRegions draw m rs

/-- Soft reset (70 R342). -/
def State.softReset (s : State) : State :=
  match s.phase with
  | .idle => s.resetRegisters
  | .busy => (s.withDrawn (abandonedMem s.draws s.snap s.dmem)).resetRegisters

/-! ### Power-on reset -/

/-- Asserting the reset input performs 70 R340 in whatever state the engine is, DMEM unwritten again and no access held
(DEDUCED, log entry 3). The model's own record of the port stays. No step does this: it is no move of a run (70 R366, 93 H14; log entry 18). -/
def State.powerOnReset (s : State) : State :=
  { State.reset with port := s.port, answers := s.answers, draws := s.draws }

/-- The state after the platform asserts and releases one of its signals (70 R341): the one that `RESET_SOURCE` names drives the
reset input, the others do nothing to the engine. No access happens in between. -/
def State.platformAsserts (s : State) (signal : Nat) : State :=
  if signal = Config.resetSource then s.powerOnReset else s

/-! ### Writing registers -/

/-- A write to `CTRL` (10 R26). -/
def State.writeCtrl (s : State) (v : Word) : State := if v.getLsbD 0 then s.softReset else s

/-- The state after an 8-byte host write to a register. Read-only registers ignore it (10 R23). -/
def State.writeReg (s : State) (r : Reg) (v : Word) : State :=
  match r with
  | .id => s
  | .cfg => s
  | .ctrl => s.writeCtrl v
  | .cmd => s.writeCmd v
  | .status => s.clearStatus v
  | .irqEn => s.setIrqEn v
  | .errCode => s
  | .errInfo0 => s
  | .errInfo1 => s
  | .result0 => s
  | .src0 => s.withArgs { s.args with src0 := v }
  | .src1 => s.withArgs { s.args with src1 := v }
  | .dst0 => s.withArgs { s.args with dst0 := v }
  | .dst1 => s.withArgs { s.args with dst1 := v }
  | .scr => s.withArgs { s.args with scr := v }
  | .len0 => s.withArgs { s.args with len0 := v }
  | .len1 => s.withArgs { s.args with len1 := v }
  | .len2 => s.withArgs { s.args with len2 := v }
  | .len3 => s.withArgs { s.args with len3 := v }
  | .fp0 => s.withArgs { s.args with fp0 := v }
  | .fp1 => s.withArgs { s.args with fp1 := v }
  | .cepEps => s.withArgs { s.args with cepEps := v }

/-- A write at an unnamed offset is ignored (10 R39). -/
def State.writeWindow (s : State) (off : Nat) (v : Word) : State :=
  match Reg.atOffset off with
  | some r => s.writeReg r v
  | none => s

/-! ### The aperture -/

/-- What lies at an aperture offset (20 R70): an offset in the register window, an engine address, or nothing. -/
inductive Place where
  | window (off : Nat)
  | dmem (address : Nat)
  | unmapped
  deriving DecidableEq, Repr

/-- The aperture map (20 R70). -/
def placeOf (offset : BitVec 27) : Place :=
  if offset.toNat < Config.windowSize then .window offset.toNat
  else if offset.toNat < Config.dmemOffset then .unmapped
  else if offset.toNat < Config.dmemOffset + Config.dmemSize then .dmem (offset.toNat - Config.dmemOffset)
  else .unmapped

/-- The offset of an access. -/
def HostAccess.offset : HostAccess → BitVec 27
  | .read off _ => off
  | .write off _ _ => off

/-- The width of an access in bytes. -/
def HostAccess.width : HostAccess → Nat
  | .read _ w => w
  | .write _ w _ => w

/-- The host physical address of an access (20 R70). -/
def HostAccess.hostAddress (a : HostAccess) : Nat := Config.engineBase + a.offset.toNat

/-- An access to the DMEM window, which is held while BUSY (20 R76). -/
def HostAccess.toDmem (a : HostAccess) : Bool :=
  match placeOf a.offset with
  | .dmem _ => true
  | _ => false

/-- A register access must be an aligned 8-byte access (10 R23). -/
def windowAccessOk (off width : Nat) : Bool := width == 8 && off % 8 == 0

/-- A DMEM access must be 1, 2, 4 or 8 bytes wide and naturally aligned (20 R66). -/
def dmemAccessOk (address width : Nat) : Bool :=
  (width == 1 || width == 2 || width == 4 || width == 8) && address % width == 0

/-- Answering a host access. -/
def State.answer (s : State) (r : Answer) : State := { s with answers := s.answers ++ [r] }

/-- A host read (20 R66, R68; 10 R23). A DMEM byte never written is a fault of the run (70 R340). -/
def performRead (s : State) (offset : BitVec 27) (width : Nat) : Host.Outcome State Fault Refusal :=
  match placeOf offset with
  | .window off =>
    if windowAccessOk off width then .next (s.answer (.data (s.readWindow off))) else .next (s.answer .busError)
  | .dmem a =>
    if dmemAccessOk a width then
      match Mem.read s.dmem a width with
      | some v => .next (s.answer (.data (BitVec.ofNat 64 v)))
      | none => .fault .unwrittenRead
    else .next (s.answer .busError)
  | .unmapped => .next (s.answer .busError)

/-- A host write (20 R66, R68; 10 R23). -/
def performWrite (s : State) (offset : BitVec 27) (width : Nat) (data : Word) : State :=
  match placeOf offset with
  | .window off =>
    if windowAccessOk off width then (s.writeWindow off data).answer .written else s.answer .busError
  | .dmem a =>
    if dmemAccessOk a width then (s.withDmem (Mem.write s.dmem a width data.toNat)).answer .written
    else s.answer .busError
  | .unmapped => s.answer .busError

/-- Performing a host access: one indivisible step (20 R67). -/
def performAccess (s : State) : HostAccess → Host.Outcome State Fault Refusal
  | .read off w => performRead s off w
  | .write off w v => .next (performWrite s off w v)

/-- A host access that arrives while BUSY: held if it is to the DMEM window, else performed (20 R76, 10 R23). -/
def arriveBusy (s : State) (a : HostAccess) : Host.Outcome State Fault Refusal :=
  if a.toDmem then .next (s.withHeld (s.held ++ [a])) else performAccess s a

end Sys2Proof.Machine
end

