-- ==== Sys2Proof/Machine/Engine.lean ====
section
/-! DEFINITION. The engine's move in each phase: the command step (40 R123), the held accesses (20 R76) and the order of arrival at the port (20 R75). -/

namespace Sys2Proof.Machine

/-- `IllegalCommand` with the whole command word (60 R301). -/
def illegalCommand (w : Word) : Failure := { code := .illegalCommand, info0 := w, info1 := 0 }

/-- The command step (40 R123): the whole command of the snapshot, or its failure if the word is illegal. -/
def commandStep (s : State) : Host.Outcome State Fault Refusal :=
  match decode s.snap.cmd with
  | .error _ => .next (s.fail (illegalCommand s.snap.cmd))
  | .ok i => exec i s

/-- The next move in BUSY: what arrives first is a host access or the engine's turn; when nothing more arrives, the command step is
taken (40 R127). -/
def busyStep (s : State) : Host.Outcome State Fault Refusal :=
  match s.port with
  | .access a :: rest => arriveBusy (s.withPort rest) a
  | .engineTurn :: rest => commandStep (s.withPort rest)
  | [] => commandStep s

/-- The next move in IDLE: the oldest held access (20 R76), else the next arrival; the engine itself does nothing (60 R316). -/
def idleStep (s : State) : Host.Outcome State Fault Refusal :=
  match s.held with
  | a :: rest => performAccess (s.withHeld rest) a
  | [] =>
    match s.port with
    | .access a :: rest => performAccess (s.withPort rest) a
    | .engineTurn :: rest => .next (s.withPort rest)
    | [] => .next s

/-- One move of the machine. -/
def engineStep (s : State) : Host.Outcome State Fault Refusal :=
  match s.phase with
  | .idle => idleStep s
  | .busy => busyStep s

/-- The state in which the very next step is the command step of the word `w` on the present argument registers: `w` accepted
(40 R120) and the engine's turn next (log entry 1). -/
def launched (s : State) (w : Word) : State :=
  (s.accept w).withPort (.engineTurn :: s.port)

end Sys2Proof.Machine
end

