-- ==== Sys2Proof/Machine/Step.lean ====
section
/-! DEFINITION. One step of the machine, and how a command word is placed for the very next step. -/

namespace Sys2Proof.Machine

/-- One step (20 R75, 40 R127): Machine/Engine.lean says which. -/
def step (s : State) : Host.Outcome State Fault Refusal := engineStep s

/-- The state whose next step runs the command word `w` of `nbits` bits. -/
def State.withFetchWord (s : State) (nbits w : Nat) : State := launched s (tableWord nbits w)

end Sys2Proof.Machine
end

