-- ==== Sys2Proof/Machine/HostNotation.lean ====
section
/-! DEFINITION. The spec's notation for host programs (30 R99) and its pseudo-instructions (30 R100): which bus access each line stands for, how the host's own state (the line and the temporaries) moves, and when a program ends (70 R365). A host temporary is host state, not engine state: nothing here is part of State or of the step. -/

namespace Sys2Proof.Machine

/-- A value in a line: an integer literal (a real literal stands for its binary64 bits) or a host temporary (30 R99). -/
inductive HostValue where
  | lit (v : Word)
  | temp (name : String)
  deriving DecidableEq, Repr

/-- A line of a host program (30 R99). -/
inductive HostLine where
  /-- `W NAME, v` -/
  | wr (reg : Reg) (v : HostValue)
  /-- `R NAME -> t` -/
  | rd (reg : Reg) (t : String)
  /-- `SD [a], v` -/
  | sd (a : Nat) (v : HostValue)
  /-- `SW [a], v` -/
  | sw (a : Nat) (v : HostValue)
  /-- `LD [a] -> t` -/
  | ld (a : Nat) (t : String)
  /-- `LW [a] -> t` -/
  | lw (a : Nat) (t : String)
  /-- `label:` -/
  | label (l : String)
  /-- `BNZ t, mask, label` -/
  | bnz (t : String) (mask : Word) (l : String)
  deriving DecidableEq, Repr

/-- The host's temporaries. -/
abbrev Temps := List (String × Word)

/-- The value of a temporary, if it has been set. -/
def Temps.get (ts : Temps) (t : String) : Option Word := (ts.find? (fun p => p.1 == t)).map (·.2)

/-- The value a line writes. -/
def HostValue.eval (ts : Temps) : HostValue → Option Word
  | .lit v => some v
  | .temp t => Temps.get ts t

/-- The aperture offset of a register. -/
def regOffset (r : Reg) : BitVec 27 := BitVec.ofNat 27 r.offset

/-- The aperture offset of a DMEM address, for an address below `DMEM_SIZE` (20 R70). -/
def dmemOffsetOf (a : Nat) : BitVec 27 := BitVec.ofNat 27 (Config.dmemOffset + a)

/-- An access to the DMEM address `a` as the engine sees it. Nothing wraps: from `DMEM_SIZE` up, the host address of 30 R99 lies
outside the aperture (20 R70), and no access reaches the engine (DEDUCED, log entries 5 and 26). -/
def dmemLine (a : Nat) (acc : HostAccess) : Option HostAccess := if a < Config.dmemSize then some acc else none

/-- The bus access a line stands for (30 R99, column 'bus access'), if it reaches the engine; none for a label or a branch. DESIGN
CHOICE, log entry 26: a line whose temporary was never set makes no access, and `SW` may name a temporary too. -/
def HostLine.access (ts : Temps) : HostLine → Option HostAccess
  | .wr g v => (v.eval ts).map (fun x => .write (regOffset g) 8 x)
  | .rd g _ => some (.read (regOffset g) 8)
  | .sd a v => (v.eval ts).bind (fun x => dmemLine a (.write (dmemOffsetOf a) 8 x))
  | .sw a v => (v.eval ts).bind (fun x => dmemLine a (.write (dmemOffsetOf a) 4 x))
  | .ld a _ => dmemLine a (.read (dmemOffsetOf a) 8)
  | .lw a _ => dmemLine a (.read (dmemOffsetOf a) 4)
  | .label _ => none
  | .bnz _ _ _ => none

/-- The host's own state while it runs a program: the program, the number of its line, the temporaries. -/
structure HostRun where
  program : List HostLine
  line : Nat
  temps : Temps
  deriving DecidableEq, Repr

/-- The line number of a label, counting from `n`. DESIGN CHOICE, log entry 26: of two equal labels, the first. -/
def findLabel (l : String) (n : Nat) : List HostLine → Option Nat
  | [] => none
  | .label l' :: rest => if l = l' then some n else findLabel l (n + 1) rest
  | _ :: rest => findLabel l (n + 1) rest

/-- The host after a read line: the temporary takes the data. DESIGN CHOICE, log entry 27: after a bus error (60 R304 leaves to the
host what it does then) the temporary keeps what it held, and the host goes on to the next line; the same after a line whose access
does not reach the engine (log entry 26). -/
def HostRun.store (h : HostRun) (t : String) : Option Answer → HostRun
  | some (.data v) => { h with line := h.line + 1, temps := (t, v) :: h.temps }
  | _ => { h with line := h.line + 1 }

/-- The host after its present line is done, given the answer to its access, if it made one (30 R99). DESIGN CHOICE, log entry 26: a
`BNZ` whose temporary was never set, or whose label names no line, goes on to the next line, and so does a line that makes no
access to the engine. DESIGN CHOICE, log entry 27: a `W`, `SD` or `SW` answered with a bus error (60 R304) goes on to the next line
too. -/
def HostRun.advance (h : HostRun) (a : Option Answer) : HostRun :=
  match h.program[h.line]? with
  | some (.rd _ t) => h.store t a
  | some (.ld _ t) => h.store t a
  | some (.lw _ t) => h.store t a
  | some (.bnz t mask l) =>
    match Temps.get h.temps t, findLabel l 0 h.program with
    | some v, some n => if v &&& mask ≠ 0 then { h with line := n } else { h with line := h.line + 1 }
    | _, _ => { h with line := h.line + 1 }
  | some _ => { h with line := h.line + 1 }
  | none => h

/-- The access of the host's present line. -/
def HostRun.request (h : HostRun) : Option HostAccess := (h.program[h.line]?).bind (·.access h.temps)

/-! ### The end of a program (70 R365) -/

/-- A label is no instruction: it names the next line (30 R99). -/
def HostLine.isLabel : HostLine → Bool
  | .label _ => true
  | _ => false

/-- The line writes `CMD`. -/
def HostLine.writesCmd : HostLine → Bool
  | .wr .cmd _ => true
  | _ => false

/-- The lines begin with the expansion of a `WAIT` (30 R100). DEDUCED, log entry 28: with any label and any temporary. -/
def startsWithWait : List HostLine → Bool
  | .label l :: .rd .status t :: .bnz t' mask l' :: _ => t == t' && mask == 1 && l == l'
  | _ => false

/-- A `WAIT` stands among the lines. -/
def containsWait : List HostLine → Bool
  | [] => false
  | x :: xs => startsWithWait (x :: xs) || containsWait xs

/-- The program's end is defined: a `WAIT` follows its last `CMD` write, if it has one (70 R365). -/
def endDefined : List HostLine → Bool
  | [] => true
  | x :: xs => (!x.writesCmd || xs.any HostLine.writesCmd || containsWait xs) && endDefined xs

/-- The last instruction has been performed: nothing but labels is left. -/
def HostRun.done (h : HostRun) : Bool := (h.program.drop h.line).all HostLine.isLabel

/-- A host program has ended, with the engine in the state `s` (70 R365). -/
def HostRun.ended (h : HostRun) (s : State) : Bool := endDefined h.program && h.done && s.phase == .idle

/-! ### Pseudo-instructions -/

/-- The pseudo-instructions (30 R100). DEDUCED, log entry 29: each operand is what the `W` line it expands to may write, a literal or
a temporary (30 R99). -/
inductive Pseudo where
  | wait
  | fft (d s n : HostValue)
  | fftR (d s n : HostValue)
  | ifft (d s n : HostValue)
  | acorr (d s n : HostValue)
  | levdur (a e r rlen p : HostValue)
  | iirsyn (y x c n p g : HostValue)
  | resample (y x n cap r0 r1 : HostValue)
  | cepstrum (c x n nc w : HostValue)
  | vqnear (i f cb nf k d : HostValue)
  | clear
  | sreset
  deriving DecidableEq, Repr

/-- `W NAME, v` with a literal. -/
def wl (r : Reg) (v : Word) : HostLine := .wr r (.lit v)

/-- The expansion of each pseudo-instruction (30 R100); `l` is the label a `WAIT` uses. -/
def Pseudo.expand (l : String) : Pseudo → List HostLine
  | .wait => [.label l, .rd .status "t", .bnz "t" 0x1 l]
  | .fft d s n => [.wr .src0 s, .wr .dst0 d, .wr .len0 n, wl .cmd 0x1]
  | .fftR d s n => [.wr .src0 s, .wr .dst0 d, .wr .len0 n, wl .cmd 0x101]
  | .ifft d s n => [.wr .src0 s, .wr .dst0 d, .wr .len0 n, wl .cmd 0x2]
  | .acorr d s n => [.wr .src0 s, .wr .dst0 d, .wr .len0 n, wl .cmd 0x3]
  | .levdur a e r rlen p => [.wr .src0 r, .wr .dst0 a, .wr .dst1 e, .wr .len0 rlen, .wr .len1 p, wl .cmd 0x4]
  | .iirsyn y x c n p g =>
    [.wr .src0 x, .wr .src1 c, .wr .dst0 y, .wr .len0 n, .wr .len1 p, .wr .fp0 g, wl .cmd 0x5]
  | .resample y x n cap r0 r1 =>
    [.wr .src0 x, .wr .dst0 y, .wr .len0 n, .wr .len1 cap, .wr .fp0 r0, .wr .fp1 r1, wl .cmd 0x6]
  | .cepstrum c x n nc w => [.wr .src0 x, .wr .dst0 c, .wr .scr w, .wr .len0 n, .wr .len1 nc, wl .cmd 0x7]
  | .vqnear i f cb nf k d =>
    [.wr .src0 f, .wr .src1 cb, .wr .dst0 i, .wr .len0 nf, .wr .len1 k, .wr .len2 d, .wr .len3 d, wl .cmd 0x8]
  | .clear => [wl .status 0xE]
  | .sreset => [wl .ctrl 0x1]

end Sys2Proof.Machine
end

