-- ==== Sys2Proof/Safety.lean ====
section
/-! DEFINITION. The words claims are stated in: the offsets of the registers (10 R23), what a launch, a run and its observation are (70 R346, R365), the invariant of the machine, the bytes a command may write, and the transform in its iterative form (41 R176). -/

namespace Sys2Proof.Safety

open Sys2Proof.Machine Sys2Proof.Machine.Float64

/-- The register offsets of 10 R23's table, as literals. -/
def registerOffset : Reg → BitVec 27
  | .id => 0x000
  | .cfg => 0x008
  | .ctrl => 0x010
  | .cmd => 0x018
  | .status => 0x020
  | .irqEn => 0x028
  | .errCode => 0x030
  | .errInfo0 => 0x038
  | .errInfo1 => 0x040
  | .result0 => 0x048
  | .src0 => 0x080
  | .src1 => 0x088
  | .dst0 => 0x090
  | .dst1 => 0x098
  | .scr => 0x0A0
  | .len0 => 0x0A8
  | .len1 => 0x0B0
  | .len2 => 0x0B8
  | .len3 => 0x0C0
  | .fp0 => 0x0C8
  | .fp1 => 0x0D0
  | .cepEps => 0x0D8

/-- The part of a clean launch that names no command (70 R346): the engine idle and no host access held. `Launch` adds that the
input bytes are written; what the argument registers hold, each claim says for its command. -/
abbrev CleanLaunch (s : State) : Prop := s.phase = .idle ∧ s.held = []

/-- The invariant of the machine: DMEM is in canonical form; while BUSY the status of the last command is clear (40 R120) and `CMD` is
the running command's word (10 R27, R45); `ERR` comes with an error code (40 R128); with no error code there is no error
information (40 R129); only DMEM accesses are held (20 R76). -/
structure Inv (s : State) : Prop where
  memWf : Mem.wf s.dmem
  busyClear : s.phase = .busy →
    s.done = false ∧ s.err = false ∧ s.errCode = .none ∧ s.result0 = 0
  busyCmd : s.phase = .busy → s.cmd = s.snap.cmd
  errReported : s.err = true → s.errCode ≠ .none
  noErrorNoInfo : s.errCode = .none → s.errOp = 0 ∧ s.errInfo0 = 0 ∧ s.errInfo1 = 0
  heldDmem : ∀ a ∈ s.held, a.toDmem = true

/-- An address lies in a region. -/
abbrev inRegion (x : Nat) (r : Region) : Prop := r.base ≤ x ∧ x < r.base + r.size

/-- An address lies in an `out` or `scratch` region of a command on given argument registers (40 R126). -/
def mayWrite (i : Instr) (a : Args) (x : Nat) : Prop :=
  ∃ rs, commandRegions i a = .ok rs ∧ ∃ r ∈ rs, r.written = true ∧ inRegion x r

/-- A region passes both checks of 40 R124. -/
abbrev regionOk (r : Region) : Prop := r.base + r.size ≤ Config.dmemSize ∧ r.base % r.align = 0

/-- A pair of regions that 40 R125 forbids: one of them is written, they share a byte, and it is not the in-place transform. -/
def forbidden (i : Instr) (p q : Region) : Prop :=
  (p.role ≠ .input ∨ q.role ≠ .input) ∧ (∃ x, inRegion x p ∧ inRegion x q) ∧
    ¬((i = .fft ∨ i = .ifft) ∧ p.index = 0 ∧ q.index = 2 ∧ p.base = q.base)

/-- Two runs of `n` bytes and `k` bytes do not intersect. -/
abbrev disjoint (a n b k : Nat) : Prop := a + n ≤ b ∨ b + k ≤ a

/-- Everything of a state that no command step writes: all but DMEM, the phase, `DONE`, `ERR`, the error registers and
`RESULT0`. -/
abbrev sameControl (s t : State) : Prop :=
  t.cmd = s.cmd ∧ t.ovr = s.ovr ∧ t.doneIe = s.doneIe ∧ t.errIe = s.errIe ∧ t.ovrIe = s.ovrIe ∧ t.args = s.args ∧
    t.snap = s.snap ∧ t.held = s.held ∧ t.port = s.port ∧ t.answers = s.answers ∧ t.draws = s.draws

/-- The state a command leaves when it succeeds with new DMEM contents and a count (40 R129). -/
def succeeded (s : State) (m : Mem) (count : Nat) : State :=
  { s with dmem := m, result0 := BitVec.ofNat 64 count, done := true, phase := .idle }

/-- The state a command leaves when it fails with `RESULT0 = 0` (40 R128). -/
def failed (s : State) (code : ErrorCode) (info0 info1 : Word) : State :=
  { s with
    errCode := code
    errOp := s.snap.cmd.extractLsb' 0 8
    errInfo0 := info0
    errInfo1 := info1
    result0 := 0
    err := true
    done := true
    phase := .idle }

/-- A host access is the next thing to arrive, and nothing held stands before it (20 R75, R76). -/
abbrev arrives (s : State) (a : HostAccess) (rest : List PortEvent) : Prop :=
  s.port = .access a :: rest ∧ (s.phase = .idle → s.held = [])

/-- The engine's command step is next (40 R127): the phase is BUSY and the port gives the engine its turn or has nothing left.
The second state is the one the command runs from. -/
def engineNext (s s' : State) : Prop :=
  s.phase = .busy ∧ ((s.port = [] ∧ s' = s) ∨ ∃ rest, s.port = .engineTurn :: rest ∧ s' = s.withPort rest)

/-- A region of `size` bytes from `base` passes both checks of 40 R124. -/
abbrev fits (base size align : Nat) : Prop := base + size ≤ Config.dmemSize ∧ base % align = 0

/-- Every DMEM byte of a command's `in` regions has been written (70 R346). DEDUCED, log entry 30: of a region that runs past the end
of DMEM, the part inside it, since 95 launches such commands from a clean launch (TE8). -/
def inputsWritten (i : Instr) (a : Args) (m : Mem) : Prop :=
  ∀ rs, commandRegions i a = .ok rs → ∀ r ∈ rs, r.role = .input → ∀ x, inRegion x r → x < Config.dmemSize →
    Mem.readByte m x ≠ none

/-! ### A run of one command (70 R365) -/

/-- A launch (70 R365): a clean launch for the command word `w` (70 R346: nothing in flight or held, the bytes of the command's `in`
regions written), and the host's `CMD` write of `w` the next to arrive. -/
def Launch (s : State) (w : Word) (rest : List PortEvent) : Prop :=
  CleanLaunch s ∧ s.port = .access (.write 0x018 8 w) :: rest ∧ ∀ i, decode w = .ok i → inputsWritten i s.args s.dmem

/-- A soft reset is the next thing to arrive (70 R342). -/
def softResetNext (s : State) : Prop := ∃ v rest, s.port = .access (.write 0x010 8 v) :: rest ∧ v.getLsbD 0 = true

/-- The run from the launch `s` ends after `n` steps in `t`: the first state after the `CMD` write in which the phase is IDLE, with no
soft reset on the way (70 R365: 'unless a reset intervenes'). -/
def RunEnds (s : State) (n : Nat) (t : State) : Prop :=
  0 < n ∧ Sys2Proof.core.run n s = .next t ∧ t.phase = .idle ∧
    ∀ (k : Nat) (u : State), 0 < k → k < n → Sys2Proof.core.run k s = .next u → u.phase = .busy ∧ ¬softResetNext u

/-- The regions of the command of a snapshot; none for an illegal word or a failed parameter check. -/
def snapshotRegions (n : Snapshot) : List Region :=
  match decode n.cmd with
  | .error _ => []
  | .ok i =>
    match commandRegions i n.args with
    | .error _ => []
    | .ok rs => rs

/-- The bytes of the `out` and `scratch` regions of the command of a snapshot; the input of an in-place transform is its `out`
region. A byte never written has no cell. DEDUCED, log entry 30: a command without a region list, or with a region past the end of
DMEM, has the bytes there are. -/
def writtenBytes (n : Snapshot) (m : Mem) : Mem :=
  m.filter (fun c => (snapshotRegions n).any (fun r => r.written && decide (inRegion c.1 r)))

/-- What is observed at the end of a run (70 R365). -/
structure Observation where
  err : Bool
  errCode : Word
  errInfo0 : Word
  errInfo1 : Word
  result0 : Word
  written : Mem
  deriving DecidableEq, Repr

/-- The observation of the state a run ends in (70 R365). -/
def observe (s : State) : Observation :=
  { err := s.err, errCode := s.errCodeWord, errInfo0 := s.errInfo0, errInfo1 := s.errInfo1, result0 := s.result0,
    written := writtenBytes s.snap s.dmem }

/-- An outcome with a change made to the next state. -/
def mapNext (f : State → State) : Host.Outcome State Fault Refusal → Host.Outcome State Fault Refusal
  | .next t => .next (f t)
  | .fault r => .fault r
  | .refused r => .refused r

/-- The distance between two numbers. -/
def offBy (a b : Nat) : Nat := (a - b) + (b - a)

/-- `v` is the pattern whose magnitude is nearest `num / den` units of 2^-1074, and it is even where another pattern is as near
(40 R130), exponents unbounded above. -/
def nearestEven (num den v : Nat) : Prop :=
  ∀ w, offBy (patternUnits v * den) num ≤ offBy (patternUnits w * den) num ∧
    (w ≠ v → offBy (patternUnits w * den) num = offBy (patternUnits v * den) num → v % 2 = 0)

/-! ### What the commands compute, by index -/

/-- Entry `i` of a sequence. -/
def entry (xs : List F64) (i : Nat) : F64 := xs.getD i zero

/-- Entry `i` of a complex sequence. -/
def complexEntry (xs : List Cplx) (i : Nat) : Cplx := xs.getD i (zero, zero)

/-- `ac[lag]` of 42 R190: from `+0.0`, ascending `i`. -/
def lagSum (s : List F64) (lag : Nat) : F64 :=
  (List.range (s.length - lag)).foldl (fun acc i => fadd acc (fmul (entry s i) (entry s (i + lag)))) zero

/-- The coefficients and the energy of order `m` (43 R200): `a[0..m]` by index, and `e[m]`. -/
def lpcOrder (R : List F64) : Nat → (Nat → F64) × F64
  | 0 => (fun _ => one, entry R 0)
  | m + 1 =>
    let prev := (lpcOrder R m).1
    let e := (lpcOrder R m).2
    let acc := (List.range m).foldl (fun acc j => fadd acc (fmul (prev (j + 1)) (entry R (m - j)))) (entry R (m + 1))
    let k := fneg (fdiv acc e)
    (fun j => if j = 0 then one else if j = m + 1 then k else fadd (prev j) (fmul k (prev (m + 1 - j))),
      fmul e (fsub one (fmul k k)))

/-- `a[j]` of order `m` (43 R200). -/
def lpcCoefficient (R : List F64) (m j : Nat) : F64 := (lpcOrder R m).1 j

/-- `e[m]` (43 R200). -/
def lpcEnergy (R : List F64) (m : Nat) : F64 := (lpcOrder R m).2

/-- The energies the recursion to order `p` divides by pass the strict check, and the last one the final check (43 R202). -/
def energiesOk (R : List F64) (p : Nat) : Prop :=
  (∀ j, j < p → isFinite (lpcEnergy R j) = true ∧ flt zero (lpcEnergy R j) = true) ∧
    isFinite (lpcEnergy R p) = true ∧ flt (lpcEnergy R p) zero = false

/-- The recurrence of 43 R210, with the delay line's `+0.0` for outputs before the first (43 R211). `c` holds `c[1..p]`. -/
def iirStep (gain : F64) (c x y : List F64) (i : Nat) : F64 :=
  (List.range c.length).foldl
    (fun acc j => fsub acc (fmul (entry c j) (if j < i then entry y (i - 1 - j) else zero)))
    (fmul gain (entry x i))

/-- `interp(x, n, ratio, i)` of 44 R232, for a signal of `n` entries. -/
def interpolated (x : List F64) (ratio : F64) (i : Nat) : F64 :=
  let pos := fmul (toF64 i) ratio
  let f := (floorI pos).toNat
  let frac := fsub pos (toF64 f)
  fadd (fmul (entry x (min f (x.length - 1))) (fsub one frac)) (fmul (entry x (min (f + 1) (x.length - 1))) frac)

/-- `V[k]` of 45 R251. -/
def logBin (eps : F64) (X : Cplx) : Cplx :=
  (fdiv (Elementary.flog (fadd (fadd (fmul X.1 X.1) (fmul X.2 X.2)) eps)) two, zero)

/-- `dist(v, c)` of 46 R270, in the row-major arrays of features and codewords of dimension `d`. -/
def rowDistance (F CB : List F64) (d v c : Nat) : F64 :=
  (List.range d).foldl
    (fun acc j =>
      fadd acc (fmul (fsub (entry F (v * d + j)) (entry CB (c * d + j))) (fsub (entry F (v * d + j)) (entry CB (c * d + j)))))
    zero

/-- `idx[v]` of 46 R270: codeword 0 first, then the others in ascending order, a later one only when strictly nearer. -/
def nearestRow (F CB : List F64) (K d v : Nat) : Nat :=
  ((List.range (K - 1)).foldl
    (fun best c => if flt (rowDistance F CB d v (c + 1)) best.2 then (c + 1, rowDistance F CB d v (c + 1)) else best)
    (0, rowDistance F CB d v 0)).1

/-! ### The iterative transform (41 R176) -/

/-- `rev`: the `l` low bits of an index reversed. -/
def reverseBits : Nat → Nat → Nat
  | 0, _ => 0
  | l + 1, i => (i % 2) * 2 ^ l + reverseBits l (i / 2)

/-- One butterfly pass at size `m`: position `j + k` of a block and its partner at `j + k + m/2`, both from the old values. -/
def butterflyPass (m : Nat) (a : Nat → Cplx) (i : Nat) : Cplx :=
  let k := i % m
  if k < m / 2 then cadd (a i) (cmul (Elementary.tw k m) (a (i + m / 2)))
  else csub (a (i - m / 2)) (cmul (Elementary.tw (k - m / 2) m) (a i))

/-- The passes at sizes `2, 4, …, 2^l`. -/
def butterflyPasses : Nat → (Nat → Cplx) → Nat → Cplx
  | 0, a => a
  | l + 1, a => butterflyPass (2 ^ (l + 1)) (butterflyPasses l a)

/-- The iterative transform of `2^l` values: bit-reversal placement, then the passes. -/
def iterativeTransform (l : Nat) (x : Nat → Cplx) : Nat → Cplx :=
  butterflyPasses l (fun i => x (reverseBits l i))

end Sys2Proof.Safety
end

