-- ==== Sys2Proof/Certificates/Slice0/Obligations.lean ====
section
/-! DEFINITION. The statements for the provers, in the order of OBLIGATIONS.json. Each docstring names the rule of spec/ it rests on. -/

section

open Sys2Proof Sys2Proof.Machine Sys2Proof.Machine.Float64 Sys2Proof.Safety

/-! ### Encoding -/

/-- The nine rows of the opcode map (30 R95). -/
def Obligations.OpcodeMapDecodes : Prop :=
  decode 0x0000000000000001 = .ok .fft ∧ decode 0x0000000000000101 = .ok .fftR ∧
  decode 0x0000000000000002 = .ok .ifft ∧ decode 0x0000000000000003 = .ok .acorr ∧
  decode 0x0000000000000004 = .ok .levdur ∧ decode 0x0000000000000005 = .ok .iirsyn ∧
  decode 0x0000000000000006 = .ok .resample ∧ decode 0x0000000000000007 = .ok .cepstrum ∧
  decode 0x0000000000000008 = .ok .vqnear

/-- A word decodes to a command exactly when it is that command's word (30 R94, R95, R97). -/
def Obligations.DecodeAcceptsExactlyTheEncodings : Prop :=
  ∀ (w : Word) (i : Instr), decode w = .ok i ↔ w = encode i

/-- The illegal words, and what each does at its command step (30 R93, R97); `ERR_CODE` then reads 6 (60 R300). -/
def Obligations.IllegalWordsFailIllegalCommand : Prop :=
  (∀ w : Word, (∃ e, decode w = .error e) ↔
    (w.extractLsb' 9 55 ≠ 0 ∨ w.extractLsb' 0 8 = 0 ∨ 9 ≤ (w.extractLsb' 0 8).toNat ∨
      (w.extractLsb' 8 1 = 1 ∧ w.extractLsb' 0 8 ≠ 1))) ∧
  ∀ (s s' : State) (e : IllegalWord), engineNext s s' → decode s.snap.cmd = .error e →
    step s = .next (failed s' .illegalCommand s.snap.cmd 0) ∧
      ((failed s' .illegalCommand s.snap.cmd 0).readReg .errCode).extractLsb' 0 8 = 6

/-! ### Reset and views -/

/-- What power-on reset leaves (70 R340), every register at the value of 10 R23's table; and asserting the reset input, from whatever
state, leaves the same (70 R341), for whatever signal `Config.resetSource` names. That no access is held then is the model's reading,
DEDUCED in log entry 3; that no DMEM byte reads as a value is log entry 7. -/
def Obligations.ResetStateValues : Prop :=
  (∀ r : Reg, State.reset.readReg r =
    match r with
    | .id => 0x000000014D585350
    | .cfg => 0x00000000001A4014
    | .cepEps => 0x3DDB7CDFD9D7BDBB
    | _ => 0) ∧
  State.reset.phase = .idle ∧ State.reset.irq = false ∧ (∀ a, Mem.readByte State.reset.dmem a = none) ∧
  ∀ s : State,
    let t := s.platformAsserts Config.resetSource
    (∀ r, t.readReg r = State.reset.readReg r) ∧ t.phase = .idle ∧ t.irq = false ∧ t.held = [] ∧
      ∀ a, Mem.readByte t.dmem a = none

/-- The invariant holds at reset. -/
def Obligations.InvariantAtReset : Prop := Inv State.reset

/-- `ID` and `CFG` never change and hold the fields of 10 R24 and R25. -/
def Obligations.IdAndCfgAreConstant : Prop :=
  ∀ (s : State) (v : Word),
    s.readReg .id = 0x000000014D585350 ∧ s.writeReg .id v = s ∧
    (s.readReg .id).extractLsb' 0 32 = 0x4D585350 ∧ (s.readReg .id).extractLsb' 32 16 = 0x0001 ∧
    (s.readReg .id).extractLsb' 48 16 = 0 ∧
    s.readReg .cfg = 0x00000000001A4014 ∧ s.writeReg .cfg v = s ∧
    ((s.readReg .cfg).extractLsb' 0 8).toNat = Config.maxLog2N ∧
    ((s.readReg .cfg).extractLsb' 8 8).toNat = Config.maxOrder ∧
    2 ^ ((s.readReg .cfg).extractLsb' 16 8).toNat = Config.dmemSize ∧
    (s.readReg .cfg).extractLsb' 24 40 = 0

/-- `STATUS.BUSY` is the phase, `DONE`, `ERR` and `OVR` stand in bits 1 to 3 above it (10 R28), and `irq` is a function of `STATUS` and
`IRQ_EN` (10 R40, R41). -/
def Obligations.BusyBitAndInterruptLevel : Prop :=
  (∀ s : State,
    ((s.readReg .status).getLsbD 0 = true ↔ s.phase = .busy) ∧
    (s.readReg .status).getLsbD 1 = s.done ∧ (s.readReg .status).getLsbD 2 = s.err ∧
    (s.readReg .status).getLsbD 3 = s.ovr ∧ (s.readReg .status).extractLsb' 4 60 = 0 ∧
    s.irq = (((s.readReg .status).getLsbD 1 && (s.readReg .irqEn).getLsbD 0) ||
      ((s.readReg .status).getLsbD 2 && (s.readReg .irqEn).getLsbD 1) ||
      ((s.readReg .status).getLsbD 3 && (s.readReg .irqEn).getLsbD 2))) ∧
  State.reset.phase = .idle ∧ State.reset.irq = false

/-! ### The host port -/

/-- Acceptance (40 R120): any word, legal or not. -/
def Obligations.CommandWordAccepted : Prop :=
  ∀ (s : State) (w : Word) (rest : List PortEvent), s.phase = .idle → arrives s (.write 0x018 8 w) rest →
    step s = .next
      { s with
        cmd := w, snap := { cmd := w, args := s.args }, done := false, err := false, errCode := .none, errOp := 0,
        errInfo0 := 0, errInfo1 := 0, result0 := 0, phase := .busy, port := rest, answers := s.answers ++ [.written] }

/-- A dropped command word (40 R121). -/
def Obligations.CommandWordDropped : Prop :=
  ∀ (s : State) (w : Word) (rest : List PortEvent), s.phase = .busy → arrives s (.write 0x018 8 w) rest →
    step s = .next { s with ovr := true, port := rest, answers := s.answers ++ [.written] }

/-- A write to `STATUS` (10 R28), while IDLE or BUSY: nothing but the cleared fields changes. -/
def Obligations.StatusWriteClearsWrittenOnes : Prop :=
  ∀ (s : State) (v : Word) (rest : List PortEvent), arrives s (.write 0x020 8 v) rest →
    ∃ t, step s = .next t ∧
      t = { s with done := t.done, err := t.err, ovr := t.ovr, port := rest, answers := s.answers ++ [.written] } ∧
      (t.done = true ↔ s.done = true ∧ v.getLsbD 1 = false) ∧
      (t.err = true ↔ s.err = true ∧ v.getLsbD 2 = false) ∧
      (t.ovr = true ↔ s.ovr = true ∧ v.getLsbD 3 = false)

/-- A write to `IRQ_EN` (10 R29): three bits are stored and enable the interrupt's causes. -/
def Obligations.InterruptEnableStoresThreeBits : Prop :=
  State.reset.readReg .irqEn = 0 ∧
  ∀ (s : State) (v : Word) (rest : List PortEvent), arrives s (.write 0x028 8 v) rest →
    ∃ t, step s = .next t ∧ t.readReg .irqEn = v &&& 7 ∧
      t = { s with
        doneIe := t.doneIe, errIe := t.errIe, ovrIe := t.ovrIe, port := rest, answers := s.answers ++ [.written] } ∧
      t.irq = ((s.done && v.getLsbD 0) || (s.err && v.getLsbD 1) || (s.ovr && v.getLsbD 2))

/-- Every argument register stores all 64 bits written, at once, while IDLE or BUSY, and nothing else changes (10 R33 to R38). -/
def Obligations.ArgumentRegisterHoldsWrittenWord : Prop :=
  ∀ r ∈ [Reg.src0, .src1, .dst0, .dst1, .scr, .len0, .len1, .len2, .len3, .fp0, .fp1, .cepEps],
    State.reset.readReg r = (if r = .cepEps then 0x3DDB7CDFD9D7BDBB else 0) ∧
    ∀ (s : State) (v : Word) (rest : List PortEvent), arrives s (.write (registerOffset r) 8 v) rest →
      ∃ t, step s = .next t ∧ t.readReg r = v ∧ (∀ r', r' ≠ r → t.readReg r' = s.readReg r') ∧
        t = { s with args := t.args, port := rest, answers := s.answers ++ [.written] }

/-- What the argument registers hold while a command runs has no part in it (70 R353, 10 R45): writing one changes no snapshot, and
a command step on other argument registers is the same but for them. -/
def Obligations.RunningCommandIgnoresArgumentRegisters : Prop :=
  (∀ r ∈ [Reg.src0, .src1, .dst0, .dst1, .scr, .len0, .len1, .len2, .len3, .fp0, .fp1, .cepEps],
    ∀ (s : State) (v : Word) (rest : List PortEvent), s.phase = .busy → arrives s (.write (registerOffset r) 8 v) rest →
      ∃ a', step s = .next { s with args := a', port := rest, answers := s.answers ++ [.written] }) ∧
  ∀ (i : Instr) (s : State) (a' : Args),
    exec i { s with args := a' } = mapNext (fun t => { t with args := a' }) (exec i s)

/-- Reserved offsets read as zero and ignore writes (10 R39). -/
def Obligations.ReservedOffsetsReadZero : Prop :=
  ∀ (s : State) (off : Nat) (v : Word) (rest : List PortEvent), off % 8 = 0 →
    (0x050 ≤ off ∧ off ≤ 0x078 ∨ 0x0E0 ≤ off ∧ off ≤ 0xFF8) →
    (arrives s (.read (BitVec.ofNat 27 off) 8) rest →
      step s = .next { s with port := rest, answers := s.answers ++ [.data 0] }) ∧
    (arrives s (.write (BitVec.ofNat 27 off) 8 v) rest →
      step s = .next { s with port := rest, answers := s.answers ++ [.written] })

/-- A write to a read-only register is ignored (10 R23). -/
def Obligations.ReadOnlyRegistersIgnoreWrites : Prop :=
  ∀ r ∈ [Reg.id, .cfg, .errCode, .errInfo0, .errInfo1, .result0],
    ∀ (s : State) (v : Word) (rest : List PortEvent), arrives s (.write (registerOffset r) 8 v) rest →
      step s = .next { s with port := rest, answers := s.answers ++ [.written] }

/-- The three kinds of bus error (60 R304): an unmapped offset, a register access that is not an aligned 8-byte access, a malformed
DMEM access (one that is not held). Nothing of the engine changes. -/
def Obligations.BusErrorsChangeNothing : Prop :=
  ∀ (s : State) (a : HostAccess) (rest : List PortEvent), arrives s a rest →
    (0x1000 ≤ a.offset.toNat ∧ a.offset.toNat < 0x04000000 ∨
      a.offset.toNat < 0x1000 ∧ ¬(a.width = 8 ∧ a.offset.toNat % 8 = 0) ∨
      0x04000000 ≤ a.offset.toNat ∧ s.phase = .idle ∧
        ¬((a.width = 1 ∨ a.width = 2 ∨ a.width = 4 ∨ a.width = 8) ∧ a.offset.toNat % a.width = 0)) →
    step s = .next { s with port := rest, answers := s.answers ++ [.busError] }

/-- A host read changes nothing but the list of answers (20 R68), whatever it reads; and an 8-byte read at the offset of a register
(10 R23's table, as literals) answers the value of that register, while IDLE or BUSY. `CTRL` reads as zero, and `CMD`, the error information, `RESULT0` and the
argument registers read as the state holds them; the other registers have statements of their own. -/
def Obligations.HostReadsHaveNoSideEffect : Prop :=
  (∀ (s t : State) (off : BitVec 27) (w : Nat) (rest : List PortEvent), arrives s (.read off w) rest →
    ¬(s.phase = .busy ∧ (HostAccess.read off w).toDmem = true) → step s = .next t →
    ∃ r, t = { s with port := rest, answers := s.answers ++ [r] }) ∧
  (∀ (s : State) (r : Reg) (rest : List PortEvent), arrives s (.read (registerOffset r) 8) rest →
    step s = .next { s with port := rest, answers := s.answers ++ [.data (s.readReg r)] }) ∧
  ∀ s : State,
    s.readReg .ctrl = 0 ∧ s.readReg .cmd = s.cmd ∧ s.readReg .errInfo0 = s.errInfo0 ∧ s.readReg .errInfo1 = s.errInfo1 ∧
    s.readReg .result0 = s.result0 ∧ s.readReg .src0 = s.args.src0 ∧ s.readReg .src1 = s.args.src1 ∧
    s.readReg .dst0 = s.args.dst0 ∧ s.readReg .dst1 = s.args.dst1 ∧ s.readReg .scr = s.args.scr ∧
    s.readReg .len0 = s.args.len0 ∧ s.readReg .len1 = s.args.len1 ∧ s.readReg .len2 = s.args.len2 ∧
    s.readReg .len3 = s.args.len3 ∧ s.readReg .fp0 = s.args.fp0 ∧ s.readReg .fp1 = s.args.fp1 ∧
    s.readReg .cepEps = s.args.cepEps

/-- A host store to DMEM and a load of the same bytes (20 R61, R66): both complete, the load gives the value, no other byte and no
register changes. -/
def Obligations.DmemLoadReturnsStoredValue : Prop :=
  ∀ (s : State) (a w : Nat) (v : Word) (rest : List PortEvent), s.phase = .idle →
    (w = 1 ∨ w = 2 ∨ w = 4 ∨ w = 8) → a % w = 0 → a < Config.dmemSize →
    arrives s (.write (dmemOffsetOf a) w v) (.access (.read (dmemOffsetOf a) w) :: rest) →
    ∃ t u, step s = .next t ∧ step t = .next u ∧
      u = { s with dmem := u.dmem, port := rest, answers := u.answers } ∧
      u.answers = s.answers ++ [.written, .data (BitVec.ofNat 64 (v.toNat % 256 ^ w))] ∧
      ∀ x, (x < a ∨ a + w ≤ x) → Mem.readByte u.dmem x = Mem.readByte s.dmem x

/-- Two 4-byte stores or eight 1-byte stores make the same bytes, and the same double, as one 8-byte store (20 R63). And the layouts of
20 R62: element `i` of a sequence of reals at `base + 8i`, of complex values at `base + 16i` with the imaginary part 8 bytes
above the real part, of indices at `base + 4i`, each little-endian, as they are stored and as they are loaded. -/
def Obligations.NarrowStoresMakeTheSameDouble : Prop :=
  (∀ (m : Mem) (base i : Nat) (xs : List F64), i < xs.length →
    loadF (Mem.writeBytes m base (realBytes xs)) (base + 8 * i) = some (entry xs i)) ∧
  (∀ (m : Mem) (base i : Nat) (xs : List Cplx), i < xs.length →
    loadF (Mem.writeBytes m base (complexBytes xs)) (base + 16 * i) = some (complexEntry xs i).1 ∧
    loadF (Mem.writeBytes m base (complexBytes xs)) (base + 16 * i + 8) = some (complexEntry xs i).2) ∧
  (∀ (m : Mem) (base i : Nat) (is : List Nat), i < is.length →
    Mem.read (Mem.writeBytes m base (indexBytes is)) (base + 4 * i) 4 = some (is.getD i 0 % 2 ^ 32)) ∧
  (∀ (m : Mem) (base n : Nat) (xs : List F64), loadReals m base n = some xs ↔
    xs.length = n ∧ ∀ i, i < n → loadF m (base + 8 * i) = some (entry xs i)) ∧
  (∀ (m : Mem) (base n : Nat) (xs : List Cplx), loadComplexes m base n = some xs ↔
    xs.length = n ∧ ∀ i, i < n → loadF m (base + 16 * i) = some (complexEntry xs i).1 ∧
      loadF m (base + 16 * i + 8) = some (complexEntry xs i).2) ∧
  ∀ (m : Mem) (a : Nat) (v : Word),
    let whole := Mem.write m a 8 v.toNat
    let halves := Mem.write (Mem.write m a 4 v.toNat) (a + 4) 4 (v.toNat / 2 ^ 32)
    let bytes := (List.range 8).foldl (fun m' j => Mem.write m' (a + j) 1 (v.toNat / 256 ^ j)) m
    (∀ x, Mem.readByte halves x = Mem.readByte whole x ∧ Mem.readByte bytes x = Mem.readByte whole x) ∧
    loadF whole a = some v ∧ loadF halves a = some v ∧ loadF bytes a = some v ∧
    Mem.read whole a 4 = some (v.extractLsb' 0 32).toNat

/-- The host hold (20 R76): a DMEM access that arrives while BUSY is neither performed nor answered; other accesses are not held;
in IDLE the held ones come first, the oldest first. -/
def Obligations.DmemAccessesAreHeldWhileBusy : Prop :=
  (∀ (s : State) (a : HostAccess) (rest : List PortEvent), s.phase = .busy → s.port = .access a :: rest →
    (0x04000000 ≤ a.offset.toNat → step s = .next { s with port := rest, held := s.held ++ [a] }) ∧
    (a.offset.toNat < 0x04000000 → step s = performAccess { s with port := rest } a)) ∧
  ∀ (s : State) (a : HostAccess) (later : List HostAccess), s.phase = .idle → s.held = a :: later →
    step s = performAccess { s with held := later } a

/-- A host read of an aligned run of bytes, one of them never written, is a fault of the run (70 R340). -/
def Obligations.UnwrittenHostReadFaults : Prop :=
  ∀ (s : State) (a w x : Nat) (rest : List PortEvent), s.phase = .idle →
    (w = 1 ∨ w = 2 ∨ w = 4 ∨ w = 8) → a % w = 0 → a < Config.dmemSize →
    arrives s (.read (dmemOffsetOf a) w) rest → a ≤ x → x < a + w → Mem.readByte s.dmem x = none →
    step s = .fault .unwrittenRead

/-- Soft reset (70 R342, R343). The bytes a command would have written become the free value `Config.abortByte`, of which
nothing is known (log entry 8). That the next step performs the oldest held access, before any later arrival, is deduced from 20 R75
and R76 (log entry 3). -/
def Obligations.SoftResetReinitialises : Prop :=
  ∀ (s : State) (v : Word) (rest : List PortEvent), v.getLsbD 0 = true → arrives s (.write 0x010 8 v) rest →
    ∃ t, step s = .next t ∧
      (∀ r, t.readReg r = State.reset.readReg r) ∧ t.phase = .idle ∧ t.done = false ∧ t.irq = false ∧
      (s.phase = .idle → t.dmem = s.dmem) ∧
      (s.phase = .busy →
        (∀ i rs, decode s.snap.cmd = .ok i → checkCommand i s.snap.args = .ok rs →
          ∀ x, ((∃ r ∈ rs, r.written = true ∧ inRegion x r) →
              Mem.readByte t.dmem x = some (Config.abortByte s.draws x)) ∧
            ((¬∃ r ∈ rs, r.written = true ∧ inRegion x r) → Mem.readByte t.dmem x = Mem.readByte s.dmem x)) ∧
        ((¬∃ i rs, decode s.snap.cmd = .ok i ∧ checkCommand i s.snap.args = .ok rs) → t.dmem = s.dmem)) ∧
      t.held = s.held ∧ t.port = rest ∧
      ∀ a later, t.held = a :: later → step t = performAccess { t with held := later } a

/-- `CTRL` always reads as zero, and a write with bit 0 clear does nothing (10 R26). -/
def Obligations.ControlWithoutResetBitDoesNothing : Prop :=
  ∀ (s : State) (v : Word) (rest : List PortEvent),
    (arrives s (.read 0x010 8) rest → step s = .next { s with port := rest, answers := s.answers ++ [.data 0] }) ∧
    (v.getLsbD 0 = false → arrives s (.write 0x010 8 v) rest →
      step s = .next { s with port := rest, answers := s.answers ++ [.written] })

/-! ### The life of a command -/

/-- A step runs the decoded command (40 R123, R127): with nothing left at the port or the engine's turn next, the step is `exec`
of the decoded command, on the state whose turn is used up. And acceptance leads to it, for a word placed by `withFetchWord`
too. -/
def Obligations.StepRunsTheDecodedCommand : Prop :=
  (∀ (s s' : State) (i : Instr), engineNext s s' → decode s.snap.cmd = .ok i → step s = exec i s') ∧
  (∀ (s : State) (i : Instr), step (s.withFetchWord 64 (encode i).toNat) = exec i (s.accept (encode i))) ∧
  ∀ (s : State) (i : Instr) (rest : List PortEvent), s.phase = .idle →
    arrives s (.write 0x018 8 (encode i)) (.engineTurn :: rest) →
    ∃ t, step s = .next t ∧ t.snap = { cmd := encode i, args := s.args } ∧ step t = exec i { t with port := rest }

/-- Failure (40 R128): everything a failing command leaves, DMEM among what it does not change; and `ERR_CODE` as it then reads, with
the numbers of 60 R300 in bits 7:0 and the operation in bits 15:8 (10 R30). -/
def Obligations.FailedCommandReportsItsError : Prop :=
  ∀ (i : Instr) (s t : State), s.err = false → exec i s = .next t → t.err = true →
    ∃ (code : ErrorCode) (info0 info1 result : Word), code ≠ .none ∧
      (result = 0 ∨ i = .resample ∧ code = .invalidRange ∧ info0 = 0x0B0 ∧ info1 = result) ∧
      t = { s with
        errCode := code, errOp := s.snap.cmd.extractLsb' 0 8, errInfo0 := info0, errInfo1 := info1, result0 := result,
        err := true, done := true, phase := .idle } ∧
      ((t.readReg .errCode).extractLsb' 0 8).toNat =
        (match code with
        | .none => 0
        | .invalidLength => 1
        | .invalidRange => 2
        | .numericalBreakdown => 3
        | .dimensionMismatch => 4
        | .emptyInput => 5
        | .illegalCommand => 6
        | .addressRange => 7
        | .misaligned => 8
        | .overlap => 9) ∧
      (t.readReg .errCode).extractLsb' 8 8 = s.snap.cmd.extractLsb' 0 8 ∧ (t.readReg .errCode).extractLsb' 16 48 = 0

/-- The frame of every command (40 R126, R129, 10 R46): the host's registers, the snapshot and the port stay; a success changes no
error register; every byte outside the command's `out` and `scratch` regions stays. -/
def Obligations.CommandWritesOnlyItsRegions : Prop :=
  ∀ (i : Instr) (s t : State), exec i s = .next t →
    sameControl s t ∧ t.phase = .idle ∧ t.done = true ∧
    (s.err = false → t.err = false →
      t.errCode = s.errCode ∧ t.errOp = s.errOp ∧ t.errInfo0 = s.errInfo0 ∧ t.errInfo1 = s.errInfo1) ∧
    ∀ x, ¬mayWrite i s.snap.args x → Mem.readByte t.dmem x = Mem.readByte s.dmem x

/-- A command preserves its `in` regions, but for the in-place transforms (40 R126). -/
def Obligations.CommandPreservesItsInputs : Prop :=
  ∀ (i : Instr) (s t : State) (rs : List Region) (r : Region) (x : Nat),
    exec i s = .next t → commandRegions i s.snap.args = .ok rs → r ∈ rs → r.role = .input → inRegion x r →
    ¬((i = .fft ∨ i = .ifft) ∧ s.snap.args.dst0 = s.snap.args.src0) →
    Mem.readByte t.dmem x = Mem.readByte s.dmem x

/-- A command step faults exactly when the command passes its checks and a byte it reads was never written (70 R340); `coeffs[0]` of
`IIRSYN` is not read (43 R210). -/
def Obligations.CommandFaultsExactlyOnUnwrittenInput : Prop :=
  ∀ (i : Instr) (s : State),
    exec i s = .fault .unwrittenRead ↔
      ∃ rs, checkCommand i s.snap.args = .ok rs ∧ ∃ r ∈ rs, r.role = .input ∧ ∃ x, inRegion x r ∧
        Mem.readByte s.dmem x = none ∧ ¬(i = .iirsyn ∧ r.index = 1 ∧ x < r.base + 8)

/-- The end of a run (70 R365). However the accesses fall between, a run from a launch ends with `DONE` set and no DMEM byte changed
outside the command's `out` and `scratch` regions, whose bytes are the ones observed; and with the engine's turn the next event it does end, in the step after the acceptance (40 R127),
the argument registers as they were. -/
def Obligations.CleanLaunchCompletes : Prop :=
  ∀ (s : State) (w : Word) (rest : List PortEvent), Launch s w rest →
    (∀ n t, RunEnds s n t → t.done = true ∧ t.snap = { cmd := w, args := s.args } ∧
      (∀ x, (∀ i, decode w = .ok i → ¬mayWrite i s.args x) → Mem.readByte t.dmem x = Mem.readByte s.dmem x ∧
        Mem.readByte (observe t).written x = none) ∧
      ∀ x i, decode w = .ok i → mayWrite i s.args x → Mem.readByte (observe t).written x = Mem.readByte t.dmem x) ∧
    ∀ later, rest = .engineTurn :: later →
      ∃ u t, step s = .next u ∧ u.phase = .busy ∧ step u = .next t ∧ RunEnds s 2 t ∧ t.args = s.args

/-- BUSY ends in `DONE`, or by a soft reset (40 R127, 70 R343). -/
def Obligations.BusyEndsInDoneOrSoftReset : Prop :=
  ∀ s t : State, s.phase = .busy → step s = .next t → t.phase = .idle →
    t.done = true ∨ ∃ v rest, s.port = .access (.write 0x010 8 v) :: rest ∧ v.getLsbD 0 = true

/-- BUSY ends (40 R127, 20 R76): within as many steps as there are arrivals still to come, and one more, the phase is IDLE, or the run
has faulted on an unwritten byte. -/
def Obligations.BusyAlwaysEnds : Prop :=
  ∀ s : State, s.phase = .busy →
    ∃ n, n ≤ s.port.length + 1 ∧
      (Sys2Proof.core.run n s = .fault Fault.unwrittenRead ∨
        ∃ t : State, Sys2Proof.core.run n s = .next t ∧ t.phase = .idle)

/-- Every step keeps the invariant (Safety.lean, `Inv`). -/
def Obligations.StepKeepsInvariant : Prop := ∀ s t : State, Inv s → step s = .next t → Inv t

/-! ### Checks -/

/-- Region checks (40 R124): regions come in ascending index, and the first that fails is reported, range before alignment. -/
def Obligations.FirstBadRegionIsReported : Prop :=
  ∀ (i : Instr) (s : State) (pre post : List Region) (r : Region),
    commandRegions i s.snap.args = .ok (pre ++ r :: post) →
    (pre ++ r :: post).Pairwise (fun p q => p.index < q.index) ∧
    ((∀ p ∈ pre, regionOk p) →
      (Config.dmemSize < r.base + r.size →
        exec i s = .next (failed s .addressRange (BitVec.ofNat 64 r.index) (BitVec.ofNat 64 r.base))) ∧
      (r.base + r.size ≤ Config.dmemSize → r.base % r.align ≠ 0 →
        exec i s = .next (failed s .misaligned (BitVec.ofNat 64 r.index) (BitVec.ofNat 64 r.base))))

/-- The overlap check (40 R125): the first forbidden pair, ascending in the lower and then in the higher index, is reported; with no
forbidden pair the check passes. -/
def Obligations.FirstOverlapIsReported : Prop :=
  (∀ (i : Instr) (s : State) (pre mid post : List Region) (p q : Region),
    commandRegions i s.snap.args = .ok (pre ++ p :: (mid ++ q :: post)) →
    (∀ r ∈ pre ++ p :: (mid ++ q :: post), regionOk r) →
    (pre ++ p :: (mid ++ q :: post)).Pairwise (fun a b => a ∈ pre → ¬forbidden i a b) →
    (∀ b ∈ mid, ¬forbidden i p b) → forbidden i p q →
    p.index < q.index ∧ exec i s = .next (failed s .overlap (BitVec.ofNat 64 p.index) (BitVec.ofNat 64 q.index))) ∧
  ∀ (i : Instr) (a : Args) (rs : List Region),
    commandRegions i a = .ok rs → (∀ r ∈ rs, regionOk r) → rs.Pairwise (fun p q => ¬forbidden i p q) →
    checkCommand i a = .ok rs

/-- `check_len` (41 R175), of the three transforms, before any other check; and their regions when it passes (41 R170 to R172). -/
def Obligations.TransformLengthIsChecked : Prop :=
  ∀ i ∈ [Instr.fft, .fftR, .ifft], ∀ s : State,
    let N := s.snap.args.len0.toNat
    ((N = 0 ∨ N &&& (N - 1) ≠ 0 ∨ 2 ^ 20 < N) →
      exec i s = .next (failed s .invalidLength 0x0A8 s.snap.args.len0)) ∧
    (¬(N = 0 ∨ N &&& (N - 1) ≠ 0 ∨ 2 ^ 20 < N) ↔ ∃ l, l ≤ 20 ∧ N = 2 ^ l) ∧
    (¬(N = 0 ∨ N &&& (N - 1) ≠ 0 ∨ 2 ^ 20 < N) →
      commandRegions i s.snap.args =
        .ok [⟨0, s.snap.args.src0.toNat, if i = .fftR then 8 * N else 16 * N, 8, .input⟩,
             ⟨2, s.snap.args.dst0.toNat, 16 * N, 8, .output⟩])

/-- The parameter checks of `ACORR`, `LEVDUR` and `IIRSYN`, in their order, and the regions when they pass (42 R190, 43 R200, R210). -/
def Obligations.SignalAndOrderAreChecked : Prop :=
  ∀ s : State,
    let a := s.snap.args
    let n := a.len0.toNat
    let p := a.len1.toNat
    (if n = 0 then exec .acorr s = .next (failed s .emptyInput 0x0A8 0)
      else commandRegions .acorr a = .ok [⟨0, a.src0.toNat, 8 * n, 8, .input⟩, ⟨2, a.dst0.toNat, 8 * n, 8, .output⟩]) ∧
    (if n = 0 then exec .levdur s = .next (failed s .emptyInput 0x0A8 0)
      else if 64 < p then exec .levdur s = .next (failed s .invalidRange 0x0B0 a.len1)
      else if n < p + 1 then exec .levdur s = .next (failed s .invalidRange 0x0A8 a.len0)
      else commandRegions .levdur a =
        .ok [⟨0, a.src0.toNat, 8 * (p + 1), 8, .input⟩, ⟨2, a.dst0.toNat, 8 * (p + 1), 8, .output⟩,
             ⟨3, a.dst1.toNat, 8 * (p + 1), 8, .output⟩]) ∧
    (if n = 0 then exec .iirsyn s = .next (failed s .emptyInput 0x0A8 0)
      else if 64 < p then exec .iirsyn s = .next (failed s .invalidRange 0x0B0 a.len1)
      else commandRegions .iirsyn a =
        .ok [⟨0, a.src0.toNat, 8 * n, 8, .input⟩, ⟨1, a.src1.toNat, 8 * (p + 1), 8, .input⟩,
             ⟨2, a.dst0.toNat, 8 * n, 8, .output⟩])

/-- `resample_len` (44 R231): the checks in their order, and the length of the output region when all pass. -/
def Obligations.ResampleLengthIsChecked : Prop :=
  ∀ s : State,
    let a := s.snap.args
    let n := a.len0.toNat
    let ratio := fdiv a.fp0 a.fp1
    let q := fdiv (toF64 n) ratio
    let L := (ceilI q).toNat
    let Ls : Word := BitVec.ofNat 64 (min L (2 ^ 64 - 1))
    if n = 0 then exec .resample s = .next (failed s .emptyInput 0x0A8 0)
    else if ¬(isFinite a.fp0 ∧ flt zero a.fp0) then exec .resample s = .next (failed s .invalidRange 0x0C8 a.fp0)
    else if ¬(isFinite a.fp1 ∧ flt zero a.fp1) then exec .resample s = .next (failed s .invalidRange 0x0D0 a.fp1)
    else if ¬(isFinite ratio ∧ flt zero ratio) then exec .resample s = .next (failed s .invalidRange 0x0C8 ratio)
    else if ¬isFinite q then exec .resample s = .next (failed s .invalidRange 0x0C8 q)
    else 1 ≤ L ∧
      if a.len1.toNat < L then
        exec .resample s = .next { failed s .invalidRange 0x0B0 Ls with result0 := Ls }
      else
        commandRegions .resample a =
          .ok [⟨0, a.src0.toNat, 8 * n, 8, .input⟩, ⟨2, a.dst0.toNat, 8 * L, 8, .output⟩]

/-- The parameter checks of `CEPSTRUM`, in their order, and the regions when they pass (45 R250, R254). -/
def Obligations.CepstrumParametersAreChecked : Prop :=
  ∀ s : State,
    let a := s.snap.args
    let N := a.len0.toNat
    let nc := a.len1.toNat
    if N = 0 then exec .cepstrum s = .next (failed s .emptyInput 0x0A8 0)
    else if ¬∃ l, l ≤ 20 ∧ N = 2 ^ l then exec .cepstrum s = .next (failed s .invalidLength 0x0A8 a.len0)
    else if nc = 0 ∨ N < nc then exec .cepstrum s = .next (failed s .invalidRange 0x0B0 a.len1)
    else
      commandRegions .cepstrum a =
        .ok [⟨0, a.src0.toNat, 8 * N, 8, .input⟩, ⟨2, a.dst0.toNat, 8 * nc, 8, .output⟩,
             ⟨4, a.scr.toNat, 16 * N, 8, .scratch⟩]

/-- The parameter checks of `VQNEAR`, in their order, and the regions when they pass (46 R270, R273). -/
def Obligations.QuantizerParametersAreChecked : Prop :=
  ∀ s : State,
    let a := s.snap.args
    if a.len0 = 0 then exec .vqnear s = .next (failed s .emptyInput 0x0A8 0)
    else if a.len1 = 0 then exec .vqnear s = .next (failed s .emptyInput 0x0B0 0)
    else if a.len2 = 0 then exec .vqnear s = .next (failed s .emptyInput 0x0B8 0)
    else if a.len3 = 0 then exec .vqnear s = .next (failed s .emptyInput 0x0C0 0)
    else if a.len2 ≠ a.len3 then exec .vqnear s = .next (failed s .dimensionMismatch a.len2 a.len3)
    else if 2 ^ 32 < a.len1.toNat then exec .vqnear s = .next (failed s .invalidRange 0x0B0 a.len1)
    else
      commandRegions .vqnear a =
        .ok [⟨0, a.src0.toNat, 8 * (a.len0.toNat * a.len2.toNat), 8, .input⟩,
             ⟨1, a.src1.toNat, 8 * (a.len1.toNat * a.len2.toNat), 8, .input⟩,
             ⟨2, a.dst0.toNat, 4 * a.len0.toNat, 4, .output⟩]

/-! ### What each command computes, and that it completes -/

/-- `FFT` (41 R170), in place or out of place. -/
def Obligations.FftStoresTheTransform : Prop :=
  ∀ (s : State) (l : Nat) (xs : List Cplx),
    let a := s.snap.args
    l ≤ 20 → a.len0.toNat = 2 ^ l → fits a.src0.toNat (16 * 2 ^ l) 8 → fits a.dst0.toNat (16 * 2 ^ l) 8 →
    (a.dst0 = a.src0 ∨ disjoint a.src0.toNat (16 * 2 ^ l) a.dst0.toNat (16 * 2 ^ l)) →
    loadComplexes s.dmem a.src0.toNat (2 ^ l) = some xs →
    exec .fft s =
        .next (succeeded s (Mem.writeBytes s.dmem a.dst0.toNat (complexBytes (fftCore xs))) (2 ^ l)) ∧
      (fftCore xs).length = 2 ^ l

/-- `FFT.R` (41 R171): each sample with the imaginary part `+0.0`. -/
def Obligations.RealFftStoresTheTransform : Prop :=
  ∀ (s : State) (l : Nat) (xs : List F64),
    let a := s.snap.args
    l ≤ 20 → a.len0.toNat = 2 ^ l → fits a.src0.toNat (8 * 2 ^ l) 8 → fits a.dst0.toNat (16 * 2 ^ l) 8 →
    disjoint a.src0.toNat (8 * 2 ^ l) a.dst0.toNat (16 * 2 ^ l) →
    loadReals s.dmem a.src0.toNat (2 ^ l) = some xs →
    exec .fftR s =
      .next (succeeded s
        (Mem.writeBytes s.dmem a.dst0.toNat (complexBytes (fftCore (xs.map (fun x => (x, zero)))))) (2 ^ l))

/-- `IFFT` (41 R172): conjugate, transform, conjugate, scale by `fdiv(1.0, toF64(N))`. -/
def Obligations.IfftStoresTheInverse : Prop :=
  ∀ (s : State) (l : Nat) (xs : List Cplx),
    let a := s.snap.args
    let y := fftCore (xs.map conj)
    let ys := (List.range (2 ^ l)).map (fun k => cscale (conj (complexEntry y k)) (fdiv one (toF64 (2 ^ l))))
    l ≤ 20 → a.len0.toNat = 2 ^ l → fits a.src0.toNat (16 * 2 ^ l) 8 → fits a.dst0.toNat (16 * 2 ^ l) 8 →
    (a.dst0 = a.src0 ∨ disjoint a.src0.toNat (16 * 2 ^ l) a.dst0.toNat (16 * 2 ^ l)) →
    loadComplexes s.dmem a.src0.toNat (2 ^ l) = some xs →
    exec .ifft s = .next (succeeded s (Mem.writeBytes s.dmem a.dst0.toNat (complexBytes ys)) (2 ^ l))

/-- `ACORR` (42 R190 to R192): every lag, each sum from `+0.0` over ascending `i`. -/
def Obligations.AcorrStoresEveryLagSum : Prop :=
  ∀ (s : State) (xs : List F64),
    let a := s.snap.args
    let n := a.len0.toNat
    n ≠ 0 → fits a.src0.toNat (8 * n) 8 → fits a.dst0.toNat (8 * n) 8 →
    disjoint a.src0.toNat (8 * n) a.dst0.toNat (8 * n) → loadReals s.dmem a.src0.toNat n = some xs →
    exec .acorr s =
      .next (succeeded s (Mem.writeBytes s.dmem a.dst0.toNat (realBytes ((List.range n).map (lagSum xs)))) n)

/-- `LEVDUR` that succeeds (43 R200, R202, R203). -/
def Obligations.LevdurStoresCoefficientsAndEnergies : Prop :=
  ∀ (s : State) (R : List F64),
    let a := s.snap.args
    let p := a.len1.toNat
    let k := 8 * (p + 1)
    p ≤ 64 → p + 1 ≤ a.len0.toNat → fits a.src0.toNat k 8 → fits a.dst0.toNat k 8 → fits a.dst1.toNat k 8 →
    disjoint a.src0.toNat k a.dst0.toNat k → disjoint a.src0.toNat k a.dst1.toNat k →
    disjoint a.dst0.toNat k a.dst1.toNat k → loadReals s.dmem a.src0.toNat (p + 1) = some R → energiesOk R p →
    exec .levdur s =
      .next (succeeded s
        (Mem.writeBytes
          (Mem.writeBytes s.dmem a.dst0.toNat (realBytes ((List.range (p + 1)).map (lpcCoefficient R p))))
          a.dst1.toNat (realBytes ((List.range (p + 1)).map (lpcEnergy R))))
        (p + 1))

/-- `LEVDUR` that breaks down (43 R202): at the lowest order whose energy fails its check, strict below the requested order and
final at it. -/
def Obligations.LevdurReportsBreakdown : Prop :=
  ∀ (s : State) (R : List F64) (j : Nat),
    let a := s.snap.args
    let p := a.len1.toNat
    let k := 8 * (p + 1)
    p ≤ 64 → p + 1 ≤ a.len0.toNat → fits a.src0.toNat k 8 → fits a.dst0.toNat k 8 → fits a.dst1.toNat k 8 →
    disjoint a.src0.toNat k a.dst0.toNat k → disjoint a.src0.toNat k a.dst1.toNat k →
    disjoint a.dst0.toNat k a.dst1.toNat k → loadReals s.dmem a.src0.toNat (p + 1) = some R →
    j ≤ p → (∀ h, h < j → isFinite (lpcEnergy R h) = true ∧ flt zero (lpcEnergy R h) = true) →
    (isFinite (lpcEnergy R j) = false ∨ (if j < p then fle (lpcEnergy R j) zero else flt (lpcEnergy R j) zero) = true) →
    exec .levdur s = .next (failed s .numericalBreakdown (BitVec.ofNat 64 j) (lpcEnergy R j))

/-- `IIRSYN` (43 R210, R211): the outputs are those of the recurrence. -/
def Obligations.IirsynStoresTheRecurrence : Prop :=
  ∀ (s : State) (xs cs : List F64),
    let a := s.snap.args
    let n := a.len0.toNat
    let p := a.len1.toNat
    n ≠ 0 → p ≤ 64 → fits a.src0.toNat (8 * n) 8 → fits a.src1.toNat (8 * (p + 1)) 8 → fits a.dst0.toNat (8 * n) 8 →
    disjoint a.src0.toNat (8 * n) a.dst0.toNat (8 * n) → disjoint a.src1.toNat (8 * (p + 1)) a.dst0.toNat (8 * n) →
    loadReals s.dmem a.src0.toNat n = some xs → loadReals s.dmem (a.src1.toNat + 8) p = some cs →
    ∃ ys : List F64, ys.length = n ∧ (∀ i, i < n → entry ys i = iirStep a.fp0 cs xs ys i) ∧
      exec .iirsyn s = .next (succeeded s (Mem.writeBytes s.dmem a.dst0.toNat (realBytes ys)) n)

/-- `RESAMPLE` that passes its checks (44 R230, R232). -/
def Obligations.ResampleStoresTheInterpolation : Prop :=
  ∀ (s : State) (xs : List F64),
    let a := s.snap.args
    let n := a.len0.toNat
    let ratio := fdiv a.fp0 a.fp1
    let q := fdiv (toF64 n) ratio
    let L := (ceilI q).toNat
    n ≠ 0 → (isFinite a.fp0 ∧ flt zero a.fp0) → (isFinite a.fp1 ∧ flt zero a.fp1) →
    (isFinite ratio ∧ flt zero ratio) → isFinite q → L ≤ a.len1.toNat →
    fits a.src0.toNat (8 * n) 8 → fits a.dst0.toNat (8 * L) 8 →
    disjoint a.src0.toNat (8 * n) a.dst0.toNat (8 * L) → loadReals s.dmem a.src0.toNat n = some xs →
    exec .resample s =
      .next (succeeded s
        (Mem.writeBytes s.dmem a.dst0.toNat (realBytes ((List.range L).map (interpolated xs ratio)))) L)

/-- `CEPSTRUM` (45 R250 to R252): the work region holds the whole complex result, the output its first real parts. -/
def Obligations.CepstrumStoresBothRegions : Prop :=
  ∀ (s : State) (l : Nat) (xs : List F64),
    let a := s.snap.args
    let nc := a.len1.toNat
    let V := (fftCore (xs.map (fun x => (x, zero)))).map (logBin a.cepEps)
    let y := fftCore (V.map conj)
    let C := (List.range (2 ^ l)).map (fun k => cscale (conj (complexEntry y k)) (fdiv one (toF64 (2 ^ l))))
    l ≤ 20 → a.len0.toNat = 2 ^ l → nc ≠ 0 → nc ≤ 2 ^ l →
    fits a.src0.toNat (8 * 2 ^ l) 8 → fits a.dst0.toNat (8 * nc) 8 → fits a.scr.toNat (16 * 2 ^ l) 8 →
    disjoint a.src0.toNat (8 * 2 ^ l) a.dst0.toNat (8 * nc) →
    disjoint a.src0.toNat (8 * 2 ^ l) a.scr.toNat (16 * 2 ^ l) →
    disjoint a.dst0.toNat (8 * nc) a.scr.toNat (16 * 2 ^ l) →
    loadReals s.dmem a.src0.toNat (2 ^ l) = some xs →
    exec .cepstrum s =
      .next (succeeded s
        (Mem.writeBytes (Mem.writeBytes s.dmem a.scr.toNat (complexBytes C)) a.dst0.toNat
          (realBytes ((List.range nc).map (fun i => (complexEntry C i).1))))
        nc)

/-- `VQNEAR` (46 R270, R271). -/
def Obligations.VqnearStoresNearestIndices : Prop :=
  ∀ (s : State) (F CB : List F64),
    let a := s.snap.args
    let NF := a.len0.toNat
    let K := a.len1.toNat
    let D := a.len2.toNat
    NF ≠ 0 → K ≠ 0 → D ≠ 0 → a.len3 = a.len2 → K ≤ 2 ^ 32 →
    fits a.src0.toNat (8 * (NF * D)) 8 → fits a.src1.toNat (8 * (K * D)) 8 → fits a.dst0.toNat (4 * NF) 4 →
    disjoint a.src0.toNat (8 * (NF * D)) a.dst0.toNat (4 * NF) →
    disjoint a.src1.toNat (8 * (K * D)) a.dst0.toNat (4 * NF) →
    loadReals s.dmem a.src0.toNat (NF * D) = some F → loadReals s.dmem a.src1.toNat (K * D) = some CB →
    exec .vqnear s =
      .next (succeeded s
        (Mem.writeBytes s.dmem a.dst0.toNat (indexBytes ((List.range NF).map (nearestRow F CB K D)))) NF)

/-! ### Properties of the algorithms -/

/-- `fft_core` (41 R173): the base case, and the two outputs of each butterfly. -/
def Obligations.FftCoreIsTheButterflyRecursion : Prop :=
  (∀ x : Cplx, fftCore [x] = [x]) ∧
  ∀ (l k : Nat) (xs : List Cplx), xs.length = 2 ^ (l + 1) → k < 2 ^ l →
    let E := fftCore ((List.range (2 ^ l)).map (fun j => complexEntry xs (2 * j)))
    let O := fftCore ((List.range (2 ^ l)).map (fun j => complexEntry xs (2 * j + 1)))
    let t := cmul (Elementary.tw k (2 ^ (l + 1))) (complexEntry O k)
    (fftCore xs).length = 2 ^ (l + 1) ∧
    complexEntry (fftCore xs) k = cadd (complexEntry E k) t ∧
    complexEntry (fftCore xs) (k + 2 ^ l) = csub (complexEntry E k) t

/-- The iterative transform with bit reversal gives the same bits as the recursion (41 R176). -/
def Obligations.IterativeTransformGivesTheSameBits : Prop :=
  ∀ (l i : Nat) (xs : List Cplx), xs.length = 2 ^ l → i < 2 ^ l →
    complexEntry (fftCore xs) i = iterativeTransform l (complexEntry xs) i

/-- In place (41 R174): an `FFT` or `IFFT` over its own input stores what the same command stores to another region. -/
def Obligations.InPlaceTransformGivesTheSameOutput : Prop :=
  ∀ i ∈ [Instr.fft, .ifft], ∀ (s t₁ t₂ : State) (d : Word),
    let a := s.snap.args
    let N := a.len0.toNat
    let inPlace := { s with snap := { s.snap with args := { a with dst0 := a.src0 } } }
    let apart := { s with snap := { s.snap with args := { a with dst0 := d } } }
    disjoint a.src0.toNat (16 * N) d.toNat (16 * N) → s.err = false →
    exec i inPlace = .next t₁ → t₁.err = false → exec i apart = .next t₂ → t₂.err = false →
    (∀ x, x < 16 * N → Mem.readByte t₁.dmem (a.src0.toNat + x) = Mem.readByte t₂.dmem (d.toNat + x)) ∧
    t₁.result0 = t₂.result0

/-- The twiddle factors (40 R142): the exact ones, and that a factor depends on the fraction `k/M` alone. -/
def Obligations.TwiddleDependsOnTheFraction : Prop :=
  (∀ l, Elementary.tw 0 (2 ^ (l + 1)) = (0x3FF0000000000000, 0x0000000000000000)) ∧
  (∀ l, Elementary.tw (2 ^ l) (2 ^ (l + 2)) = (0x0000000000000000, 0xBFF0000000000000)) ∧
  ∀ l k, k < 2 ^ l → Elementary.tw (2 * k) (2 ^ (l + 2)) = Elementary.tw k (2 ^ (l + 1))

/-- The energies of a successful `LEVDUR` are non-negative and do not increase (43 R204). -/
def Obligations.LevdurEnergiesDoNotIncrease : Prop :=
  ∀ s t : State, s.err = false → exec .levdur s = .next t → t.err = false →
    let p := s.snap.args.len1.toNat
    ∃ es, loadReals t.dmem s.snap.args.dst1.toNat (p + 1) = some es ∧
      (∀ j, j < p → flt zero (entry es j) = true) ∧ fle zero (entry es p) = true ∧
      ∀ m, m < p → fle (entry es (m + 1)) (entry es m) = true

/-- The search of `VQNEAR` (46 R272, R274): the index is in range; a NaN distance of codeword 0 gives index 0; otherwise the index's
distance is no NaN, below every earlier distance that is no NaN, and not above any. -/
def Obligations.NearestIndexIsLowestMinimum : Prop :=
  ∀ (F CB : List F64) (K D v : Nat), K ≠ 0 →
    let d := rowDistance F CB D v
    let b := nearestRow F CB K D v
    b < K ∧
    (isNaN (d 0) = true → b = 0) ∧
    (isNaN (d 0) = false → isNaN (d b) = false ∧
      ∀ c, c < K → isNaN (d c) = false → fle (d b) (d c) = true ∧ (c < b → flt (d b) (d c) = true)) ∧
    ∀ c j, j < D → (isNaN (entry F (v * D + j)) = true ∨ isNaN (entry CB (c * D + j)) = true) → d c = nan

/-- The round trip in length of two resamplings, by 2 and by 1/2 (44 R233). -/
def Obligations.ResampleRoundTripLength : Prop :=
  ∀ (a b : Args), resampleRatio a = 0x4000000000000000 → resampleRatio b = 0x3FE0000000000000 →
    a.len0.toNat < 2 ^ 52 → b.len0.toNat = resampleLength a →
    resampleLength a = (a.len0.toNat + 1) / 2 ∧
    resampleLength b = 2 * ((a.len0.toNat + 1) / 2) ∧
    (resampleLength b = a.len0.toNat ↔ a.len0.toNat % 2 = 0)

/-! ### Arithmetic -/

/-- NaN results are canonical (40 R131), the logarithm has its special values (40 R133), and `fneg` moves bits only (40 R134). -/
def Obligations.NaNResultsAreCanonical : Prop :=
  (∀ op ∈ [fadd, fsub, fmul, fdiv], ∀ a b : F64,
    ((isNaN a = true ∨ isNaN b = true) → op a b = 0x7FF8000000000000) ∧
    (isNaN (op a b) = true → op a b = 0x7FF8000000000000)) ∧
  (∀ x : F64, isNaN x = true ∨ flt x 0 = true → Elementary.flog x = 0x7FF8000000000000) ∧
  Elementary.flog 0 = 0xFFF0000000000000 ∧ Elementary.flog 0x8000000000000000 = 0xFFF0000000000000 ∧
  Elementary.flog 0x7FF0000000000000 = 0x7FF0000000000000 ∧ Elementary.flog 0x3FF0000000000000 = 0 ∧
  ∀ (x : F64) (n : Nat), n < 64 →
    (fneg x).getLsbD n = if n = 63 then !x.getLsbD n else x.getLsbD n

/-- Finite operations round once, to nearest, ties to even, subnormals kept, overflow to an infinity (40 R130, R132), and so does the
conversion of an integer, exact below `2^53` (40 R137). The floor and the ceiling of a finite value are the exact integers (40 R138). -/
def Obligations.FiniteOperationsRoundToNearestEven : Prop :=
  (∀ i : Nat,
    (∃ v, nearestEven (i * 2 ^ 1074) 1 v ∧ toF64 i = withSign false (min v infBits)) ∧
    (i < 2 ^ 53 → isFinite (toF64 i) = true ∧ units (toF64 i) = (i : Int) * 2 ^ 1074)) ∧
  (∀ x : F64, isFinite x = true →
    (floorI x * 2 ^ 1074 ≤ units x ∧ units x < (floorI x + 1) * 2 ^ 1074) ∧
    ((ceilI x - 1) * 2 ^ 1074 < units x ∧ units x ≤ ceilI x * 2 ^ 1074) ∧
    fsub x x = 0) ∧
  ∀ a b : F64, isFinite a = true → isFinite b = true →
    (units a + units b ≠ 0 →
      ∃ v, nearestEven (units a + units b).natAbs 1 v ∧
        fadd a b = withSign (decide (units a + units b < 0)) (min v infBits)) ∧
    (units a - units b ≠ 0 →
      ∃ v, nearestEven (units a - units b).natAbs 1 v ∧
        fsub a b = withSign (decide (units a - units b < 0)) (min v infBits)) ∧
    (∃ v, nearestEven (magUnits a * magUnits b) (2 ^ 1074) v ∧
      fmul a b = withSign (sign a != sign b) (min v infBits)) ∧
    (isZero b = false →
      ∃ v, nearestEven (magUnits a * 2 ^ 1074) (magUnits b) v ∧
        fdiv a b = withSign (sign a != sign b) (min v infBits))

/-- The special cases of 40 R132. -/
def Obligations.SpecialOperandsGiveIeeeResults : Prop :=
  (∀ x : F64, isFinite x = true → fadd x (fneg x) = 0) ∧
  fadd 0x8000000000000000 0x8000000000000000 = 0x8000000000000000 ∧ fadd 0 0x8000000000000000 = 0 ∧
  (∀ x : F64, isInf x = true → fsub x x = nan ∧ fadd x (fneg x) = nan ∧ fmul 0 x = nan ∧ fmul x 0x8000000000000000 = nan) ∧
  (∀ x y : F64, isInf x = true → isInf y = true → fdiv x y = nan) ∧
  (∀ x y : F64, isZero x = true → isZero y = true →
    fdiv x y = nan ∧ fmul x y = withSign (sign x != sign y) 0) ∧
  (∀ x y : F64, isNaN x = false → isZero x = false → isZero y = true →
    fdiv x y = withSign (sign x != sign y) infBits) ∧
  (∀ x y : F64, isFinite x = true → isInf y = true → fdiv x y = withSign (sign x != sign y) 0) ∧
  ∀ x y : F64, isZero x = true → isFinite y = true → isZero y = false → fdiv x y = withSign (sign x != sign y) 0

/-- Comparisons (40 R135), on the values the patterns stand for: a NaN compares false, the zeros are equal, an infinity lies beyond
every finite value. -/
def Obligations.ComparisonsAreOrdered : Prop :=
  ∀ a b : F64,
    ((isNaN a = true ∨ isNaN b = true) → flt a b = false ∧ fle a b = false) ∧
    (isNaN a = false → isNaN b = false →
      (flt a b = true ↔ units a < units b) ∧ (fle a b = true ↔ units a ≤ units b)) ∧
    (flt 0x8000000000000000 0 = false ∧ fle 0 0x8000000000000000 = true) ∧
    (isFinite a = true ↔ isInf a = false ∧ isNaN a = false) ∧
    (isFinite a = true → flt a 0x7FF0000000000000 = true ∧ flt 0xFFF0000000000000 a = true)

end
end

