-- ==== Sys2Proof/Laws/Mem.lean ====
section
/-! SUPPORT. The laws of data memory: reading after writing, what a write leaves alone, that every write keeps the canonical form, and the byte order of numbers and sequences. -/

namespace Sys2Proof.Machine

/-! ### Bytes and numbers -/

@[simp] theorem leBytes_length (n v : Nat) : (leBytes n v).length = n := by
  induction n generalizing v with
  | zero => rfl
  | succ n ih => simp [leBytes, ih]

theorem leNat_leBytes (n v : Nat) : leNat (leBytes n v) = v % 256 ^ n := by
  induction n generalizing v with
  | zero => simp [leBytes, leNat, Nat.mod_one]
  | succ n ih =>
    rw [leBytes, leNat, ih, BitVec.toNat_ofNat, show 256 ^ (n + 1) = 256 * 256 ^ n by ring, Nat.mod_mul]

theorem leNat_lt (bs : List Byte) : leNat bs < 256 ^ bs.length := by
  induction bs with
  | nil => simp [leNat]
  | cons b bs ih =>
    have := b.isLt
    simp only [leNat, List.length_cons, pow_succ]
    omega

@[simp] theorem realBytes_length (xs : List F64) : (realBytes xs).length = 8 * xs.length := by
  induction xs with
  | nil => rfl
  | cons x xs ih => simp [realBytes, ih]; omega

@[simp] theorem complexBytes_length (xs : List Cplx) : (complexBytes xs).length = 16 * xs.length := by
  induction xs with
  | nil => rfl
  | cons x xs ih => simp [complexBytes, ih]; omega

@[simp] theorem indexBytes_length (is : List Nat) : (indexBytes is).length = 4 * is.length := by
  induction is with
  | nil => rfl
  | cons x xs ih => simp [indexBytes, ih]; omega

/-! ### Single bytes -/

@[simp] theorem readByte_nil (x : Nat) : Mem.readByte [] x = none := rfl

theorem readByte_cons (c : Host.Cell) (m : Mem) (x : Nat) :
    Mem.readByte (c :: m) x = if c.1 = x then some c.2 else Mem.readByte m x := by
  by_cases h : c.1 = x <;> simp [Mem.readByte, h]

theorem readByte_append (m₁ m₂ : Mem) (x : Nat) :
    Mem.readByte (m₁ ++ m₂) x = (Mem.readByte m₁ x).or (Mem.readByte m₂ x) := by
  induction m₁ with
  | nil => simp
  | cons c m₁ ih =>
    rw [List.cons_append, readByte_cons, readByte_cons, ih]
    split <;> simp

theorem readByte_filter (p : Nat → Bool) (m : Mem) (x : Nat) :
    Mem.readByte (m.filter (fun c => p c.1)) x = if p x then Mem.readByte m x else none := by
  induction m with
  | nil => simp
  | cons c m ih =>
    by_cases hc : p c.1 <;> by_cases hx : p x <;> by_cases h : c.1 = x <;>
      simp_all [readByte_cons]

theorem readByte_cellsAt (a : Nat) (bs : List Byte) (x : Nat) :
    Mem.readByte (Mem.cellsAt a bs) x = if a ≤ x then bs[x - a]? else none := by
  induction bs generalizing a with
  | nil => simp [Mem.cellsAt]
  | cons b bs ih =>
    rw [Mem.cellsAt, readByte_cons, ih]
    rcases Nat.lt_trichotomy a x with h | h | h
    · have e : x - a = (x - (a + 1)) + 1 := by omega
      simp [h.ne, Nat.succ_le_of_lt h, h.le, e]
    · simp [h]
    · simp [h.ne', Nat.not_le.mpr h, show ¬a + 1 ≤ x by omega]

/-- What a byte reads as after a write: inside the stored bytes the byte stored, elsewhere as before. -/
theorem readByte_writeBytes (m : Mem) (a : Nat) (bs : List Byte) (x : Nat) :
    Mem.readByte (Mem.writeBytes m a bs) x =
      if a ≤ x ∧ x < a + bs.length then bs[x - a]? else Mem.readByte m x := by
  have h₁ := readByte_filter (fun k => decide (k < a)) m x
  have h₂ := readByte_filter (fun k => decide (a + bs.length ≤ k)) m x
  rw [Mem.writeBytes, readByte_append, readByte_append, readByte_cellsAt, h₁, h₂]
  by_cases ha : a ≤ x <;> by_cases hb : x < a + bs.length
  · have hi : x - a < bs.length := by omega
    simp [ha, hb, Nat.not_lt.mpr ha, List.getElem?_eq_getElem hi]
  · have hi : bs.length ≤ x - a := by omega
    simp [ha, hb, Nat.not_lt.mpr ha, List.getElem?_eq_none hi, Nat.not_lt.mp hb]
  · simp [ha, Nat.lt_of_not_le ha, show ¬a + bs.length ≤ x by omega]
  · omega

/-- A write leaves every byte outside the stored ones alone. -/
theorem readByte_writeBytes_outside {m : Mem} {a x : Nat} {bs : List Byte} (h : x < a ∨ a + bs.length ≤ x) :
    Mem.readByte (Mem.writeBytes m a bs) x = Mem.readByte m x := by
  rw [readByte_writeBytes, if_neg (by omega)]

/-! ### Runs of bytes -/

theorem readBytes_congr {m m' : Mem} (a n : Nat)
    (h : ∀ x, a ≤ x → x < a + n → Mem.readByte m x = Mem.readByte m' x) :
    Mem.readBytes m a n = Mem.readBytes m' a n := by
  induction n generalizing a with
  | zero => rfl
  | succ n ih =>
    rw [Mem.readBytes, Mem.readBytes, h a (le_refl a) (by omega), ih (a + 1) (fun x h₁ h₂ => h x (by omega) (by omega))]

theorem readBytes_of_bytes (m : Mem) (a : Nat) (bs : List Byte)
    (h : ∀ i, i < bs.length → Mem.readByte m (a + i) = bs[i]?) : Mem.readBytes m a bs.length = some bs := by
  induction bs generalizing a with
  | nil => rfl
  | cons b bs ih =>
    have h₀ := h 0 (by simp)
    have hs : Mem.readBytes m (a + 1) bs.length = some bs :=
      ih (a + 1) (fun i hi => by simpa [Nat.add_assoc, Nat.add_comm 1 i] using h (i + 1) (by simpa using hi))
    simp only [List.length_cons, Mem.readBytes, hs]
    simp at h₀
    simp [h₀]

/-- Read after write: the bytes stored. -/
theorem readBytes_writeBytes (m : Mem) (a : Nat) (bs : List Byte) :
    Mem.readBytes (Mem.writeBytes m a bs) a bs.length = some bs :=
  readBytes_of_bytes _ a bs fun i hi => by
    rw [readByte_writeBytes, if_pos (by omega), Nat.add_sub_cancel_left]

theorem readBytes_append (m : Mem) (a n k : Nat) {bs cs : List Byte} (hb : Mem.readBytes m a n = some bs)
    (hc : Mem.readBytes m (a + n) k = some cs) : Mem.readBytes m a (n + k) = some (bs ++ cs) := by
  induction n generalizing a bs with
  | zero => simp only [Mem.readBytes, Option.some.injEq] at hb; subst hb; simpa using hc
  | succ n ih =>
    rw [Nat.succ_add]
    simp only [Mem.readBytes] at hb ⊢
    split at hb
    · next b bs' h₁ h₂ =>
      cases hb
      rw [ih (a + 1) h₂ (by rw [← hc]; congr 1; omega), h₁]
      rfl
    · cases hb

/-! ### Element loads after element stores -/

theorem readBytes_inside (m : Mem) (a : Nat) (pre bs post : List Byte) :
    Mem.readBytes (Mem.writeBytes m a (pre ++ (bs ++ post))) (a + pre.length) bs.length = some bs :=
  readBytes_of_bytes _ _ bs fun i hi => by
    rw [readByte_writeBytes, if_pos (by simp; omega)]
    rw [show a + pre.length + i - a = pre.length + i by omega, List.getElem?_append_right (by omega)]
    rw [Nat.add_sub_cancel_left, List.getElem?_append_left hi]

theorem loadF_of_readBytes {m : Mem} {a : Nat} {x : F64}
    (h : Mem.readBytes m a 8 = some (leBytes 8 x.toNat)) : loadF m a = some x := by
  have hx := x.isLt
  simp only [loadF, Mem.read, h, Option.map_some, leNat_leBytes]
  rw [Nat.mod_eq_of_lt (by simpa using hx), BitVec.ofNat_toNat, BitVec.setWidth_eq]

theorem loadReals_inside (m : Mem) (a : Nat) (pre : List Byte) (xs : List F64) (post : List Byte) :
    loadReals (Mem.writeBytes m a (pre ++ (realBytes xs ++ post))) (a + pre.length) xs.length = some xs := by
  induction xs generalizing pre with
  | nil => rfl
  | cons x xs ih =>
    have h₁ := readBytes_inside m a pre (leBytes 8 x.toNat) (realBytes xs ++ post)
    have h₂ := ih (pre ++ leBytes 8 x.toNat)
    simp only [leBytes_length, List.length_append, List.append_assoc, ← Nat.add_assoc] at h₁ h₂
    simp only [List.length_cons, loadReals, realBytes, List.append_assoc, loadF_of_readBytes h₁, h₂]

/-- The reals of a store load back. -/
theorem loadReals_writeBytes (m : Mem) (a : Nat) (xs : List F64) :
    loadReals (Mem.writeBytes m a (realBytes xs)) a xs.length = some xs := by
  simpa using loadReals_inside m a [] xs []

theorem loadComplexes_inside (m : Mem) (a : Nat) (pre : List Byte) (xs : List Cplx) (post : List Byte) :
    loadComplexes (Mem.writeBytes m a (pre ++ (complexBytes xs ++ post))) (a + pre.length) xs.length = some xs := by
  induction xs generalizing pre with
  | nil => rfl
  | cons x xs ih =>
    have h₁ := readBytes_inside m a pre (leBytes 8 x.1.toNat) (leBytes 8 x.2.toNat ++ (complexBytes xs ++ post))
    have h₂ := readBytes_inside m a (pre ++ leBytes 8 x.1.toNat) (leBytes 8 x.2.toNat) (complexBytes xs ++ post)
    have h₃ := ih (pre ++ (leBytes 8 x.1.toNat ++ leBytes 8 x.2.toNat))
    simp only [leBytes_length, List.length_append, List.append_assoc, ← Nat.add_assoc] at h₁ h₂ h₃
    simp only [List.length_cons, loadComplexes, complexBytes, List.append_assoc, loadF_of_readBytes h₁,
      loadF_of_readBytes h₂]
    rw [h₃]

/-- The complex values of a store load back. -/
theorem loadComplexes_writeBytes (m : Mem) (a : Nat) (xs : List Cplx) :
    loadComplexes (Mem.writeBytes m a (complexBytes xs)) a xs.length = some xs := by
  simpa using loadComplexes_inside m a [] xs []

theorem read_congr {m m' : Mem} (a n : Nat)
    (h : ∀ x, a ≤ x → x < a + n → Mem.readByte m x = Mem.readByte m' x) : Mem.read m a n = Mem.read m' a n := by
  rw [Mem.read, Mem.read, readBytes_congr a n h]

theorem loadReals_congr {m m' : Mem} (a n : Nat)
    (h : ∀ x, a ≤ x → x < a + 8 * n → Mem.readByte m x = Mem.readByte m' x) : loadReals m a n = loadReals m' a n := by
  induction n generalizing a with
  | zero => rfl
  | succ n ih =>
    rw [loadReals, loadReals, ih (a + 8) (fun x h₁ h₂ => h x (by omega) (by omega)), loadF, loadF,
      read_congr a 8 (fun x h₁ h₂ => h x h₁ (by omega))]

theorem loadReals_length {m : Mem} {a n : Nat} {xs : List F64} (h : loadReals m a n = some xs) : xs.length = n := by
  induction n generalizing a xs with
  | zero => simp only [loadReals, Option.some.injEq] at h; simp [← h]
  | succ n ih =>
    simp only [loadReals] at h
    split at h
    · next x xs' h₁ h₂ => cases h; simp [ih h₂]
    · cases h

theorem loadComplexes_length {m : Mem} {a n : Nat} {xs : List Cplx} (h : loadComplexes m a n = some xs) :
    xs.length = n := by
  induction n generalizing a xs with
  | zero => simp only [loadComplexes, Option.some.injEq] at h; simp [← h]
  | succ n ih =>
    simp only [loadComplexes] at h
    split at h
    · next re im xs' h₁ h₂ h₃ => cases h; simp [ih h₃]
    · cases h

/-! ### Multi-byte numbers -/

theorem leBytes_getElem? (n v j : Nat) (h : j < n) : (leBytes n v)[j]? = some (BitVec.ofNat 8 (v / 256 ^ j)) := by
  induction n generalizing v j with
  | zero => omega
  | succ n ih =>
    cases j with
    | zero => simp [leBytes]
    | succ j =>
      simp only [leBytes, List.getElem?_cons_succ, ih _ _ (show j < n by omega)]
      rw [Nat.div_div_eq_div_mul, pow_succ, Nat.mul_comm]

/-- What a byte reads as after a number is stored. -/
theorem readByte_write (m : Mem) (a n v x : Nat) :
    Mem.readByte (Mem.write m a n v) x =
      if a ≤ x ∧ x < a + n then some (BitVec.ofNat 8 (v / 256 ^ (x - a))) else Mem.readByte m x := by
  rw [Mem.write, readByte_writeBytes, leBytes_length]
  split
  · next h => rw [leBytes_getElem? _ _ _ (by omega)]
  · rfl

/-- Read after write of a number: its low bytes. -/
theorem read_write (m : Mem) (a n v : Nat) : Mem.read (Mem.write m a n v) a n = some (v % 256 ^ n) := by
  have h := readBytes_writeBytes m a (leBytes n v)
  rw [leBytes_length] at h
  rw [Mem.read, Mem.write, h, Option.map_some, leNat_leBytes]

/-- A run with an unwritten byte gives no bytes. -/
theorem readBytes_none {m : Mem} {a n x : Nat} (h₁ : a ≤ x) (h₂ : x < a + n) (h : Mem.readByte m x = none) :
    Mem.readBytes m a n = none := by
  induction n generalizing a with
  | zero => omega
  | succ n ih =>
    rw [Mem.readBytes]
    rcases Nat.eq_or_lt_of_le h₁ with rfl | h₃
    · simp [h]
    · rw [ih h₃ (by omega)]
      cases Mem.readByte m a <;> rfl

/-- A run whose bytes are all written gives its bytes. -/
theorem readBytes_isSome {m : Mem} {a n : Nat} (h : ∀ x, a ≤ x → x < a + n → Mem.readByte m x ≠ none) :
    ∃ bs, Mem.readBytes m a n = some bs := by
  induction n generalizing a with
  | zero => exact ⟨[], rfl⟩
  | succ n ih =>
    obtain ⟨bs, hbs⟩ := ih (a := a + 1) (fun x h₁ h₂ => h x (by omega) (by omega))
    obtain ⟨b, hb⟩ := Option.ne_none_iff_exists'.mp (h a le_rfl (by omega))
    exact ⟨b :: bs, by rw [Mem.readBytes, hb, hbs]⟩

theorem loadF_isSome {m : Mem} {a : Nat} (h : ∀ x, a ≤ x → x < a + 8 → Mem.readByte m x ≠ none) :
    ∃ x, loadF m a = some x := by
  obtain ⟨bs, hbs⟩ := readBytes_isSome h
  exact ⟨_, by rw [loadF, Mem.read, hbs]; rfl⟩

/-- Reals whose bytes are all written load. -/
theorem loadReals_isSome {m : Mem} {a n : Nat} (h : ∀ x, a ≤ x → x < a + 8 * n → Mem.readByte m x ≠ none) :
    ∃ xs, loadReals m a n = some xs := by
  induction n generalizing a with
  | zero => exact ⟨[], rfl⟩
  | succ n ih =>
    obtain ⟨xs, hxs⟩ := ih (a := a + 8) (fun x h₁ h₂ => h x (by omega) (by omega))
    obtain ⟨y, hy⟩ := loadF_isSome (m := m) (a := a) (fun x h₁ h₂ => h x h₁ (by omega))
    exact ⟨y :: xs, by rw [loadReals, hy, hxs]⟩

/-- Complex values whose bytes are all written load. -/
theorem loadComplexes_isSome {m : Mem} {a n : Nat} (h : ∀ x, a ≤ x → x < a + 16 * n → Mem.readByte m x ≠ none) :
    ∃ xs, loadComplexes m a n = some xs := by
  induction n generalizing a with
  | zero => exact ⟨[], rfl⟩
  | succ n ih =>
    obtain ⟨xs, hxs⟩ := ih (a := a + 16) (fun x h₁ h₂ => h x (by omega) (by omega))
    obtain ⟨y, hy⟩ := loadF_isSome (m := m) (a := a) (fun x h₁ h₂ => h x h₁ (by omega))
    obtain ⟨z, hz⟩ := loadF_isSome (m := m) (a := a + 8) (fun x h₁ h₂ => h x (by omega) (by omega))
    exact ⟨(y, z) :: xs, by rw [loadComplexes, hy, hz, hxs]⟩

theorem loadF_none {m : Mem} {a x : Nat} (h₁ : a ≤ x) (h₂ : x < a + 8) (h : Mem.readByte m x = none) : loadF m a = none := by
  rw [loadF, Mem.read, readBytes_none h₁ h₂ h]
  rfl

/-- Reals with an unwritten byte do not load. -/
theorem loadReals_none {m : Mem} {a n x : Nat} (h₁ : a ≤ x) (h₂ : x < a + 8 * n) (h : Mem.readByte m x = none) :
    loadReals m a n = none := by
  induction n generalizing a with
  | zero => omega
  | succ n ih =>
    rw [loadReals]
    rcases Nat.lt_or_ge x (a + 8) with hx | hx
    · rw [loadF_none h₁ hx h]
    · rw [ih hx (by omega)]
      cases loadF m a <;> rfl

/-- Complex values with an unwritten byte do not load. -/
theorem loadComplexes_none {m : Mem} {a n x : Nat} (h₁ : a ≤ x) (h₂ : x < a + 16 * n) (h : Mem.readByte m x = none) :
    loadComplexes m a n = none := by
  induction n generalizing a with
  | zero => omega
  | succ n ih =>
    rw [loadComplexes]
    rcases Nat.lt_or_ge x (a + 8) with hx | hx
    · rw [loadF_none h₁ hx h]
    · rcases Nat.lt_or_ge x (a + 16) with hx' | hx'
      · rw [loadF_none hx hx' h]
        cases loadF m a <;> rfl
      · rw [ih hx' (by omega)]
        cases loadF m a <;> cases loadF m (a + 8) <;> rfl

/-! ### The canonical form -/

theorem cellsAt_keys {a : Nat} {bs : List Byte} {c : Host.Cell} (h : c ∈ Mem.cellsAt a bs) :
    a ≤ c.1 ∧ c.1 < a + bs.length := by
  induction bs generalizing a with
  | nil => simp [Mem.cellsAt] at h
  | cons b bs ih =>
    rcases List.mem_cons.mp h with rfl | h
    · simp
    · have := ih h
      simp only [List.length_cons]
      omega

theorem cellsAt_sorted (a : Nat) (bs : List Byte) : (Mem.cellsAt a bs).Pairwise (fun c d => c.1 < d.1) := by
  induction bs generalizing a with
  | nil => exact .nil
  | cons b bs ih => exact .cons (fun c hc => (cellsAt_keys hc).1) (ih (a + 1))

/-- A write inside DMEM keeps the canonical form. -/
theorem wf_writeBytes {m : Mem} {a : Nat} {bs : List Byte} (h : Mem.wf m) (hb : a + bs.length ≤ Config.dmemSize) :
    Mem.wf (Mem.writeBytes m a bs) := by
  obtain ⟨hs, hl⟩ := h
  refine ⟨?_, fun c hc => ?_⟩
  · rw [Mem.writeBytes, List.pairwise_append, List.pairwise_append]
    refine ⟨⟨hs.filter _, cellsAt_sorted a bs, fun c hc d hd => ?_⟩, hs.filter _, fun c hc d hd => ?_⟩
    · have := (cellsAt_keys hd).1
      simp only [List.mem_filter, decide_eq_true_eq] at hc
      omega
    · simp only [List.mem_append, List.mem_filter, decide_eq_true_eq] at hc hd
      rcases hc with hc | hc
      · omega
      · have := (cellsAt_keys hc).2
        omega
  · simp only [Mem.writeBytes, List.mem_append, List.mem_filter] at hc
    rcases hc with (hc | hc) | hc
    · exact hl c hc.1
    · have := (cellsAt_keys hc).2
      omega
    · exact hl c hc.1

theorem wf_writeBlocks {m : Mem} {bks : List (Nat × List Byte)} (h : Mem.wf m)
    (hb : ∀ b ∈ bks, b.1 + b.2.length ≤ Config.dmemSize) : Mem.wf (Mem.writeBlocks m bks) := by
  induction bks generalizing m with
  | nil => exact h
  | cons b bks ih =>
    exact ih (wf_writeBytes h (hb b (by simp))) (fun c hc => hb c (by simp [hc]))

theorem wf_nil : Mem.wf [] := ⟨.nil, fun _ h => by cases h⟩

/-- Blocks leave every byte outside all of them alone. -/
theorem readByte_writeBlocks_outside {m : Mem} {bks : List (Nat × List Byte)} {x : Nat}
    (h : ∀ b ∈ bks, x < b.1 ∨ b.1 + b.2.length ≤ x) : Mem.readByte (Mem.writeBlocks m bks) x = Mem.readByte m x := by
  induction bks generalizing m with
  | nil => rfl
  | cons b bks ih =>
    rw [Mem.writeBlocks, ih (fun c hc => h c (by simp [hc])), readByte_writeBytes_outside (h b (by simp))]

end Sys2Proof.Machine
end

