-- ==== Sys2Proof/Laws/State.lean ====
section
/-! SUPPORT. One lemma per field per named update of the state, so that no proof unfolds a record update. -/

namespace Sys2Proof.Machine

variable (s : State)

/-! ### `State.fail` -/

@[simp] theorem State.fail_cmd (f : Failure) : (s.fail f).cmd = s.cmd := rfl
@[simp] theorem State.fail_done (f : Failure) : (s.fail f).done = true := rfl
@[simp] theorem State.fail_err (f : Failure) : (s.fail f).err = true := rfl
@[simp] theorem State.fail_ovr (f : Failure) : (s.fail f).ovr = s.ovr := rfl
@[simp] theorem State.fail_doneIe (f : Failure) : (s.fail f).doneIe = s.doneIe := rfl
@[simp] theorem State.fail_errIe (f : Failure) : (s.fail f).errIe = s.errIe := rfl
@[simp] theorem State.fail_ovrIe (f : Failure) : (s.fail f).ovrIe = s.ovrIe := rfl
@[simp] theorem State.fail_errCode (f : Failure) : (s.fail f).errCode = f.code := rfl
@[simp] theorem State.fail_errOp (f : Failure) : (s.fail f).errOp = s.snap.cmd.extractLsb' 0 8 := rfl
@[simp] theorem State.fail_errInfo0 (f : Failure) : (s.fail f).errInfo0 = f.info0 := rfl
@[simp] theorem State.fail_errInfo1 (f : Failure) : (s.fail f).errInfo1 = f.info1 := rfl
@[simp] theorem State.fail_result0 (f : Failure) : (s.fail f).result0 = f.result := rfl
@[simp] theorem State.fail_args (f : Failure) : (s.fail f).args = s.args := rfl
@[simp] theorem State.fail_phase (f : Failure) : (s.fail f).phase = .idle := rfl
@[simp] theorem State.fail_snap (f : Failure) : (s.fail f).snap = s.snap := rfl
@[simp] theorem State.fail_dmem (f : Failure) : (s.fail f).dmem = s.dmem := rfl
@[simp] theorem State.fail_held (f : Failure) : (s.fail f).held = s.held := rfl
@[simp] theorem State.fail_port (f : Failure) : (s.fail f).port = s.port := rfl
@[simp] theorem State.fail_answers (f : Failure) : (s.fail f).answers = s.answers := rfl
@[simp] theorem State.fail_draws (f : Failure) : (s.fail f).draws = s.draws := rfl

/-! ### `State.complete` -/

@[simp] theorem State.complete_cmd (n : Nat) : (s.complete n).cmd = s.cmd := rfl
@[simp] theorem State.complete_done (n : Nat) : (s.complete n).done = true := rfl
@[simp] theorem State.complete_err (n : Nat) : (s.complete n).err = s.err := rfl
@[simp] theorem State.complete_ovr (n : Nat) : (s.complete n).ovr = s.ovr := rfl
@[simp] theorem State.complete_doneIe (n : Nat) : (s.complete n).doneIe = s.doneIe := rfl
@[simp] theorem State.complete_errIe (n : Nat) : (s.complete n).errIe = s.errIe := rfl
@[simp] theorem State.complete_ovrIe (n : Nat) : (s.complete n).ovrIe = s.ovrIe := rfl
@[simp] theorem State.complete_errCode (n : Nat) : (s.complete n).errCode = s.errCode := rfl
@[simp] theorem State.complete_errOp (n : Nat) : (s.complete n).errOp = s.errOp := rfl
@[simp] theorem State.complete_errInfo0 (n : Nat) : (s.complete n).errInfo0 = s.errInfo0 := rfl
@[simp] theorem State.complete_errInfo1 (n : Nat) : (s.complete n).errInfo1 = s.errInfo1 := rfl
@[simp] theorem State.complete_result0 (n : Nat) : (s.complete n).result0 = BitVec.ofNat 64 n := rfl
@[simp] theorem State.complete_args (n : Nat) : (s.complete n).args = s.args := rfl
@[simp] theorem State.complete_phase (n : Nat) : (s.complete n).phase = .idle := rfl
@[simp] theorem State.complete_snap (n : Nat) : (s.complete n).snap = s.snap := rfl
@[simp] theorem State.complete_dmem (n : Nat) : (s.complete n).dmem = s.dmem := rfl
@[simp] theorem State.complete_held (n : Nat) : (s.complete n).held = s.held := rfl
@[simp] theorem State.complete_port (n : Nat) : (s.complete n).port = s.port := rfl
@[simp] theorem State.complete_answers (n : Nat) : (s.complete n).answers = s.answers := rfl
@[simp] theorem State.complete_draws (n : Nat) : (s.complete n).draws = s.draws := rfl

/-! ### `State.accept` -/

@[simp] theorem State.accept_cmd (w : Word) : (s.accept w).cmd = w := rfl
@[simp] theorem State.accept_done (w : Word) : (s.accept w).done = false := rfl
@[simp] theorem State.accept_err (w : Word) : (s.accept w).err = false := rfl
@[simp] theorem State.accept_ovr (w : Word) : (s.accept w).ovr = s.ovr := rfl
@[simp] theorem State.accept_doneIe (w : Word) : (s.accept w).doneIe = s.doneIe := rfl
@[simp] theorem State.accept_errIe (w : Word) : (s.accept w).errIe = s.errIe := rfl
@[simp] theorem State.accept_ovrIe (w : Word) : (s.accept w).ovrIe = s.ovrIe := rfl
@[simp] theorem State.accept_errCode (w : Word) : (s.accept w).errCode = .none := rfl
@[simp] theorem State.accept_errOp (w : Word) : (s.accept w).errOp = 0 := rfl
@[simp] theorem State.accept_errInfo0 (w : Word) : (s.accept w).errInfo0 = 0 := rfl
@[simp] theorem State.accept_errInfo1 (w : Word) : (s.accept w).errInfo1 = 0 := rfl
@[simp] theorem State.accept_result0 (w : Word) : (s.accept w).result0 = 0 := rfl
@[simp] theorem State.accept_args (w : Word) : (s.accept w).args = s.args := rfl
@[simp] theorem State.accept_phase (w : Word) : (s.accept w).phase = .busy := rfl
@[simp] theorem State.accept_snap (w : Word) : (s.accept w).snap = { cmd := w, args := s.args } := rfl
@[simp] theorem State.accept_dmem (w : Word) : (s.accept w).dmem = s.dmem := rfl
@[simp] theorem State.accept_held (w : Word) : (s.accept w).held = s.held := rfl
@[simp] theorem State.accept_port (w : Word) : (s.accept w).port = s.port := rfl
@[simp] theorem State.accept_answers (w : Word) : (s.accept w).answers = s.answers := rfl
@[simp] theorem State.accept_draws (w : Word) : (s.accept w).draws = s.draws := rfl

/-! ### `State.drop` -/

@[simp] theorem State.drop_cmd : s.drop.cmd = s.cmd := rfl
@[simp] theorem State.drop_done : s.drop.done = s.done := rfl
@[simp] theorem State.drop_err : s.drop.err = s.err := rfl
@[simp] theorem State.drop_ovr : s.drop.ovr = true := rfl
@[simp] theorem State.drop_doneIe : s.drop.doneIe = s.doneIe := rfl
@[simp] theorem State.drop_errIe : s.drop.errIe = s.errIe := rfl
@[simp] theorem State.drop_ovrIe : s.drop.ovrIe = s.ovrIe := rfl
@[simp] theorem State.drop_errCode : s.drop.errCode = s.errCode := rfl
@[simp] theorem State.drop_errOp : s.drop.errOp = s.errOp := rfl
@[simp] theorem State.drop_errInfo0 : s.drop.errInfo0 = s.errInfo0 := rfl
@[simp] theorem State.drop_errInfo1 : s.drop.errInfo1 = s.errInfo1 := rfl
@[simp] theorem State.drop_result0 : s.drop.result0 = s.result0 := rfl
@[simp] theorem State.drop_args : s.drop.args = s.args := rfl
@[simp] theorem State.drop_phase : s.drop.phase = s.phase := rfl
@[simp] theorem State.drop_snap : s.drop.snap = s.snap := rfl
@[simp] theorem State.drop_dmem : s.drop.dmem = s.dmem := rfl
@[simp] theorem State.drop_held : s.drop.held = s.held := rfl
@[simp] theorem State.drop_port : s.drop.port = s.port := rfl
@[simp] theorem State.drop_answers : s.drop.answers = s.answers := rfl
@[simp] theorem State.drop_draws : s.drop.draws = s.draws := rfl

/-! ### `State.resetRegisters` -/

@[simp] theorem State.resetRegisters_cmd : s.resetRegisters.cmd = 0 := rfl
@[simp] theorem State.resetRegisters_done : s.resetRegisters.done = false := rfl
@[simp] theorem State.resetRegisters_err : s.resetRegisters.err = false := rfl
@[simp] theorem State.resetRegisters_ovr : s.resetRegisters.ovr = false := rfl
@[simp] theorem State.resetRegisters_doneIe : s.resetRegisters.doneIe = false := rfl
@[simp] theorem State.resetRegisters_errIe : s.resetRegisters.errIe = false := rfl
@[simp] theorem State.resetRegisters_ovrIe : s.resetRegisters.ovrIe = false := rfl
@[simp] theorem State.resetRegisters_errCode : s.resetRegisters.errCode = .none := rfl
@[simp] theorem State.resetRegisters_errOp : s.resetRegisters.errOp = 0 := rfl
@[simp] theorem State.resetRegisters_errInfo0 : s.resetRegisters.errInfo0 = 0 := rfl
@[simp] theorem State.resetRegisters_errInfo1 : s.resetRegisters.errInfo1 = 0 := rfl
@[simp] theorem State.resetRegisters_result0 : s.resetRegisters.result0 = 0 := rfl
@[simp] theorem State.resetRegisters_args : s.resetRegisters.args = Args.reset := rfl
@[simp] theorem State.resetRegisters_phase : s.resetRegisters.phase = .idle := rfl
@[simp] theorem State.resetRegisters_snap : s.resetRegisters.snap = s.snap := rfl
@[simp] theorem State.resetRegisters_dmem : s.resetRegisters.dmem = s.dmem := rfl
@[simp] theorem State.resetRegisters_held : s.resetRegisters.held = s.held := rfl
@[simp] theorem State.resetRegisters_port : s.resetRegisters.port = s.port := rfl
@[simp] theorem State.resetRegisters_answers : s.resetRegisters.answers = s.answers := rfl
@[simp] theorem State.resetRegisters_draws : s.resetRegisters.draws = s.draws := rfl

/-! ### `State.clearStatus` -/

@[simp] theorem State.clearStatus_cmd (v : Word) : (s.clearStatus v).cmd = s.cmd := rfl
@[simp] theorem State.clearStatus_done (v : Word) : (s.clearStatus v).done = (s.done && !v.getLsbD 1) := rfl
@[simp] theorem State.clearStatus_err (v : Word) : (s.clearStatus v).err = (s.err && !v.getLsbD 2) := rfl
@[simp] theorem State.clearStatus_ovr (v : Word) : (s.clearStatus v).ovr = (s.ovr && !v.getLsbD 3) := rfl
@[simp] theorem State.clearStatus_doneIe (v : Word) : (s.clearStatus v).doneIe = s.doneIe := rfl
@[simp] theorem State.clearStatus_errIe (v : Word) : (s.clearStatus v).errIe = s.errIe := rfl
@[simp] theorem State.clearStatus_ovrIe (v : Word) : (s.clearStatus v).ovrIe = s.ovrIe := rfl
@[simp] theorem State.clearStatus_errCode (v : Word) : (s.clearStatus v).errCode = s.errCode := rfl
@[simp] theorem State.clearStatus_errOp (v : Word) : (s.clearStatus v).errOp = s.errOp := rfl
@[simp] theorem State.clearStatus_errInfo0 (v : Word) : (s.clearStatus v).errInfo0 = s.errInfo0 := rfl
@[simp] theorem State.clearStatus_errInfo1 (v : Word) : (s.clearStatus v).errInfo1 = s.errInfo1 := rfl
@[simp] theorem State.clearStatus_result0 (v : Word) : (s.clearStatus v).result0 = s.result0 := rfl
@[simp] theorem State.clearStatus_args (v : Word) : (s.clearStatus v).args = s.args := rfl
@[simp] theorem State.clearStatus_phase (v : Word) : (s.clearStatus v).phase = s.phase := rfl
@[simp] theorem State.clearStatus_snap (v : Word) : (s.clearStatus v).snap = s.snap := rfl
@[simp] theorem State.clearStatus_dmem (v : Word) : (s.clearStatus v).dmem = s.dmem := rfl
@[simp] theorem State.clearStatus_held (v : Word) : (s.clearStatus v).held = s.held := rfl
@[simp] theorem State.clearStatus_port (v : Word) : (s.clearStatus v).port = s.port := rfl
@[simp] theorem State.clearStatus_answers (v : Word) : (s.clearStatus v).answers = s.answers := rfl
@[simp] theorem State.clearStatus_draws (v : Word) : (s.clearStatus v).draws = s.draws := rfl

/-! ### `State.setIrqEn` -/

@[simp] theorem State.setIrqEn_cmd (v : Word) : (s.setIrqEn v).cmd = s.cmd := rfl
@[simp] theorem State.setIrqEn_done (v : Word) : (s.setIrqEn v).done = s.done := rfl
@[simp] theorem State.setIrqEn_err (v : Word) : (s.setIrqEn v).err = s.err := rfl
@[simp] theorem State.setIrqEn_ovr (v : Word) : (s.setIrqEn v).ovr = s.ovr := rfl
@[simp] theorem State.setIrqEn_doneIe (v : Word) : (s.setIrqEn v).doneIe = v.getLsbD 0 := rfl
@[simp] theorem State.setIrqEn_errIe (v : Word) : (s.setIrqEn v).errIe = v.getLsbD 1 := rfl
@[simp] theorem State.setIrqEn_ovrIe (v : Word) : (s.setIrqEn v).ovrIe = v.getLsbD 2 := rfl
@[simp] theorem State.setIrqEn_errCode (v : Word) : (s.setIrqEn v).errCode = s.errCode := rfl
@[simp] theorem State.setIrqEn_errOp (v : Word) : (s.setIrqEn v).errOp = s.errOp := rfl
@[simp] theorem State.setIrqEn_errInfo0 (v : Word) : (s.setIrqEn v).errInfo0 = s.errInfo0 := rfl
@[simp] theorem State.setIrqEn_errInfo1 (v : Word) : (s.setIrqEn v).errInfo1 = s.errInfo1 := rfl
@[simp] theorem State.setIrqEn_result0 (v : Word) : (s.setIrqEn v).result0 = s.result0 := rfl
@[simp] theorem State.setIrqEn_args (v : Word) : (s.setIrqEn v).args = s.args := rfl
@[simp] theorem State.setIrqEn_phase (v : Word) : (s.setIrqEn v).phase = s.phase := rfl
@[simp] theorem State.setIrqEn_snap (v : Word) : (s.setIrqEn v).snap = s.snap := rfl
@[simp] theorem State.setIrqEn_dmem (v : Word) : (s.setIrqEn v).dmem = s.dmem := rfl
@[simp] theorem State.setIrqEn_held (v : Word) : (s.setIrqEn v).held = s.held := rfl
@[simp] theorem State.setIrqEn_port (v : Word) : (s.setIrqEn v).port = s.port := rfl
@[simp] theorem State.setIrqEn_answers (v : Word) : (s.setIrqEn v).answers = s.answers := rfl
@[simp] theorem State.setIrqEn_draws (v : Word) : (s.setIrqEn v).draws = s.draws := rfl

/-! ### `State.withPort` -/

@[simp] theorem State.withPort_cmd (q : List PortEvent) : (s.withPort q).cmd = s.cmd := rfl
@[simp] theorem State.withPort_done (q : List PortEvent) : (s.withPort q).done = s.done := rfl
@[simp] theorem State.withPort_err (q : List PortEvent) : (s.withPort q).err = s.err := rfl
@[simp] theorem State.withPort_ovr (q : List PortEvent) : (s.withPort q).ovr = s.ovr := rfl
@[simp] theorem State.withPort_doneIe (q : List PortEvent) : (s.withPort q).doneIe = s.doneIe := rfl
@[simp] theorem State.withPort_errIe (q : List PortEvent) : (s.withPort q).errIe = s.errIe := rfl
@[simp] theorem State.withPort_ovrIe (q : List PortEvent) : (s.withPort q).ovrIe = s.ovrIe := rfl
@[simp] theorem State.withPort_errCode (q : List PortEvent) : (s.withPort q).errCode = s.errCode := rfl
@[simp] theorem State.withPort_errOp (q : List PortEvent) : (s.withPort q).errOp = s.errOp := rfl
@[simp] theorem State.withPort_errInfo0 (q : List PortEvent) : (s.withPort q).errInfo0 = s.errInfo0 := rfl
@[simp] theorem State.withPort_errInfo1 (q : List PortEvent) : (s.withPort q).errInfo1 = s.errInfo1 := rfl
@[simp] theorem State.withPort_result0 (q : List PortEvent) : (s.withPort q).result0 = s.result0 := rfl
@[simp] theorem State.withPort_args (q : List PortEvent) : (s.withPort q).args = s.args := rfl
@[simp] theorem State.withPort_phase (q : List PortEvent) : (s.withPort q).phase = s.phase := rfl
@[simp] theorem State.withPort_snap (q : List PortEvent) : (s.withPort q).snap = s.snap := rfl
@[simp] theorem State.withPort_dmem (q : List PortEvent) : (s.withPort q).dmem = s.dmem := rfl
@[simp] theorem State.withPort_held (q : List PortEvent) : (s.withPort q).held = s.held := rfl
@[simp] theorem State.withPort_port (q : List PortEvent) : (s.withPort q).port = q := rfl
@[simp] theorem State.withPort_answers (q : List PortEvent) : (s.withPort q).answers = s.answers := rfl
@[simp] theorem State.withPort_draws (q : List PortEvent) : (s.withPort q).draws = s.draws := rfl

/-! ### `State.withHeld` -/

@[simp] theorem State.withHeld_cmd (q : List HostAccess) : (s.withHeld q).cmd = s.cmd := rfl
@[simp] theorem State.withHeld_done (q : List HostAccess) : (s.withHeld q).done = s.done := rfl
@[simp] theorem State.withHeld_err (q : List HostAccess) : (s.withHeld q).err = s.err := rfl
@[simp] theorem State.withHeld_ovr (q : List HostAccess) : (s.withHeld q).ovr = s.ovr := rfl
@[simp] theorem State.withHeld_doneIe (q : List HostAccess) : (s.withHeld q).doneIe = s.doneIe := rfl
@[simp] theorem State.withHeld_errIe (q : List HostAccess) : (s.withHeld q).errIe = s.errIe := rfl
@[simp] theorem State.withHeld_ovrIe (q : List HostAccess) : (s.withHeld q).ovrIe = s.ovrIe := rfl
@[simp] theorem State.withHeld_errCode (q : List HostAccess) : (s.withHeld q).errCode = s.errCode := rfl
@[simp] theorem State.withHeld_errOp (q : List HostAccess) : (s.withHeld q).errOp = s.errOp := rfl
@[simp] theorem State.withHeld_errInfo0 (q : List HostAccess) : (s.withHeld q).errInfo0 = s.errInfo0 := rfl
@[simp] theorem State.withHeld_errInfo1 (q : List HostAccess) : (s.withHeld q).errInfo1 = s.errInfo1 := rfl
@[simp] theorem State.withHeld_result0 (q : List HostAccess) : (s.withHeld q).result0 = s.result0 := rfl
@[simp] theorem State.withHeld_args (q : List HostAccess) : (s.withHeld q).args = s.args := rfl
@[simp] theorem State.withHeld_phase (q : List HostAccess) : (s.withHeld q).phase = s.phase := rfl
@[simp] theorem State.withHeld_snap (q : List HostAccess) : (s.withHeld q).snap = s.snap := rfl
@[simp] theorem State.withHeld_dmem (q : List HostAccess) : (s.withHeld q).dmem = s.dmem := rfl
@[simp] theorem State.withHeld_held (q : List HostAccess) : (s.withHeld q).held = q := rfl
@[simp] theorem State.withHeld_port (q : List HostAccess) : (s.withHeld q).port = s.port := rfl
@[simp] theorem State.withHeld_answers (q : List HostAccess) : (s.withHeld q).answers = s.answers := rfl
@[simp] theorem State.withHeld_draws (q : List HostAccess) : (s.withHeld q).draws = s.draws := rfl

/-! ### `State.withDmem` -/

@[simp] theorem State.withDmem_cmd (m : Mem) : (s.withDmem m).cmd = s.cmd := rfl
@[simp] theorem State.withDmem_done (m : Mem) : (s.withDmem m).done = s.done := rfl
@[simp] theorem State.withDmem_err (m : Mem) : (s.withDmem m).err = s.err := rfl
@[simp] theorem State.withDmem_ovr (m : Mem) : (s.withDmem m).ovr = s.ovr := rfl
@[simp] theorem State.withDmem_doneIe (m : Mem) : (s.withDmem m).doneIe = s.doneIe := rfl
@[simp] theorem State.withDmem_errIe (m : Mem) : (s.withDmem m).errIe = s.errIe := rfl
@[simp] theorem State.withDmem_ovrIe (m : Mem) : (s.withDmem m).ovrIe = s.ovrIe := rfl
@[simp] theorem State.withDmem_errCode (m : Mem) : (s.withDmem m).errCode = s.errCode := rfl
@[simp] theorem State.withDmem_errOp (m : Mem) : (s.withDmem m).errOp = s.errOp := rfl
@[simp] theorem State.withDmem_errInfo0 (m : Mem) : (s.withDmem m).errInfo0 = s.errInfo0 := rfl
@[simp] theorem State.withDmem_errInfo1 (m : Mem) : (s.withDmem m).errInfo1 = s.errInfo1 := rfl
@[simp] theorem State.withDmem_result0 (m : Mem) : (s.withDmem m).result0 = s.result0 := rfl
@[simp] theorem State.withDmem_args (m : Mem) : (s.withDmem m).args = s.args := rfl
@[simp] theorem State.withDmem_phase (m : Mem) : (s.withDmem m).phase = s.phase := rfl
@[simp] theorem State.withDmem_snap (m : Mem) : (s.withDmem m).snap = s.snap := rfl
@[simp] theorem State.withDmem_dmem (m : Mem) : (s.withDmem m).dmem = m := rfl
@[simp] theorem State.withDmem_held (m : Mem) : (s.withDmem m).held = s.held := rfl
@[simp] theorem State.withDmem_port (m : Mem) : (s.withDmem m).port = s.port := rfl
@[simp] theorem State.withDmem_answers (m : Mem) : (s.withDmem m).answers = s.answers := rfl
@[simp] theorem State.withDmem_draws (m : Mem) : (s.withDmem m).draws = s.draws := rfl

/-! ### `State.withArgs` -/

@[simp] theorem State.withArgs_cmd (a : Args) : (s.withArgs a).cmd = s.cmd := rfl
@[simp] theorem State.withArgs_done (a : Args) : (s.withArgs a).done = s.done := rfl
@[simp] theorem State.withArgs_err (a : Args) : (s.withArgs a).err = s.err := rfl
@[simp] theorem State.withArgs_ovr (a : Args) : (s.withArgs a).ovr = s.ovr := rfl
@[simp] theorem State.withArgs_doneIe (a : Args) : (s.withArgs a).doneIe = s.doneIe := rfl
@[simp] theorem State.withArgs_errIe (a : Args) : (s.withArgs a).errIe = s.errIe := rfl
@[simp] theorem State.withArgs_ovrIe (a : Args) : (s.withArgs a).ovrIe = s.ovrIe := rfl
@[simp] theorem State.withArgs_errCode (a : Args) : (s.withArgs a).errCode = s.errCode := rfl
@[simp] theorem State.withArgs_errOp (a : Args) : (s.withArgs a).errOp = s.errOp := rfl
@[simp] theorem State.withArgs_errInfo0 (a : Args) : (s.withArgs a).errInfo0 = s.errInfo0 := rfl
@[simp] theorem State.withArgs_errInfo1 (a : Args) : (s.withArgs a).errInfo1 = s.errInfo1 := rfl
@[simp] theorem State.withArgs_result0 (a : Args) : (s.withArgs a).result0 = s.result0 := rfl
@[simp] theorem State.withArgs_args (a : Args) : (s.withArgs a).args = a := rfl
@[simp] theorem State.withArgs_phase (a : Args) : (s.withArgs a).phase = s.phase := rfl
@[simp] theorem State.withArgs_snap (a : Args) : (s.withArgs a).snap = s.snap := rfl
@[simp] theorem State.withArgs_dmem (a : Args) : (s.withArgs a).dmem = s.dmem := rfl
@[simp] theorem State.withArgs_held (a : Args) : (s.withArgs a).held = s.held := rfl
@[simp] theorem State.withArgs_port (a : Args) : (s.withArgs a).port = s.port := rfl
@[simp] theorem State.withArgs_answers (a : Args) : (s.withArgs a).answers = s.answers := rfl
@[simp] theorem State.withArgs_draws (a : Args) : (s.withArgs a).draws = s.draws := rfl

/-! ### `State.withDrawn` -/

@[simp] theorem State.withDrawn_cmd (m : Mem) : (s.withDrawn m).cmd = s.cmd := rfl
@[simp] theorem State.withDrawn_done (m : Mem) : (s.withDrawn m).done = s.done := rfl
@[simp] theorem State.withDrawn_err (m : Mem) : (s.withDrawn m).err = s.err := rfl
@[simp] theorem State.withDrawn_ovr (m : Mem) : (s.withDrawn m).ovr = s.ovr := rfl
@[simp] theorem State.withDrawn_doneIe (m : Mem) : (s.withDrawn m).doneIe = s.doneIe := rfl
@[simp] theorem State.withDrawn_errIe (m : Mem) : (s.withDrawn m).errIe = s.errIe := rfl
@[simp] theorem State.withDrawn_ovrIe (m : Mem) : (s.withDrawn m).ovrIe = s.ovrIe := rfl
@[simp] theorem State.withDrawn_errCode (m : Mem) : (s.withDrawn m).errCode = s.errCode := rfl
@[simp] theorem State.withDrawn_errOp (m : Mem) : (s.withDrawn m).errOp = s.errOp := rfl
@[simp] theorem State.withDrawn_errInfo0 (m : Mem) : (s.withDrawn m).errInfo0 = s.errInfo0 := rfl
@[simp] theorem State.withDrawn_errInfo1 (m : Mem) : (s.withDrawn m).errInfo1 = s.errInfo1 := rfl
@[simp] theorem State.withDrawn_result0 (m : Mem) : (s.withDrawn m).result0 = s.result0 := rfl
@[simp] theorem State.withDrawn_args (m : Mem) : (s.withDrawn m).args = s.args := rfl
@[simp] theorem State.withDrawn_phase (m : Mem) : (s.withDrawn m).phase = s.phase := rfl
@[simp] theorem State.withDrawn_snap (m : Mem) : (s.withDrawn m).snap = s.snap := rfl
@[simp] theorem State.withDrawn_dmem (m : Mem) : (s.withDrawn m).dmem = m := rfl
@[simp] theorem State.withDrawn_held (m : Mem) : (s.withDrawn m).held = s.held := rfl
@[simp] theorem State.withDrawn_port (m : Mem) : (s.withDrawn m).port = s.port := rfl
@[simp] theorem State.withDrawn_answers (m : Mem) : (s.withDrawn m).answers = s.answers := rfl
@[simp] theorem State.withDrawn_draws (m : Mem) : (s.withDrawn m).draws = s.draws + 1 := rfl

/-! ### `State.answer` -/

@[simp] theorem State.answer_cmd (r : Answer) : (s.answer r).cmd = s.cmd := rfl
@[simp] theorem State.answer_done (r : Answer) : (s.answer r).done = s.done := rfl
@[simp] theorem State.answer_err (r : Answer) : (s.answer r).err = s.err := rfl
@[simp] theorem State.answer_ovr (r : Answer) : (s.answer r).ovr = s.ovr := rfl
@[simp] theorem State.answer_doneIe (r : Answer) : (s.answer r).doneIe = s.doneIe := rfl
@[simp] theorem State.answer_errIe (r : Answer) : (s.answer r).errIe = s.errIe := rfl
@[simp] theorem State.answer_ovrIe (r : Answer) : (s.answer r).ovrIe = s.ovrIe := rfl
@[simp] theorem State.answer_errCode (r : Answer) : (s.answer r).errCode = s.errCode := rfl
@[simp] theorem State.answer_errOp (r : Answer) : (s.answer r).errOp = s.errOp := rfl
@[simp] theorem State.answer_errInfo0 (r : Answer) : (s.answer r).errInfo0 = s.errInfo0 := rfl
@[simp] theorem State.answer_errInfo1 (r : Answer) : (s.answer r).errInfo1 = s.errInfo1 := rfl
@[simp] theorem State.answer_result0 (r : Answer) : (s.answer r).result0 = s.result0 := rfl
@[simp] theorem State.answer_args (r : Answer) : (s.answer r).args = s.args := rfl
@[simp] theorem State.answer_phase (r : Answer) : (s.answer r).phase = s.phase := rfl
@[simp] theorem State.answer_snap (r : Answer) : (s.answer r).snap = s.snap := rfl
@[simp] theorem State.answer_dmem (r : Answer) : (s.answer r).dmem = s.dmem := rfl
@[simp] theorem State.answer_held (r : Answer) : (s.answer r).held = s.held := rfl
@[simp] theorem State.answer_port (r : Answer) : (s.answer r).port = s.port := rfl
@[simp] theorem State.answer_answers (r : Answer) : (s.answer r).answers = s.answers ++ [r] := rfl
@[simp] theorem State.answer_draws (r : Answer) : (s.answer r).draws = s.draws := rfl

end Sys2Proof.Machine
end

