-- ==== Sys2Proof/Laws/Operands.lean ====
section
/-! SUPPORT. What the checks of a command accept, and everything a command step can do, said once: a failure, the fault of an unwritten byte, or a success. -/

namespace Sys2Proof.Machine

open Sys2Proof.Safety

/-! ### Checks -/

/-- A transform length passes exactly when it is a power of two up to `2^20` (41 R175). -/
theorem checkLen_none_iff (n : Word) : checkLen n = none ↔ ∃ l, l ≤ Config.maxLog2N ∧ n.toNat = 2 ^ l := by
  have hp := Nat.ne_zero_and_sub_one_eq_zero_iff_isPowerOfTwo (n := n.toNat)
  unfold checkLen
  constructor
  · intro h
    split at h
    · cases h
    · next hn =>
      simp only [not_or, not_not, Nat.not_lt] at hn
      obtain ⟨l, hl⟩ := hp.mp ⟨hn.1, hn.2.1⟩
      exact ⟨l, (Nat.pow_le_pow_iff_right (by omega)).mp (hl ▸ hn.2.2), hl⟩
  · rintro ⟨l, hl, hn⟩
    obtain ⟨h₀, h₁⟩ := hp.mpr ⟨l, hn⟩
    rw [if_neg]
    have := Nat.pow_le_pow_right (n := 2) (by omega) hl
    simp only [not_or, not_not, Nat.not_lt]
    exact ⟨h₀, h₁, hn ▸ this⟩

theorem checkRegion_none_iff (r : Region) : checkRegion r = none ↔ regionOk r := by
  unfold checkRegion regionOk
  by_cases h₁ : Config.dmemSize < r.base + r.size <;> by_cases h₂ : r.base % r.align = 0 <;> (simp [h₁, h₂]; try omega)

theorem checkRegions_none_iff (rs : List Region) : checkRegions rs = none ↔ ∀ r ∈ rs, regionOk r := by
  induction rs with
  | nil => simp [checkRegions]
  | cons r rs ih =>
    rw [checkRegions]
    cases h : checkRegion r with
    | none =>
      have hr := (checkRegion_none_iff r).mp h
      rw [List.forall_mem_cons]
      exact ⟨fun hq => ⟨hr, ih.mp hq⟩, fun hq => ih.mpr hq.2⟩
    | some f =>
      have : ¬regionOk r := fun hr => by simp [(checkRegion_none_iff r).mpr hr] at h
      rw [List.forall_mem_cons]
      exact ⟨fun hn => (nomatch hn), fun hq => absurd hq.1 this⟩

theorem checkAgainst_none_iff (i : Instr) (p : Region) (qs : List Region) :
    checkAgainst i p qs = none ↔ ∀ q ∈ qs, forbiddenPair i p q = false := by
  induction qs with
  | nil => simp [checkAgainst]
  | cons q qs ih => by_cases h : forbiddenPair i p q = true <;> simp [checkAgainst, h, ih]

theorem checkOverlaps_none_iff (i : Instr) (rs : List Region) :
    checkOverlaps i rs = none ↔ rs.Pairwise (fun p q => forbiddenPair i p q = false) := by
  induction rs with
  | nil => simp [checkOverlaps]
  | cons p rs ih =>
    rw [checkOverlaps, List.pairwise_cons]
    cases h : checkAgainst i p rs with
    | none =>
      have hq := (checkAgainst_none_iff i p rs).mp h
      simp only [ih]
      exact ⟨fun hp => ⟨hq, hp⟩, fun hp => hp.2⟩
    | some f =>
      have : ¬∀ q ∈ rs, forbiddenPair i p q = false := fun hq => by
        simp [(checkAgainst_none_iff i p rs).mpr hq] at h
      simp [this]

/-- Overlap is having a byte in common. -/
theorem overlaps_iff (p q : Region) : p.overlaps q = true ↔ ∃ x, inRegion x p ∧ inRegion x q := by
  simp only [Region.overlaps, decide_eq_true_eq, inRegion]
  exact ⟨fun h => ⟨max p.base q.base, by omega, by omega⟩, fun ⟨x, h₁, h₂⟩ => by omega⟩

/-- Two regions that do not intersect are never a forbidden pair. -/
theorem forbiddenPair_of_disjoint (i : Instr) {p q : Region} (h : disjoint p.base p.size q.base q.size) :
    forbiddenPair i p q = false := by
  have : p.overlaps q = false := by
    rw [Bool.eq_false_iff, ne_eq, overlaps_iff]
    rintro ⟨x, h₁, h₂⟩
    omega
  simp [forbiddenPair, this]

/-- The pair test is the forbidden pair of 40 R125. -/
theorem forbiddenPair_iff (i : Instr) (p q : Region) : forbiddenPair i p q = true ↔ forbidden i p q := by
  rw [forbidden, ← overlaps_iff]
  simp [forbiddenPair, Region.written, inPlaceAllowed]
  tauto

theorem forbiddenPair_eq_false_iff (i : Instr) (p q : Region) : forbiddenPair i p q = false ↔ ¬forbidden i p q := by
  rw [← forbiddenPair_iff, Bool.not_eq_true]

/-- Regions that pass are skipped. -/
theorem checkRegions_append {pre rs : List Region} (h : ∀ p ∈ pre, regionOk p) :
    checkRegions (pre ++ rs) = checkRegions rs := by
  induction pre with
  | nil => rfl
  | cons p pre ih =>
    rw [List.cons_append, checkRegions, (checkRegion_none_iff p).mpr (h p (by simp))]
    exact ih (fun q hq => h q (by simp [hq]))

/-- Regions that may meet `p` are skipped. -/
theorem checkAgainst_append {i : Instr} {p : Region} {mid l : List Region} (h : ∀ b ∈ mid, forbiddenPair i p b = false) :
    checkAgainst i p (mid ++ l) = checkAgainst i p l := by
  induction mid with
  | nil => rfl
  | cons b mid ih =>
    rw [List.cons_append, checkAgainst, if_neg (by simp [h b (by simp)])]
    exact ih (fun c hc => h c (by simp [hc]))

/-- Regions that no later region meets wrongly are skipped. -/
theorem checkOverlaps_append {i : Instr} {pre l : List Region}
    (h : (pre ++ l).Pairwise (fun a b => a ∈ pre → forbiddenPair i a b = false)) :
    checkOverlaps i (pre ++ l) = checkOverlaps i l := by
  induction pre with
  | nil => rfl
  | cons p pre ih =>
    rw [List.cons_append, List.pairwise_cons] at h
    rw [List.cons_append, checkOverlaps, (checkAgainst_none_iff i p _).mpr (fun q hq => h.1 q hq (by simp))]
    exact ih (h.2.imp fun hh hm => hh (by simp [hm]))

/-- A command passes every check exactly when its parameters do, its regions do and no pair is forbidden. -/
theorem checkCommand_ok_iff (i : Instr) (a : Args) (rs : List Region) :
    checkCommand i a = .ok rs ↔
      commandRegions i a = .ok rs ∧ (∀ r ∈ rs, regionOk r) ∧ rs.Pairwise (fun p q => forbiddenPair i p q = false) := by
  unfold checkCommand
  cases commandRegions i a with
  | error f => simp
  | ok rs' =>
    simp only [Except.ok.injEq]
    cases h₁ : checkRegions rs' with
    | some f =>
      simp only [reduceCtorEq, false_iff, not_and]
      rintro rfl hr
      simp [(checkRegions_none_iff _).mpr hr] at h₁
    | none =>
      have hr := (checkRegions_none_iff _).mp h₁
      cases h₂ : checkOverlaps i rs' with
      | some f =>
        simp only [reduceCtorEq, false_iff, not_and]
        rintro rfl - hp
        simp [(checkOverlaps_none_iff i _).mpr hp] at h₂
      | none =>
        have hp := (checkOverlaps_none_iff i _).mp h₂
        simp only [Except.ok.injEq]
        constructor
        · rintro rfl; exact ⟨rfl, hr, hp⟩
        · exact fun h => h.1

theorem checkCommand_of_regions {i : Instr} {a : Args} {rs : List Region} (h : commandRegions i a = .ok rs)
    (hr : ∀ r ∈ rs, regionOk r) (hp : rs.Pairwise (fun p q => forbiddenPair i p q = false)) :
    checkCommand i a = .ok rs := (checkCommand_ok_iff i a rs).mpr ⟨h, hr, hp⟩

/-! ### The command step -/

/-- The computation of each command. -/
def computeOf (i : Instr) (a : Args) : Mem → Option (Except Failure Results) :=
  match i with
  | .fft => fftCompute a
  | .fftR => fftRCompute a
  | .ifft => ifftCompute a
  | .acorr => acorrCompute a
  | .levdur => levdurCompute a
  | .iirsyn => iirsynCompute a
  | .resample => resampleCompute a
  | .cepstrum => cepstrumCompute a
  | .vqnear => vqnearCompute a

/-- Every command is the shared shape around its own computation. -/
theorem exec_eq_runCommand (i : Instr) (s : State) : exec i s = runCommand i s (computeOf i s.snap.args) := by
  cases i <;> rfl

/-- A command that fails a check fails with that error. -/
theorem exec_of_check_error {i : Instr} {s : State} {f : Failure} (h : checkCommand i s.snap.args = .error f) :
    exec i s = .next (s.fail f) := by
  rw [exec_eq_runCommand, runCommand, h]

/-- A command that passes its checks and computes results stores them and completes. -/
theorem exec_of_results {i : Instr} {s : State} {rs : List Region} {r : Results}
    (h : checkCommand i s.snap.args = .ok rs) (hc : computeOf i s.snap.args s.dmem = some (.ok r)) :
    exec i s = .next (succeeded s (Mem.writeBlocks s.dmem r.blocks) r.count) := by
  rw [exec_eq_runCommand, runCommand, h]
  simp only [hc]
  rfl

/-- A command that passes its checks and fails in its computation fails with that error. -/
theorem exec_of_compute_error {i : Instr} {s : State} {rs : List Region} {f : Failure}
    (h : checkCommand i s.snap.args = .ok rs) (hc : computeOf i s.snap.args s.dmem = some (.error f)) :
    exec i s = .next (s.fail f) := by
  rw [exec_eq_runCommand, runCommand, h]
  simp only [hc]

/-- A command that passes its checks and needs an unwritten byte faults. -/
theorem exec_of_unwritten {i : Instr} {s : State} {rs : List Region} (h : checkCommand i s.snap.args = .ok rs)
    (hc : computeOf i s.snap.args s.dmem = none) : exec i s = .fault .unwrittenRead := by
  rw [exec_eq_runCommand, runCommand, h]
  simp only [hc]

/-- Everything a command step can do: fail a check, or pass every check and then fail in its computation, fault on an unwritten
byte, or store its results and complete. -/
theorem exec_cases (i : Instr) (s : State) :
    (∃ f, checkCommand i s.snap.args = .error f ∧ exec i s = .next (s.fail f)) ∨
    ∃ rs, checkCommand i s.snap.args = .ok rs ∧
      ((∃ f, computeOf i s.snap.args s.dmem = some (.error f) ∧ exec i s = .next (s.fail f)) ∨
      (computeOf i s.snap.args s.dmem = none ∧ exec i s = .fault .unwrittenRead) ∨
      ∃ r, computeOf i s.snap.args s.dmem = some (.ok r) ∧
        exec i s = .next (succeeded s (Mem.writeBlocks s.dmem r.blocks) r.count)) := by
  cases h : checkCommand i s.snap.args with
  | error f => exact .inl ⟨f, rfl, exec_of_check_error h⟩
  | ok rs =>
    refine .inr ⟨rs, rfl, ?_⟩
    cases hc : computeOf i s.snap.args s.dmem with
    | none => exact .inr (.inl ⟨rfl, exec_of_unwritten h hc⟩)
    | some e =>
      cases e with
      | error f => exact .inl ⟨f, rfl, exec_of_compute_error h hc⟩
      | ok r => exact .inr (.inr ⟨r, rfl, exec_of_results h hc⟩)

/-- No command is refused. -/
theorem exec_not_refused (i : Instr) (s : State) (r : Refusal) : exec i s ≠ .refused r := by
  rcases exec_cases i s with ⟨f, -, h⟩ | ⟨rs, -, ⟨f, -, h⟩ | ⟨-, h⟩ | ⟨r', -, h⟩⟩ <;> simp [h]

/-! ### Lengths of what is stored -/

@[simp] theorem twiddled_length (m k : Nat) (os : List Cplx) : (twiddled m k os).length = os.length := by
  induction os generalizing k with
  | nil => rfl
  | cons o os ih => simp [twiddled, ih]

@[simp] theorem combine_length (m : Nat) (es os : List Cplx) :
    (combine m es os).length = min es.length os.length + min es.length os.length := by
  simp [combine]

theorem evens_length {α : Type} : ∀ xs : List α, (evens xs).length = (xs.length + 1) / 2
  | [] => by simp [evens]
  | [_] => by simp [evens]
  | _ :: _ :: xs => by simp [evens, evens_length xs]; omega

theorem odds_length {α : Type} : ∀ xs : List α, (odds xs).length = xs.length / 2
  | [] => by simp [odds]
  | [_] => by simp [odds]
  | _ :: _ :: xs => by simp [odds, odds_length xs]; try omega

theorem fftLevels_length (l : Nat) (xs : List Cplx) (h : xs.length = 2 ^ l) : (fftLevels l xs).length = 2 ^ l := by
  induction l generalizing xs with
  | zero => simpa [fftLevels] using h
  | succ l ih =>
    have hp : 2 ^ (l + 1) = 2 ^ l + 2 ^ l := by ring
    rw [fftLevels, combine_length, ih _ (by rw [evens_length]; omega), ih _ (by rw [odds_length]; omega)]
    omega

theorem fftCore_length {l : Nat} (xs : List Cplx) (h : xs.length = 2 ^ l) : (fftCore xs).length = 2 ^ l := by
  rw [fftCore, h, Nat.log2_two_pow]
  exact fftLevels_length l xs h

theorem ifftCore_length {l : Nat} (n : Nat) (xs : List Cplx) (h : xs.length = 2 ^ l) :
    (ifftCore n xs).length = 2 ^ l := by
  rw [ifftCore, List.length_map]
  exact fftCore_length _ (by simpa using h)

@[simp] theorem lagSums_length (s xs : List F64) : (lagSums s xs).length = xs.length := by
  induction xs with
  | nil => rfl
  | cons x xs ih => simp [lagSums, ih]

@[simp] theorem iirFilter_length (g : F64) (cs d xs : List F64) : (iirFilter g cs d xs).length = xs.length := by
  induction xs generalizing d with
  | nil => rfl
  | cons x xs ih => simp [iirFilter, ih]

@[simp] theorem resampleFrom_length (xs : List F64) (n : Nat) (ratio : F64) (i l : Nat) :
    (resampleFrom xs n ratio i l).length = l := by
  induction l generalizing i with
  | zero => rfl
  | succ l ih => simp [resampleFrom, ih]

@[simp] theorem rows_length (d n : Nat) (xs : List F64) : (rows d n xs).length = n := by
  induction n generalizing xs with
  | zero => rfl
  | succ n ih => simp [rows, ih]

theorem levinsonSteps_length {R : List F64} {n m : Nat} {a es cs fs : List F64} {e : F64}
    (h : levinsonSteps R n m a es e = .ok (cs, fs)) (ha : 0 < a.length) :
    cs.length = a.length + n ∧ fs.length = es.length + n + 1 := by
  induction n generalizing m a es e with
  | zero =>
    simp only [levinsonSteps] at h
    split at h
    · cases h; simp
    · cases h
  | succ n ih =>
    simp only [levinsonSteps] at h
    split at h
    · have hu : (updateCoefficients a (reflection R m a e)).length = a.length + 1 := by
        simp [updateCoefficients]; omega
      have := ih h (by omega)
      simp only [List.length_append, List.length_singleton] at this
      omega
    · cases h

theorem levinsonDurbin_length {R : List F64} {p : Nat} {cs fs : List F64} (h : levinsonDurbin R p = .ok (cs, fs)) :
    cs.length = p + 1 ∧ fs.length = p + 1 := by
  have := levinsonSteps_length h (by simp)
  simp at this
  omega

end Sys2Proof.Machine
end

