-- ==== Sys2Proof/Laws/Commands.lean ====
section
/-! SUPPORT. What each command's computation does to memory: the blocks it stores are its written regions, it answers `none` exactly when a byte it reads is unwritten, and which failures a command can report. -/

namespace Sys2Proof.Machine

open Sys2Proof.Safety

/-! ### The transform's sizes -/

theorem fftCore_map_length {α : Type} (f : α → Cplx) {l n : Nat} (xs : List α) (hn : n = 2 ^ l) (h : xs.length = n) :
    (fftCore (xs.map f)).length = n := by
  rw [hn]
  exact fftCore_length (l := l) _ (by rw [List.length_map, h, hn])

theorem cepstrumOf_length (eps : F64) {n l : Nat} (xs : List F64) (hn : n = 2 ^ l) (h : xs.length = n) :
    (cepstrumOf eps n xs).length = n := by
  rw [cepstrumOf, hn, ifftCore_length (l := l)]
  rw [List.length_map, fftCore_map_length (l := l) _ xs hn h, hn]

/-! ### The regions of each command -/

theorem fftRegions_ok {a : Args} {rs : List Region} (h : fftRegions a = .ok rs) :
    checkLen a.len0 = none ∧
      rs = [⟨0, a.src0.toNat, 16 * a.len0.toNat, 8, .input⟩, ⟨2, a.dst0.toNat, 16 * a.len0.toNat, 8, .output⟩] := by
  unfold fftRegions at h
  split at h
  · cases h
  · next hc => exact ⟨hc, (Except.ok.inj h).symm⟩

theorem ifftRegions_ok {a : Args} {rs : List Region} (h : ifftRegions a = .ok rs) :
    checkLen a.len0 = none ∧
      rs = [⟨0, a.src0.toNat, 16 * a.len0.toNat, 8, .input⟩, ⟨2, a.dst0.toNat, 16 * a.len0.toNat, 8, .output⟩] := by
  unfold ifftRegions at h
  split at h
  · cases h
  · next hc => exact ⟨hc, (Except.ok.inj h).symm⟩

theorem fftRRegions_ok {a : Args} {rs : List Region} (h : fftRRegions a = .ok rs) :
    checkLen a.len0 = none ∧
      rs = [⟨0, a.src0.toNat, 8 * a.len0.toNat, 8, .input⟩, ⟨2, a.dst0.toNat, 16 * a.len0.toNat, 8, .output⟩] := by
  unfold fftRRegions at h
  split at h
  · cases h
  · next hc => exact ⟨hc, (Except.ok.inj h).symm⟩

theorem acorrRegions_ok {a : Args} {rs : List Region} (h : acorrRegions a = .ok rs) :
    a.len0.toNat ≠ 0 ∧
      rs = [⟨0, a.src0.toNat, 8 * a.len0.toNat, 8, .input⟩, ⟨2, a.dst0.toNat, 8 * a.len0.toNat, 8, .output⟩] := by
  unfold acorrRegions at h
  split at h
  · cases h
  · next hc => exact ⟨hc, (Except.ok.inj h).symm⟩

theorem levdurRegions_ok {a : Args} {rs : List Region} (h : levdurRegions a = .ok rs) :
    (a.len0.toNat ≠ 0 ∧ a.len1.toNat ≤ Config.maxOrder ∧ a.len1.toNat + 1 ≤ a.len0.toNat) ∧
      rs = [⟨0, a.src0.toNat, 8 * (a.len1.toNat + 1), 8, .input⟩,
            ⟨2, a.dst0.toNat, 8 * (a.len1.toNat + 1), 8, .output⟩,
            ⟨3, a.dst1.toNat, 8 * (a.len1.toNat + 1), 8, .output⟩] := by
  unfold levdurRegions at h
  split at h
  · cases h
  · split at h
    · cases h
    · split at h
      · cases h
      · next h₀ h₁ h₂ => exact ⟨⟨h₀, by omega, by omega⟩, (Except.ok.inj h).symm⟩

theorem iirsynRegions_ok {a : Args} {rs : List Region} (h : iirsynRegions a = .ok rs) :
    (a.len0.toNat ≠ 0 ∧ a.len1.toNat ≤ Config.maxOrder) ∧
      rs = [⟨0, a.src0.toNat, 8 * a.len0.toNat, 8, .input⟩,
            ⟨1, a.src1.toNat, 8 * (a.len1.toNat + 1), 8, .input⟩,
            ⟨2, a.dst0.toNat, 8 * a.len0.toNat, 8, .output⟩] := by
  unfold iirsynRegions at h
  split at h
  · cases h
  · split at h
    · cases h
    · next h₀ h₁ => exact ⟨⟨h₀, by omega⟩, (Except.ok.inj h).symm⟩

theorem resampleRegions_ok {a : Args} {rs : List Region} (h : resampleRegions a = .ok rs) :
    (a.len0.toNat ≠ 0 ∧ resampleLength a ≤ a.len1.toNat) ∧
      rs = [⟨0, a.src0.toNat, 8 * a.len0.toNat, 8, .input⟩, ⟨2, a.dst0.toNat, 8 * resampleLength a, 8, .output⟩] := by
  unfold resampleRegions at h
  repeat' split at h
  all_goals first
    | cases h; done
    | next h₀ _ _ _ _ h₁ => exact ⟨⟨h₀, by omega⟩, (Except.ok.inj h).symm⟩

theorem cepstrumRegions_ok {a : Args} {rs : List Region} (h : cepstrumRegions a = .ok rs) :
    (checkLen a.len0 = none ∧ a.len1.toNat ≠ 0 ∧ a.len1.toNat ≤ a.len0.toNat) ∧
      rs = [⟨0, a.src0.toNat, 8 * a.len0.toNat, 8, .input⟩,
            ⟨2, a.dst0.toNat, 8 * a.len1.toNat, 8, .output⟩,
            ⟨4, a.scr.toNat, 16 * a.len0.toNat, 8, .scratch⟩] := by
  unfold cepstrumRegions at h
  repeat' split at h
  all_goals first
    | cases h; done
    | next h₀ h₁ => exact ⟨⟨‹_›, by omega, by omega⟩, (Except.ok.inj h).symm⟩

theorem vqnearRegions_ok {a : Args} {rs : List Region} (h : vqnearRegions a = .ok rs) :
    (a.len0.toNat ≠ 0 ∧ a.len1.toNat ≠ 0 ∧ a.len2.toNat ≠ 0 ∧ a.len1.toNat ≤ 2 ^ 32) ∧
      rs = [⟨0, a.src0.toNat, 8 * (a.len0.toNat * a.len2.toNat), 8, .input⟩,
            ⟨1, a.src1.toNat, 8 * (a.len1.toNat * a.len2.toNat), 8, .input⟩,
            ⟨2, a.dst0.toNat, 4 * a.len0.toNat, 4, .output⟩] := by
  unfold vqnearRegions at h
  repeat' split at h
  all_goals first
    | cases h; done
    | exact ⟨⟨‹_›, ‹_›, ‹_›, by omega⟩, (Except.ok.inj h).symm⟩

/-! ### The blocks a command stores -/

/-- Every block a command stores fills one of its written regions. -/
theorem blocks_fill_regions {i : Instr} {a : Args} {m : Mem} {rs : List Region} {r : Results}
    (hr : commandRegions i a = .ok rs) (hc : computeOf i a m = some (.ok r)) :
    ∀ b ∈ r.blocks, ∃ q ∈ rs, q.written = true ∧ q.base = b.1 ∧ q.size = b.2.length := by
  cases i with
  | fft =>
    obtain ⟨hl, rfl⟩ := fftRegions_ok hr
    obtain ⟨l, -, hl⟩ := (checkLen_none_iff _).mp hl
    simp only [computeOf, fftCompute] at hc
    split at hc
    · cases hc
    · next xs hx =>
      cases hc
      have hlen := loadComplexes_length hx
      have hf : (fftCore xs).length = a.len0.toNat := by rw [hl]; exact fftCore_length xs (by omega)
      simp [Region.written, hf]
  | ifft =>
    obtain ⟨hl, rfl⟩ := ifftRegions_ok hr
    obtain ⟨l, -, hl⟩ := (checkLen_none_iff _).mp hl
    simp only [computeOf, ifftCompute] at hc
    split at hc
    · cases hc
    · next xs hx =>
      cases hc
      have hlen := loadComplexes_length hx
      have hf : (ifftCore a.len0.toNat xs).length = a.len0.toNat := by
        rw [ifftCore_length (l := l) _ xs (by omega), hl]
      simp [Region.written, hf]
  | fftR =>
    obtain ⟨hl, rfl⟩ := fftRRegions_ok hr
    obtain ⟨l, -, hl⟩ := (checkLen_none_iff _).mp hl
    simp only [computeOf, fftRCompute] at hc
    split at hc
    · cases hc
    · next xs hx =>
      cases hc
      have hf := fftCore_map_length ofReal xs hl (loadReals_length hx)
      simp [Region.written, hf]
  | acorr =>
    obtain ⟨-, rfl⟩ := acorrRegions_ok hr
    simp only [computeOf, acorrCompute] at hc
    split at hc
    · cases hc
    · next xs hx =>
      cases hc
      simp [Region.written, autocorrelate, loadReals_length hx]
  | levdur =>
    obtain ⟨-, rfl⟩ := levdurRegions_ok hr
    simp only [computeOf, levdurCompute] at hc
    split at hc
    · cases hc
    · split at hc
      · cases hc
      · next cs es hle =>
        cases hc
        obtain ⟨h₁, h₂⟩ := levinsonDurbin_length hle
        simp [Region.written, h₁, h₂]
  | iirsyn =>
    obtain ⟨-, rfl⟩ := iirsynRegions_ok hr
    simp only [computeOf, iirsynCompute] at hc
    split at hc
    · next xs cs hx hcs =>
      cases hc
      simp [Region.written, iirSynthesize, loadReals_length hx]
    · cases hc
  | resample =>
    obtain ⟨-, rfl⟩ := resampleRegions_ok hr
    simp only [computeOf, resampleCompute] at hc
    split at hc
    · cases hc
    · cases hc
      simp [Region.written]
  | cepstrum =>
    obtain ⟨⟨hl, -, hn⟩, rfl⟩ := cepstrumRegions_ok hr
    obtain ⟨l, -, hl⟩ := (checkLen_none_iff _).mp hl
    simp only [computeOf, cepstrumCompute] at hc
    split at hc
    · cases hc
    · next xs hx =>
      cases hc
      have hf := cepstrumOf_length a.cepEps xs hl (loadReals_length hx)
      simp [Region.written, hf, min_eq_left hn]
  | vqnear =>
    obtain ⟨-, rfl⟩ := vqnearRegions_ok hr
    simp only [computeOf, vqnearCompute] at hc
    split at hc
    · cases hc
      simp [Region.written]
    · cases hc

/-! ### The bytes a command reads -/

/-- A byte a command reads: in an `in` region, but for the first coefficient of `IIRSYN` (43 R210). -/
def readsByte (i : Instr) (rs : List Region) (x : Nat) : Prop :=
  ∃ r ∈ rs, r.role = .input ∧ inRegion x r ∧ ¬(i = .iirsyn ∧ r.index = 1 ∧ x < r.base + 8)

/-- A computation needs exactly the bytes the command reads. -/
theorem computeOf_none_iff {i : Instr} {a : Args} {m : Mem} {rs : List Region} (hr : commandRegions i a = .ok rs) :
    computeOf i a m = none ↔ ∃ x, readsByte i rs x ∧ Mem.readByte m x = none := by
  have hreals : ∀ b n, loadReals m b n = none ↔ ∃ x, (b ≤ x ∧ x < b + 8 * n) ∧ Mem.readByte m x = none := by
    intro b n
    refine ⟨fun h => ?_, fun ⟨x, hx, h⟩ => loadReals_none hx.1 hx.2 h⟩
    by_contra hn
    obtain ⟨xs, hxs⟩ := loadReals_isSome (m := m) (a := b) (n := n) (fun x h₁ h₂ h₃ => hn ⟨x, ⟨h₁, h₂⟩, h₃⟩)
    rw [hxs] at h
    cases h
  have hcplx : ∀ b n, loadComplexes m b n = none ↔ ∃ x, (b ≤ x ∧ x < b + 16 * n) ∧ Mem.readByte m x = none := by
    intro b n
    refine ⟨fun h => ?_, fun ⟨x, hx, h⟩ => loadComplexes_none hx.1 hx.2 h⟩
    by_contra hn
    obtain ⟨xs, hxs⟩ := loadComplexes_isSome (m := m) (a := b) (n := n) (fun x h₁ h₂ h₃ => hn ⟨x, ⟨h₁, h₂⟩, h₃⟩)
    rw [hxs] at h
    cases h
  cases i with
  | fft =>
    obtain ⟨-, rfl⟩ := fftRegions_ok hr
    simp only [computeOf, fftCompute, readsByte]
    have := hcplx a.src0.toNat a.len0.toNat
    split <;> simp_all
  | ifft =>
    obtain ⟨-, rfl⟩ := ifftRegions_ok hr
    simp only [computeOf, ifftCompute, readsByte]
    have := hcplx a.src0.toNat a.len0.toNat
    split <;> simp_all
  | fftR =>
    obtain ⟨-, rfl⟩ := fftRRegions_ok hr
    simp only [computeOf, fftRCompute, readsByte]
    have := hreals a.src0.toNat a.len0.toNat
    split <;> simp_all
  | acorr =>
    obtain ⟨-, rfl⟩ := acorrRegions_ok hr
    simp only [computeOf, acorrCompute, readsByte]
    have := hreals a.src0.toNat a.len0.toNat
    split <;> simp_all
  | levdur =>
    obtain ⟨-, rfl⟩ := levdurRegions_ok hr
    simp only [computeOf, levdurCompute, readsByte]
    have := hreals a.src0.toNat (a.len1.toNat + 1)
    split
    · simp_all
    · split <;> simp_all
  | iirsyn =>
    obtain ⟨-, rfl⟩ := iirsynRegions_ok hr
    have h₀ := hreals a.src0.toNat a.len0.toNat
    have h₁ := hreals (a.src1.toNat + 8) a.len1.toNat
    have hn : computeOf .iirsyn a m = none ↔
        loadReals m a.src0.toNat a.len0.toNat = none ∨ loadReals m (a.src1.toNat + 8) a.len1.toNat = none := by
      simp only [computeOf, iirsynCompute]
      cases loadReals m a.src0.toNat a.len0.toNat <;> cases loadReals m (a.src1.toNat + 8) a.len1.toNat <;> simp
    rw [hn, h₀, h₁]
    constructor
    · rintro (⟨x, hx, h⟩ | ⟨x, hx, h⟩)
      · exact ⟨x, ⟨_, List.mem_cons_self, rfl, hx, by simp⟩, h⟩
      · exact ⟨x, ⟨_, List.mem_cons_of_mem _ List.mem_cons_self, rfl, ⟨by simp only; omega, by simp only; omega⟩,
          by simp only [not_and, true_implies]; omega⟩, h⟩
    · rintro ⟨x, ⟨r, hmem, hrole, hin, hnot⟩, h⟩
      simp only [List.mem_cons, List.not_mem_nil, or_false] at hmem
      rcases hmem with rfl | rfl | rfl
      · exact .inl ⟨x, hin, h⟩
      · simp only [inRegion, not_and, true_implies] at hin hnot
        exact .inr ⟨x, by omega, h⟩
      · cases hrole
  | resample =>
    obtain ⟨-, rfl⟩ := resampleRegions_ok hr
    simp only [computeOf, resampleCompute, readsByte]
    have := hreals a.src0.toNat a.len0.toNat
    split <;> simp_all
  | cepstrum =>
    obtain ⟨-, rfl⟩ := cepstrumRegions_ok hr
    simp only [computeOf, cepstrumCompute, readsByte]
    have := hreals a.src0.toNat a.len0.toNat
    split <;> simp_all
  | vqnear =>
    obtain ⟨-, rfl⟩ := vqnearRegions_ok hr
    have h₀ := hreals a.src0.toNat (a.len0.toNat * a.len2.toNat)
    have h₁ := hreals a.src1.toNat (a.len1.toNat * a.len2.toNat)
    have hn : computeOf .vqnear a m = none ↔
        loadReals m a.src0.toNat (a.len0.toNat * a.len2.toNat) = none ∨
          loadReals m a.src1.toNat (a.len1.toNat * a.len2.toNat) = none := by
      simp only [computeOf, vqnearCompute]
      cases loadReals m a.src0.toNat (a.len0.toNat * a.len2.toNat) <;>
        cases loadReals m a.src1.toNat (a.len1.toNat * a.len2.toNat) <;> simp
    rw [hn, h₀, h₁]
    constructor
    · rintro (⟨x, hx, h⟩ | ⟨x, hx, h⟩)
      · exact ⟨x, ⟨_, List.mem_cons_self, rfl, hx, by simp⟩, h⟩
      · exact ⟨x, ⟨_, List.mem_cons_of_mem _ List.mem_cons_self, rfl, hx, by simp⟩, h⟩
    · rintro ⟨x, ⟨r, hmem, hrole, hin, -⟩, h⟩
      simp only [List.mem_cons, List.not_mem_nil, or_false] at hmem
      rcases hmem with rfl | rfl | rfl
      · exact .inl ⟨x, hin, h⟩
      · exact .inr ⟨x, hin, h⟩
      · cases hrole

/-! ### The failures a command can report -/

/-- A failure's code is never `none`, and its result is 0 but for the capacity check of `RESAMPLE` (40 R128, 44 R231). -/
def plainFailure (i : Instr) (f : Failure) : Prop :=
  f.code ≠ .none ∧
    (f.result = 0 ∨ i = .resample ∧ f.code = .invalidRange ∧ f.info0 = offLen1 ∧ f.info1 = f.result)

theorem checkLen_failure {n : Word} {f : Failure} (h : checkLen n = some f) :
    f = { code := .invalidLength, info0 := offLen0, info1 := n } := by
  unfold checkLen at h
  split at h
  · exact (Option.some.inj h).symm
  · cases h

theorem commandRegions_failure {i : Instr} {a : Args} {f : Failure} (h : commandRegions i a = .error f) :
    plainFailure i f := by
  cases i <;>
    simp only [commandRegions, fftRegions, fftRRegions, ifftRegions, acorrRegions, levdurRegions, iirsynRegions,
      resampleRegions, cepstrumRegions, vqnearRegions] at h
  all_goals
    repeat' split at h
    all_goals first
      | cases h; done
      | (cases h; simp [plainFailure, emptyInput, invalidRange]; done)
      | (next hl => rw [checkLen_failure hl] at h; cases h; simp [plainFailure])

theorem checkRegions_failure {i : Instr} {rs : List Region} {f : Failure} (h : checkRegions rs = some f) :
    plainFailure i f := by
  induction rs with
  | nil => cases h
  | cons r rs ih =>
    simp only [checkRegions, checkRegion] at h
    split at h
    · next g hg =>
      cases h
      repeat' split at hg
      all_goals first
        | cases hg; done
        | (cases hg; simp [plainFailure])
    · exact ih h

theorem checkOverlaps_failure {i : Instr} {rs : List Region} {f : Failure} (h : checkOverlaps i rs = some f) :
    plainFailure i f := by
  have hag : ∀ (p : Region) (qs : List Region) (g : Failure), checkAgainst i p qs = some g → plainFailure i g := by
    intro p qs g hg
    induction qs with
    | nil => cases hg
    | cons q qs ih =>
      rw [checkAgainst] at hg
      split at hg
      · cases hg
        simp [plainFailure]
      · exact ih hg
  induction rs with
  | nil => cases h
  | cons p rs ih =>
    rw [checkOverlaps] at h
    split at h
    · next g hg =>
      cases h
      exact hag _ _ _ hg
    · exact ih h

theorem checkCommand_failure {i : Instr} {a : Args} {f : Failure} (h : checkCommand i a = .error f) :
    plainFailure i f := by
  unfold checkCommand at h
  split at h
  · next g hg =>
    cases h
    exact commandRegions_failure hg
  · split at h
    · next g hg =>
      cases h
      exact checkRegions_failure hg
    · split at h
      · next g hg =>
        cases h
        exact checkOverlaps_failure hg
      · cases h

theorem levinsonSteps_failure {i : Instr} {R : List F64} {n m : Nat} {a es : List F64} {e : F64} {f : Failure}
    (h : levinsonSteps R n m a es e = .error f) : plainFailure i f := by
  induction n generalizing m a es e with
  | zero =>
    rw [levinsonSteps] at h
    split at h
    · cases h
    · cases h
      simp [plainFailure, breakdown]
  | succ n ih =>
    rw [levinsonSteps] at h
    split at h
    · exact ih h
    · cases h
      simp [plainFailure, breakdown]

theorem computeOf_failure {i : Instr} {a : Args} {m : Mem} {f : Failure} (h : computeOf i a m = some (.error f)) :
    plainFailure i f := by
  cases i <;>
    simp only [computeOf, fftCompute, fftRCompute, ifftCompute, acorrCompute, levdurCompute, iirsynCompute,
      resampleCompute, cepstrumCompute, vqnearCompute] at h
  case levdur =>
    split at h
    · cases h
    · split at h
      · next g hg =>
        cases h
        exact levinsonSteps_failure hg
      · cases h
  all_goals (split at h <;> cases h)

/-- The regions of a command come in ascending index (40 R122). -/
theorem commandRegions_index {i : Instr} {a : Args} {rs : List Region} (h : commandRegions i a = .ok rs) :
    rs.Pairwise (fun p q => p.index < q.index) := by
  cases i
  · obtain ⟨-, rfl⟩ := fftRegions_ok h; simp
  · obtain ⟨-, rfl⟩ := fftRRegions_ok h; simp
  · obtain ⟨-, rfl⟩ := ifftRegions_ok h; simp
  · obtain ⟨-, rfl⟩ := acorrRegions_ok h; simp
  · obtain ⟨-, rfl⟩ := levdurRegions_ok h; simp
  · obtain ⟨-, rfl⟩ := iirsynRegions_ok h; simp
  · obtain ⟨-, rfl⟩ := resampleRegions_ok h; simp
  · obtain ⟨-, rfl⟩ := cepstrumRegions_ok h; simp
  · obtain ⟨-, rfl⟩ := vqnearRegions_ok h; simp

end Sys2Proof.Machine
end

