-- ==== Sys2Proof/Laws/Algorithms.lean ====
section
/-! SUPPORT. The recursive functions of the commands, entry by entry: each against the indexed form of its rule in Safety.lean. -/

namespace Sys2Proof.Machine

open Sys2Proof.Machine.Float64 Sys2Proof.Safety

/-! ### Entries -/

@[simp] theorem entry_cons_zero (x : F64) (xs : List F64) : entry (x :: xs) 0 = x := rfl

@[simp] theorem entry_cons_succ (x : F64) (xs : List F64) (i : Nat) : entry (x :: xs) (i + 1) = entry xs i := rfl

theorem entry_of_getElem? {xs : List F64} {i : Nat} {x : F64} (h : xs[i]? = some x) : entry xs i = x := by
  simp [entry, List.getD, h]

theorem entry_eq_getElem {xs : List F64} {i : Nat} (h : i < xs.length) : entry xs i = xs[i] := by
  simp [entry, h]

theorem list_eq_map_entry (xs : List F64) : xs = (List.range xs.length).map (entry xs) := by
  apply List.ext_getElem?
  intro i
  by_cases h : i < xs.length <;> simp [h, entry]

theorem complexList_eq_map_entry (xs : List Cplx) : xs = (List.range xs.length).map (complexEntry xs) := by
  apply List.ext_getElem?
  intro i
  by_cases h : i < xs.length <;> simp [h, complexEntry]

theorem entry_drop (xs : List F64) (k i : Nat) : entry (xs.drop k) i = entry xs (k + i) := by
  simp [entry, List.getD]

theorem entry_tail (xs : List F64) (i : Nat) : entry xs.tail i = entry xs (i + 1) := by
  cases xs <;> rfl

theorem entry_take {xs : List F64} {k i : Nat} (h : i < k) : entry (xs.take k) i = entry xs i := by
  simp [entry, List.getD, h]

theorem entry_append_left {xs ys : List F64} {i : Nat} (h : i < xs.length) : entry (xs ++ ys) i = entry xs i := by
  simp [entry, List.getD, List.getElem?_append_left h]

theorem entry_append_right {xs ys : List F64} {i : Nat} (h : xs.length ≤ i) :
    entry (xs ++ ys) i = entry ys (i - xs.length) := by
  simp [entry, List.getD, List.getElem?_append_right h]

theorem entry_reverse {xs : List F64} {i : Nat} (h : i < xs.length) :
    entry xs.reverse i = entry xs (xs.length - 1 - i) := by
  simp [entry, List.getD, List.getElem?_reverse h]

theorem entry_zipWith {f : F64 → F64 → F64} {xs ys : List F64} {i : Nat} (h₁ : i < xs.length) (h₂ : i < ys.length) :
    entry (List.zipWith f xs ys) i = f (entry xs i) (entry ys i) := by
  simp [entry, List.getD, h₁, h₂]

theorem entry_map_range {f : Nat → F64} {n i : Nat} (h : i < n) : entry ((List.range n).map f) i = f i := by
  simp [entry, List.getD, h]

theorem foldl_range_succ {α : Type} (f : α → Nat → α) (a : α) (n : Nat) :
    (List.range (n + 1)).foldl f a = (List.range n).foldl (fun b i => f b (i + 1)) (f a 0) := by
  rw [List.range_succ_eq_map, List.foldl_cons, List.foldl_map]

theorem foldl_range_congr {α : Type} {f g : α → Nat → α} (a : α) (n : Nat) (h : ∀ b i, i < n → f b i = g b i) :
    (List.range n).foldl f a = (List.range n).foldl g a :=
  List.foldl_ext _ _ a fun b i hi => h b i (List.mem_range.mp hi)

/-! ### Sums of products -/

/-- `sumProducts` as a loop over the indices both sequences have (40 R139). -/
theorem sumProducts_eq (acc : F64) (xs ys : List F64) :
    sumProducts acc xs ys =
      (List.range (min xs.length ys.length)).foldl (fun b i => fadd b (fmul (entry xs i) (entry ys i))) acc := by
  induction xs generalizing acc ys with
  | nil => simp [sumProducts]
  | cons x xs ih =>
    cases ys with
    | nil => simp [sumProducts]
    | cons y ys =>
      rw [sumProducts, ih, List.length_cons, List.length_cons, Nat.succ_min_succ, foldl_range_succ]
      rfl

theorem subtractProducts_eq (acc : F64) (cs ds : List F64) :
    subtractProducts acc cs ds =
      (List.range (min cs.length ds.length)).foldl (fun b i => fsub b (fmul (entry cs i) (entry ds i))) acc := by
  induction cs generalizing acc ds with
  | nil => simp [subtractProducts]
  | cons x xs ih =>
    cases ds with
    | nil => simp [subtractProducts]
    | cons y ys =>
      rw [subtractProducts, ih, List.length_cons, List.length_cons, Nat.succ_min_succ, foldl_range_succ]
      rfl

theorem distanceFrom_eq (acc : F64) (xs ys : List F64) :
    distanceFrom acc xs ys =
      (List.range (min xs.length ys.length)).foldl
        (fun b i => fadd b (fmul (fsub (entry xs i) (entry ys i)) (fsub (entry xs i) (entry ys i)))) acc := by
  induction xs generalizing acc ys with
  | nil => simp [distanceFrom]
  | cons x xs ih =>
    cases ys with
    | nil => simp [distanceFrom]
    | cons y ys =>
      rw [distanceFrom, ih, List.length_cons, List.length_cons, Nat.succ_min_succ, foldl_range_succ]
      rfl

/-! ### Autocorrelation -/

theorem lagSums_eq (s : List F64) (k : Nat) :
    lagSums s (s.drop k) = (List.range (s.length - k)).map (fun i => lagSum s (k + i)) := by
  generalize hn : s.length - k = n
  induction n generalizing k with
  | zero => rw [List.drop_eq_nil_of_le (by omega)]; rfl
  | succ n ih =>
    rw [List.drop_eq_getElem_cons (by omega : k < s.length), lagSums, ih (k + 1) (by omega), List.range_succ_eq_map,
      List.map_cons, List.map_map]
    congr 1
    · rw [← List.drop_eq_getElem_cons (by omega : k < s.length), sumProducts_eq, lagSum, List.length_drop,
        min_eq_right (by omega)]
      apply foldl_range_congr
      intro b i _
      rw [entry_drop, Nat.add_comm k i, Nat.add_zero]
    · apply List.map_congr_left
      intro i _
      simp only [Function.comp_apply]
      congr 1
      omega

/-- `ACORR`'s result, lag by lag (42 R190). -/
theorem autocorrelate_eq (s : List F64) : autocorrelate s = (List.range s.length).map (lagSum s) := by
  have h := lagSums_eq s 0
  simp only [List.drop_zero, Nat.sub_zero, Nat.zero_add] at h
  exact h

/-! ### Resampling -/

theorem resampleFrom_eq (xs : List F64) (ratio : F64) (i l : Nat) :
    resampleFrom xs xs.length ratio i l = (List.range l).map (fun j => interpolated xs ratio (i + j)) := by
  induction l generalizing i with
  | zero => rfl
  | succ l ih =>
    have htail : (fun j => interpolated xs ratio (i + 1 + j)) = (fun j => interpolated xs ratio (i + j)) ∘ Nat.succ := by
      funext j
      simp only [Function.comp_apply, Nat.succ_eq_add_one, Nat.add_assoc, Nat.add_comm 1 j]
    rw [resampleFrom, ih, List.range_succ_eq_map, List.map_cons, List.map_map, ← htail, Nat.add_zero]
    rfl

/-! ### Vector quantization -/

theorem rows_getElem? (d n : Nat) (xs : List F64) (v : Nat) (h : v < n) :
    (rows d n xs)[v]? = some ((xs.drop (v * d)).take d) := by
  induction n generalizing v xs with
  | zero => omega
  | succ n ih =>
    cases v with
    | zero => simp [rows]
    | succ v =>
      rw [rows, List.getElem?_cons_succ, ih _ _ (by omega), List.drop_drop]
      congr 3
      ring

/-- The distance between two rows (46 R271). -/
theorem distance_rows {F CB : List F64} {d v c : Nat} (hv : (v + 1) * d ≤ F.length) (hc : (c + 1) * d ≤ CB.length) :
    distance ((F.drop (v * d)).take d) ((CB.drop (c * d)).take d) = rowDistance F CB d v c := by
  rw [Nat.succ_mul] at hv hc
  rw [distance, distanceFrom_eq, rowDistance]
  have hl : min ((F.drop (v * d)).take d).length ((CB.drop (c * d)).take d).length = d := by simp; omega
  rw [hl]
  apply foldl_range_congr
  intro b i hi
  rw [entry_take hi, entry_take hi, entry_drop, entry_drop]

theorem searchFrom_eq (v : List F64) (best : Nat) (bestDist : F64) (c : Nat) (ws : List (List F64)) :
    searchFrom v best bestDist c ws =
      ((List.range ws.length).foldl
        (fun b j =>
          if flt (distance v (ws.getD j [])) b.2 then (c + j, distance v (ws.getD j [])) else b) (best, bestDist)).1 := by
  induction ws generalizing best bestDist c with
  | nil => rfl
  | cons w ws ih =>
    rw [searchFrom, List.length_cons, foldl_range_succ]
    simp only [List.getD_cons_zero, List.getD_cons_succ, Nat.add_zero]
    split
    · rw [ih]
      congr 2
      funext b j
      rw [show c + 1 + j = c + (j + 1) by omega]
    · rw [ih]
      congr 2
      funext b j
      rw [show c + 1 + j = c + (j + 1) by omega]

/-- The nearest codeword of a row, by index (46 R270). -/
theorem nearest_rows {F CB : List F64} {K d v : Nat} (hK : K ≠ 0) (hv : (v + 1) * d ≤ F.length)
    (hc : K * d ≤ CB.length) : nearest (rows d K CB) ((F.drop (v * d)).take d) = nearestRow F CB K d v := by
  obtain ⟨k, rfl⟩ := Nat.exists_eq_succ_of_ne_zero hK
  have hle : ∀ c, c < k + 1 → (c + 1) * d ≤ CB.length := fun c hck =>
    (Nat.mul_le_mul_right d (by omega : c + 1 ≤ k + 1)).trans hc
  have hrow : ∀ j, j < k → (rows d k (CB.drop d)).getD j [] = (CB.drop ((j + 1) * d)).take d := by
    intro j hj
    have := rows_getElem? d (k + 1) CB (j + 1) (by omega)
    rw [rows, List.getElem?_cons_succ] at this
    simp [List.getD, this]
  have h0 : CB.take d = (CB.drop (0 * d)).take d := by simp
  simp only [rows, nearest]
  rw [searchFrom_eq, rows_length, nearestRow, h0, distance_rows hv (hle 0 (by omega)), Nat.succ_sub_one]
  congr 1
  apply foldl_range_congr
  intro b j hj
  rw [hrow j hj, distance_rows hv (hle (j + 1) (by omega)), Nat.add_comm 1 j]

/-! ### IIR synthesis -/

/-- The outputs of the filter satisfy the recurrence (43 R210), with the delay line before the first output. -/
theorem iirFilter_entry (g : F64) (cs : List F64) (d xs : List F64) (hd : d.length = cs.length) (i : Nat)
    (hi : i < xs.length) :
    entry (iirFilter g cs d xs) i =
      (List.range cs.length).foldl
        (fun acc j => fsub acc (fmul (entry cs j)
          (if j < i then entry (iirFilter g cs d xs) (i - 1 - j) else entry d (j - i))))
        (fmul g (entry xs i)) := by
  induction xs generalizing d i with
  | nil => simp at hi
  | cons x xs ih =>
    set y := subtractProducts (fmul g x) cs d with hy
    have hcons : iirFilter g cs d (x :: xs) = y :: iirFilter g cs ((y :: d).take cs.length) xs := rfl
    rw [hcons]
    cases i with
    | zero =>
      rw [entry_cons_zero, entry_cons_zero, hy, subtractProducts_eq, hd, min_self]
      apply foldl_range_congr
      intro b j _
      simp
    | succ i =>
      rw [entry_cons_succ, entry_cons_succ, ih _ (by simp [hd]) i (by simpa using hi)]
      apply foldl_range_congr
      intro b j hj
      congr 2
      rcases Nat.lt_trichotomy j i with h | h | h
      · rw [if_pos h, if_pos (by omega), show i + 1 - 1 - j = (i - 1 - j) + 1 by omega, entry_cons_succ]
      · subst h
        rw [if_neg (by omega), if_pos (by omega), show j + 1 - 1 - j = 0 by omega, Nat.sub_self, entry_take (by omega),
          entry_cons_zero, entry_cons_zero]
      · rw [if_neg (by omega), if_neg (by omega), entry_take (by omega), show j - i = (j - (i + 1)) + 1 by omega,
          entry_cons_succ]

/-- `IIRSYN`'s result satisfies the recurrence from a delay line of zeros (43 R210, R211). -/
theorem iirSynthesize_entry (g : F64) (cs xs : List F64) (i : Nat) (hi : i < xs.length) :
    entry (iirSynthesize g cs xs) i = iirStep g cs xs (iirSynthesize g cs xs) i := by
  rw [iirSynthesize, iirFilter_entry g cs _ xs (by simp) i hi, iirStep]
  apply foldl_range_congr
  intro b j hj
  split
  · rfl
  · rw [entry_of_getElem? (List.getElem?_replicate_of_lt (by omega : j - i < cs.length))]

/-! ### Levinson-Durbin -/

/-- The reflection term of order `m + 1`, from the coefficients and the energy of order `m` (43 R200). -/
theorem reflection_eq {R : List F64} {m : Nat} (hm : m + 1 < R.length + 1) :
    reflection R (m + 1) ((List.range (m + 1)).map (lpcCoefficient R m)) (lpcEnergy R m) =
      fneg (fdiv ((List.range m).foldl (fun acc j => fadd acc (fmul (lpcCoefficient R m (j + 1)) (entry R (m - j))))
        (entry R (m + 1))) (lpcEnergy R m)) := by
  have hl : min ((List.range (m + 1)).map (lpcCoefficient R m)).tail.length (R.take (m + 1)).tail.reverse.length = m := by
    simp
    omega
  rw [reflection, sumProducts_eq, hl]
  congr 2
  apply foldl_range_congr
  intro b j hj
  rw [entry_tail, entry_map_range (by omega), entry_reverse (by simp; omega), entry_tail, entry_take (by simp; omega)]
  congr 3
  simp
  omega

/-- The coefficients of order `m + 1` (43 R200, R203). -/
theorem updateCoefficients_eq (R : List F64) (m : Nat) (k : F64)
    (hk : k = lpcCoefficient R (m + 1) (m + 1)) :
    updateCoefficients ((List.range (m + 1)).map (lpcCoefficient R m)) k =
      (List.range (m + 2)).map (lpcCoefficient R (m + 1)) := by
  set a := (List.range (m + 1)).map (lpcCoefficient R m) with ha
  have hal : a.length = m + 1 := by simp [ha]
  have hz : (List.zipWith (fun x y => fadd x (fmul k y)) a.tail a.tail.reverse).length = m := by simp [hal]
  rw [list_eq_map_entry (updateCoefficients a k)]
  have hlen : (updateCoefficients a k).length = m + 2 := by simp [updateCoefficients, hal]
  rw [hlen]
  apply List.map_congr_left
  intro j hj
  rw [List.mem_range] at hj
  unfold updateCoefficients
  cases j with
  | zero => rfl
  | succ j =>
    rw [entry_cons_succ]
    rcases Nat.lt_or_ge j m with h | h
    · rw [entry_append_left (by omega), entry_zipWith (by simp [hal]; omega) (by simp [hal]; omega), entry_tail,
        entry_reverse (by simp [hal]; omega), entry_tail, ha, entry_map_range (by omega), entry_map_range (by simp; omega)]
      have hidx : (List.map (lpcCoefficient R m) (List.range (m + 1))).tail.length - 1 - j + 1 = m + 1 - (j + 1) := by
        simp
        omega
      rw [hidx, hk]
      show _ = (if j + 1 = 0 then one else if j + 1 = m + 1 then _ else _)
      rw [if_neg (by omega), if_neg (by omega)]
      show _ = fadd (lpcCoefficient R m (j + 1)) (fmul _ (lpcCoefficient R m (m + 1 - (j + 1))))
      congr 2
      show (if m + 1 = 0 then one else if m + 1 = m + 1 then _ else _) = _
      rw [if_neg (by omega), if_pos rfl]
    · have hjm : j = m := by omega
      rw [entry_append_right (by omega), hz, hjm, Nat.sub_self, entry_cons_zero, hk]

theorem lpcCoefficient_last (R : List F64) (m : Nat) :
    lpcCoefficient R (m + 1) (m + 1) =
      fneg (fdiv ((List.range m).foldl (fun acc j => fadd acc (fmul (lpcCoefficient R m (j + 1)) (entry R (m - j))))
        (entry R (m + 1))) (lpcEnergy R m)) := by
  show (if m + 1 = 0 then one else if m + 1 = m + 1 then _ else _) = _
  rw [if_neg (by omega), if_pos rfl]
  rfl

theorem lpcEnergy_succ (R : List F64) (m : Nat) :
    lpcEnergy R (m + 1) = nextEnergy (lpcEnergy R m) (lpcCoefficient R (m + 1) (m + 1)) := by
  rw [lpcCoefficient_last]
  rfl

/-- The strict check, as 43 R202 words it: finite and above zero. -/
theorem strictEnergyOk_iff (e : F64) : strictEnergyOk e = true ↔ isFinite e = true ∧ flt zero e = true := by
  unfold strictEnergyOk
  rw [Bool.and_eq_true, Bool.not_eq_true']
  refine and_congr_right fun hf => ?_
  have hn : isNaN e = false := by
    simp only [isFinite, isNaN, decide_eq_true_eq, decide_eq_false_iff_not] at *
    omega
  have hz : isNaN zero = false := by decide
  simp only [fle, flt, hn, hz, Bool.not_false, Bool.true_and, decide_eq_false_iff_not, decide_eq_true_eq]
  omega

/-- The whole recursion from order `m` on, while the strict checks pass: the final check decides (43 R200, R202). -/
theorem levinsonSteps_ok {R : List F64} {n m : Nat} (hR : m + n + 1 ≤ R.length)
    (hs : ∀ j, m ≤ j → j < m + n → strictEnergyOk (lpcEnergy R j) = true) :
    levinsonSteps R n (m + 1) ((List.range (m + 1)).map (lpcCoefficient R m)) ((List.range m).map (lpcEnergy R))
        (lpcEnergy R m) =
      if finalEnergyOk (lpcEnergy R (m + n)) then
        .ok ((List.range (m + n + 1)).map (lpcCoefficient R (m + n)), (List.range (m + n + 1)).map (lpcEnergy R))
      else .error (breakdown (m + n) (lpcEnergy R (m + n))) := by
  induction n generalizing m with
  | zero =>
    rw [levinsonSteps]
    simp only [Nat.add_zero, Nat.add_sub_cancel]
    have h : (List.range m).map (lpcEnergy R) ++ [lpcEnergy R m] = (List.range (m + 1)).map (lpcEnergy R) := by
      rw [List.range_succ, List.map_append]
      rfl
    rw [h]
  | succ n ih =>
    have hk : reflection R (m + 1) ((List.range (m + 1)).map (lpcCoefficient R m)) (lpcEnergy R m) =
        lpcCoefficient R (m + 1) (m + 1) := by
      rw [reflection_eq (by omega), lpcCoefficient_last]
    rw [levinsonSteps, if_pos (hs m le_rfl (by omega))]
    simp only [hk]
    rw [updateCoefficients_eq R m _ rfl, ← lpcEnergy_succ]
    have h : (List.range m).map (lpcEnergy R) ++ [lpcEnergy R m] = (List.range (m + 1)).map (lpcEnergy R) := by
      rw [List.range_succ, List.map_append]
      rfl
    rw [h, ih (m := m + 1) (by omega) (fun j h₁ h₂ => hs j (by omega) (by omega)),
      show m + 1 + n = m + (n + 1) by omega]

/-- The recursion from order `m` on breaks down at the first energy whose strict check fails (43 R202). -/
theorem levinsonSteps_strict_breakdown {R : List F64} {n m j : Nat} (hR : m + n + 1 ≤ R.length) (h₁ : m ≤ j)
    (h₂ : j < m + n) (hs : ∀ h, m ≤ h → h < j → strictEnergyOk (lpcEnergy R h) = true)
    (hj : strictEnergyOk (lpcEnergy R j) = false) :
    levinsonSteps R n (m + 1) ((List.range (m + 1)).map (lpcCoefficient R m)) ((List.range m).map (lpcEnergy R))
        (lpcEnergy R m) = .error (breakdown j (lpcEnergy R j)) := by
  induction n generalizing m with
  | zero => omega
  | succ n ih =>
    rw [levinsonSteps]
    rcases Nat.eq_or_lt_of_le h₁ with rfl | hlt
    · rw [if_neg (by simp [hj]), Nat.add_sub_cancel]
    · have hk : reflection R (m + 1) ((List.range (m + 1)).map (lpcCoefficient R m)) (lpcEnergy R m) =
          lpcCoefficient R (m + 1) (m + 1) := by
        rw [reflection_eq (by omega), lpcCoefficient_last]
      rw [if_pos (hs m le_rfl hlt)]
      simp only [hk]
      rw [updateCoefficients_eq R m _ rfl, ← lpcEnergy_succ]
      have h : (List.range m).map (lpcEnergy R) ++ [lpcEnergy R m] = (List.range (m + 1)).map (lpcEnergy R) := by
        rw [List.range_succ, List.map_append]
        rfl
      rw [h, ih (m := m + 1) (by omega) (by omega) (by omega) (fun i hi₁ hi₂ => hs i (by omega) hi₂)]

end Sys2Proof.Machine
end

