-- ==== Sys2Proof/Laws/Float64.lean ====
section
/-! SUPPORT. What rounding does: the rounded pattern is the nearest one, a tie goes to the even pattern, and rounding keeps order and leaves representable values alone. -/

namespace Sys2Proof.Machine.Float64

open Sys2Proof.Safety

/-! ### Patterns and the magnitudes they stand for -/

theorem patternUnits_small {v : Nat} (h : v < 2 ^ 52) : patternUnits v = v := by
  rw [patternUnits, if_pos (Nat.div_eq_of_lt h), Nat.mod_eq_of_lt h]

/-- The pattern of `m·2^k` for a 53-bit significand `m`, `m = 2^53` included. -/
theorem patternUnits_encode {k m : Nat} (hlo : k = 0 ∨ 2 ^ 52 ≤ m) (hhi : m ≤ 2 ^ 53) :
    patternUnits (k * 2 ^ 52 + m) = m * 2 ^ k := by
  rcases Nat.lt_or_ge m (2 ^ 52) with h | h
  · have hk : k = 0 := by omega
    subst hk
    simpa using patternUnits_small h
  rcases Nat.lt_or_ge m (2 ^ 53) with h' | h'
  · have hd : (k * 2 ^ 52 + m) / 2 ^ 52 = k + 1 := by omega
    have hm : (k * 2 ^ 52 + m) % 2 ^ 52 = m - 2 ^ 52 := by omega
    rw [patternUnits, if_neg (by omega), hd, hm, Nat.add_sub_cancel, Nat.add_sub_cancel' h]
  · have hm53 : m = 2 ^ 53 := le_antisymm hhi h'
    have hd : (k * 2 ^ 52 + m) / 2 ^ 52 = k + 2 := by omega
    have hm : (k * 2 ^ 52 + m) % 2 ^ 52 = 0 := by omega
    rw [patternUnits, if_neg (by omega), hd, hm, hm53, show k + 2 - 1 = k + 1 by omega, pow_succ 2 k]
    ring

/-- Consecutive patterns stand for growing magnitudes. -/
theorem patternUnits_succ (v : Nat) : patternUnits v < patternUnits (v + 1) := by
  rcases Nat.lt_or_ge v (2 ^ 52) with h | h
  · rw [patternUnits_small h]
    rcases Nat.lt_or_ge (v + 1) (2 ^ 52) with h' | h'
    · rw [patternUnits_small h']; omega
    · have := patternUnits_encode (k := 0) (m := v + 1) (.inl rfl) (by omega)
      simp at this
      omega
  · obtain ⟨k, hk⟩ : ∃ k, v / 2 ^ 52 = k + 1 := ⟨v / 2 ^ 52 - 1, by omega⟩
    have hv : v = k * 2 ^ 52 + (2 ^ 52 + v % 2 ^ 52) := by omega
    have h₁ := patternUnits_encode (k := k) (m := 2 ^ 52 + v % 2 ^ 52) (.inr (by omega)) (by omega)
    have h₂ := patternUnits_encode (k := k) (m := 2 ^ 52 + v % 2 ^ 52 + 1) (.inr (by omega)) (by omega)
    rw [← hv] at h₁
    rw [show k * 2 ^ 52 + (2 ^ 52 + v % 2 ^ 52 + 1) = v + 1 by omega] at h₂
    rw [h₁, h₂]
    exact Nat.mul_lt_mul_of_pos_right (Nat.lt_succ_self _) (Nat.two_pow_pos k)

theorem patternUnits_strictMono : StrictMono patternUnits := strictMono_nat_of_lt_succ patternUnits_succ

/-- Either a magnitude is a multiple of `2^k`, or it lies below the binade of `2^(52+k)`. -/
theorem patternUnits_multiple_or_below (k v : Nat) :
    (∃ j, patternUnits v = j * 2 ^ k) ∨ patternUnits v < 2 ^ 52 * 2 ^ k := by
  rcases Nat.lt_or_ge (v / 2 ^ 52) (k + 1) with h | h
  · right
    have h₁ : patternUnits v < patternUnits (k * 2 ^ 52 + 2 ^ 52) := patternUnits_strictMono (by omega)
    rwa [patternUnits_encode (.inr le_rfl) (by omega)] at h₁
  · left
    refine ⟨(2 ^ 52 + v % 2 ^ 52) * 2 ^ (v / 2 ^ 52 - 1 - k), ?_⟩
    rw [patternUnits, if_neg (by omega), Nat.mul_assoc, ← pow_add]
    congr 2
    omega

/-! ### Division with rounding -/

/-- Of all multiples of `d`, the rounded quotient's is nearest, and it is even where another is as near. -/
theorem divNearestEven_spec (num : Nat) {d : Nat} (hd : 0 < d) (j : Nat) :
    offBy (divNearestEven num d * d) num ≤ offBy (j * d) num ∧
      (j ≠ divNearestEven num d → offBy (j * d) num = offBy (divNearestEven num d * d) num →
        divNearestEven num d % 2 = 0) := by
  have hq := Nat.div_add_mod num d
  have hr := Nat.mod_lt num hd
  set q := num / d with hqdef
  set r := num % d with hrdef
  rw [Nat.mul_comm] at hq
  have key : ∀ i, i < q → i * d + d ≤ q * d := fun i hi => by
    have := Nat.mul_le_mul_right d (Nat.succ_le_of_lt hi)
    rwa [Nat.succ_mul] at this
  have key' : ∀ i, q + 1 < i → q * d + d + d ≤ i * d := fun i hi => by
    have := Nat.mul_le_mul_right d (Nat.succ_le_of_lt hi)
    rwa [Nat.succ_mul, Nat.succ_mul] at this
  have hs : (q + 1) * d = q * d + d := Nat.succ_mul q d
  unfold divNearestEven offBy
  simp only [← hqdef, ← hrdef]
  split
  · next h =>
    rw [hs]
    rcases Nat.lt_trichotomy j q with hj | hj | hj
    · have := key j hj
      omega
    · subst hj
      omega
    · rcases Nat.lt_or_ge (q + 1) j with hj' | hj'
      · have := key' j hj'
        omega
      · have hj'' : j = q + 1 := by omega
        rw [hj'', hs]
        omega
  · next h =>
    rcases Nat.lt_trichotomy j q with hj | hj | hj
    · have := key j hj
      omega
    · subst hj
      omega
    · rcases Nat.lt_or_ge (q + 1) j with hj' | hj'
      · have := key' j hj'
        omega
      · have hj'' : j = q + 1 := by omega
        rw [hj'', hs]
        omega

/-! ### Rounding -/

/-- What `roundPattern` is made of: the significand fits its binade, and the value is at least the binade's least where the
binade is not the lowest. -/
theorem roundPattern_parts (num : Nat) {den : Nat} (hden : 0 < den) :
    ∃ k m, roundPattern num den = k * 2 ^ 52 + m ∧ m = divNearestEven num (den * 2 ^ k) ∧
      (k = 0 ∨ 2 ^ 52 ≤ m) ∧ m ≤ 2 ^ 53 ∧ (k = 0 ∨ 2 ^ 52 * (den * 2 ^ k) ≤ num) := by
  set q := num / den with hq
  refine ⟨Nat.log2 q - 52, _, rfl, rfl, ?_⟩
  set k := Nat.log2 q - 52 with hk
  have hd : 0 < den * 2 ^ k := Nat.mul_pos hden (Nat.two_pow_pos k)
  have hdiv : num / (den * 2 ^ k) = q / 2 ^ k := by rw [← Nat.div_div_eq_div_mul]
  have hhi : q / 2 ^ k < 2 ^ 53 := by
    rw [Nat.div_lt_iff_lt_mul (Nat.two_pow_pos k), ← pow_add]
    calc q < 2 ^ (Nat.log2 q + 1) := Nat.lt_log2_self
      _ ≤ 2 ^ (53 + k) := Nat.pow_le_pow_right (by omega) (by omega)
  have hlo : k = 0 ∨ 2 ^ 52 ≤ q / 2 ^ k := by
    rcases Nat.eq_zero_or_pos k with h | h
    · exact .inl h
    · right
      have hq0 : q ≠ 0 := by
        intro h0
        rw [h0] at hk
        simp at hk
        omega
      rw [Nat.le_div_iff_mul_le (Nat.two_pow_pos k), ← pow_add, show 52 + k = Nat.log2 q by omega]
      exact Nat.log2_self_le hq0
  have hle : q / 2 ^ k ≤ divNearestEven num (den * 2 ^ k) := by
    unfold divNearestEven
    rw [← hdiv]
    split <;> omega
  have hle' : divNearestEven num (den * 2 ^ k) ≤ q / 2 ^ k + 1 := by
    unfold divNearestEven
    rw [← hdiv]
    split <;> omega
  refine ⟨hlo.imp id (fun h => h.trans hle), by omega, hlo.imp id (fun h => ?_)⟩
  rw [← hdiv] at h
  exact (Nat.le_div_iff_mul_le hd).mp h

/-- `roundPattern` is the nearest pattern, and the even one of two as near (40 R130: round to nearest, ties to even). -/
theorem roundPattern_nearest (num : Nat) {den : Nat} (hden : 0 < den) (v : Nat) :
    offBy (patternUnits (roundPattern num den) * den) num ≤ offBy (patternUnits v * den) num ∧
      (v ≠ roundPattern num den →
        offBy (patternUnits v * den) num = offBy (patternUnits (roundPattern num den) * den) num →
          roundPattern num den % 2 = 0) := by
  obtain ⟨k, m, hp, hm, hlo, hhi, hnum⟩ := roundPattern_parts num hden
  have hd : 0 < den * 2 ^ k := Nat.mul_pos hden (Nat.two_pow_pos k)
  have hval : patternUnits (roundPattern num den) * den = m * (den * 2 ^ k) := by
    rw [hp, patternUnits_encode hlo hhi]; ring
  rw [hval]
  have hpar : roundPattern num den % 2 = m % 2 := by rw [hp]; omega
  rw [hpar]
  have hspec := divNearestEven_spec num hd
  rw [← hm] at hspec
  rcases patternUnits_multiple_or_below k v with ⟨j, hj⟩ | hbelow
  · have hv : patternUnits v * den = j * (den * 2 ^ k) := by rw [hj]; ring
    rw [hv]
    refine ⟨(hspec j).1, fun hne heq => (hspec j).2 (fun hjm => hne ?_) heq⟩
    apply patternUnits_strictMono.injective
    rw [hp, patternUnits_encode hlo hhi, hj, hjm]
  · rcases hnum with hk | hnum
    · subst hk
      have hv : patternUnits v * den = patternUnits v * (den * 2 ^ 0) := by ring
      rw [hv]
      refine ⟨(hspec _).1, fun hne heq => (hspec _).2 (fun hjm => hne ?_) heq⟩
      apply patternUnits_strictMono.injective
      rw [hp, patternUnits_encode hlo hhi, hjm]; ring
    · have hlt : patternUnits v * den < 2 ^ 52 * (den * 2 ^ k) := by
        calc patternUnits v * den < 2 ^ 52 * 2 ^ k * den := Nat.mul_lt_mul_of_pos_right hbelow hden
          _ = 2 ^ 52 * (den * 2 ^ k) := by ring
      have h52 := (hspec (2 ^ 52)).1
      unfold offBy at *
      omega

/-- Rounding does not pass a representable bound from below. -/
theorem roundPattern_le {num den v : Nat} (hden : 0 < den) (h : num ≤ patternUnits v * den) :
    roundPattern num den ≤ v := by
  by_contra hlt
  have hmono : patternUnits v < patternUnits (roundPattern num den) := patternUnits_strictMono (by omega)
  have hmul := Nat.mul_lt_mul_of_pos_right hmono hden
  have := (roundPattern_nearest num hden v).1
  unfold offBy at this
  omega

/-- Rounding does not pass a representable bound from above. -/
theorem le_roundPattern {num den v : Nat} (hden : 0 < den) (h : patternUnits v * den ≤ num) :
    v ≤ roundPattern num den := by
  by_contra hlt
  have hmono : patternUnits (roundPattern num den) < patternUnits v := patternUnits_strictMono (by omega)
  have hmul := Nat.mul_lt_mul_of_pos_right hmono hden
  have := (roundPattern_nearest num hden v).1
  unfold offBy at this
  omega

/-- A representable value rounds to itself. -/
theorem roundPattern_exact {den v : Nat} (hden : 0 < den) : roundPattern (patternUnits v * den) den = v :=
  le_antisymm (roundPattern_le hden le_rfl) (le_roundPattern hden le_rfl)

theorem roundMag_exact {den v : Nat} (hden : 0 < den) (hv : v ≤ infBits) :
    roundMag (patternUnits v * den) den = v := by
  rw [roundMag, roundPattern_exact hden, min_eq_left hv]

theorem roundMag_le {num den v : Nat} (hden : 0 < den) (h : num ≤ patternUnits v * den) : roundMag num den ≤ v :=
  (min_le_left _ _).trans (roundPattern_le hden h)

theorem le_roundMag {num den v : Nat} (hden : 0 < den) (hv : v ≤ infBits) (h : patternUnits v * den ≤ num) :
    v ≤ roundMag num den :=
  le_min (le_roundPattern hden h) hv

theorem roundMag_le_inf (num den : Nat) : roundMag num den ≤ infBits := min_le_right _ _

/-! ### Bit patterns -/

theorem magBits_lt (x : F64) : magBits x < 2 ^ 63 := Nat.mod_lt _ (by omega)

theorem sign_eq (x : F64) : sign x = decide (2 ^ 63 ≤ x.toNat) := by
  have h := BitVec.msb_eq_decide x
  rwa [BitVec.msb_eq_getLsbD_last] at h

@[simp] theorem magBits_withSign {s : Bool} {m : Nat} (h : m < 2 ^ 63) : magBits (withSign s m) = m := by
  cases s <;> simp [magBits, withSign] <;> omega

@[simp] theorem sign_withSign {s : Bool} {m : Nat} (h : m < 2 ^ 63) : sign (withSign s m) = s := by
  rw [sign_eq]
  cases s <;> simp [withSign] <;> omega

/-- A value is its sign and its other 63 bits. -/
theorem withSign_parts (x : F64) : withSign (sign x) (magBits x) = x := by
  have := x.isLt
  apply BitVec.eq_of_toNat_eq
  rw [sign_eq, withSign, magBits, BitVec.toNat_ofNat]
  simp only [decide_eq_true_eq]
  split <;> omega

@[simp] theorem magBits_fneg (x : F64) : magBits (fneg x) = magBits x := by
  have h : (0x8000000000000000 : F64).toNat % 2 ^ 63 = 0 := by decide
  rw [magBits, magBits, fneg, BitVec.toNat_xor, Nat.xor_mod_two_pow, h, Nat.xor_zero]

@[simp] theorem sign_fneg (x : F64) : sign (fneg x) = !sign x := by
  rw [sign, sign, fneg, BitVec.getLsbD_xor]
  simp

@[simp] theorem units_fneg (x : F64) : units (fneg x) = -units x := by
  rw [units, units, sign_fneg, magUnits, magUnits, magBits_fneg]
  cases sign x <;> simp

@[simp] theorem isNaN_fneg (x : F64) : isNaN (fneg x) = isNaN x := by simp [isNaN]

@[simp] theorem isInf_fneg (x : F64) : isInf (fneg x) = isInf x := by simp [isInf]

@[simp] theorem isFinite_fneg (x : F64) : isFinite (fneg x) = isFinite x := by simp [isFinite]

theorem infBits_lt : infBits < 2 ^ 63 := by decide

/-- A result built from a sign and a rounded magnitude is no NaN. -/
theorem isNaN_withSign {s : Bool} {m : Nat} (h : m ≤ infBits) : isNaN (withSign s m) = false := by
  simp only [isNaN, magBits_withSign (h.trans_lt infBits_lt), decide_eq_false_iff_not]
  omega

/-! ### Classes of values -/

theorem isFinite_iff (x : F64) : isFinite x = true ↔ isInf x = false ∧ isNaN x = false := by
  simp only [isFinite, isInf, isNaN, decide_eq_true_eq, beq_eq_false_iff_ne, decide_eq_false_iff_not, ne_eq]
  omega

theorem not_isNaN_of_isFinite {x : F64} (h : isFinite x = true) : isNaN x = false := ((isFinite_iff x).mp h).2

theorem not_isInf_of_isFinite {x : F64} (h : isFinite x = true) : isInf x = false := ((isFinite_iff x).mp h).1

theorem magUnits_withSign {s : Bool} {m : Nat} (h : m < 2 ^ 63) : magUnits (withSign s m) = patternUnits m := by
  rw [magUnits, magBits_withSign h]

theorem patternUnits_zero : patternUnits 0 = 0 := patternUnits_small (by norm_num)

theorem magUnits_eq_zero {x : F64} : magUnits x = 0 ↔ isZero x = true := by
  have h := patternUnits_strictMono.lt_iff_lt (a := 0) (b := magBits x)
  rw [patternUnits_zero] at h
  simp only [magUnits, isZero, beq_iff_eq]
  omega

/-! ### The order of values -/

/-- The pattern order is the order of the values (40 R135). -/
theorem orderKey_lt_iff (x y : F64) : orderKey x < orderKey y ↔ units x < units y := by
  have h₁ := patternUnits_strictMono.lt_iff_lt (a := magBits x) (b := magBits y)
  have h₂ := patternUnits_strictMono.lt_iff_lt (a := magBits y) (b := magBits x)
  have hx := patternUnits_strictMono.lt_iff_lt (a := 0) (b := magBits x)
  have hy := patternUnits_strictMono.lt_iff_lt (a := 0) (b := magBits y)
  rw [patternUnits_zero] at hx hy
  simp only [orderKey, units, magUnits]
  cases sign x <;> cases sign y <;> simp <;> omega

theorem orderKey_le_iff (x y : F64) : orderKey x ≤ orderKey y ↔ units x ≤ units y := by
  have h := orderKey_lt_iff y x
  omega

theorem flt_iff {x y : F64} (hx : isNaN x = false) (hy : isNaN y = false) : flt x y = true ↔ units x < units y := by
  simp [flt, hx, hy, orderKey_lt_iff]

theorem fle_iff {x y : F64} (hx : isNaN x = false) (hy : isNaN y = false) : fle x y = true ↔ units x ≤ units y := by
  simp [fle, hx, hy, orderKey_le_iff]

/-! ### The operations on finite values -/

theorem fadd_finite {a b : F64} (ha : isFinite a = true) (hb : isFinite b = true) :
    fadd a b =
      if units a + units b = 0 then withSign (sign a && sign b) 0
      else withSign (decide (units a + units b < 0)) (roundMag (units a + units b).natAbs 1) := by
  simp only [fadd, not_isNaN_of_isFinite ha, not_isNaN_of_isFinite hb, not_isInf_of_isFinite ha,
    not_isInf_of_isFinite hb, Bool.or_self, Bool.false_eq_true, if_false]

theorem fmul_finite {a b : F64} (ha : isFinite a = true) (hb : isFinite b = true) :
    fmul a b = withSign (sign a != sign b) (roundMag (magUnits a * magUnits b) unitsPerOne) := by
  simp only [fmul, not_isNaN_of_isFinite ha, not_isNaN_of_isFinite hb, not_isInf_of_isFinite ha,
    not_isInf_of_isFinite hb, Bool.or_self, Bool.false_eq_true, if_false]

theorem fdiv_finite {a b : F64} (ha : isFinite a = true) (hb : isFinite b = true) (hz : isZero b = false) :
    fdiv a b = withSign (sign a != sign b) (roundMag (magUnits a * unitsPerOne) (magUnits b)) := by
  simp only [fdiv, not_isNaN_of_isFinite ha, not_isNaN_of_isFinite hb, not_isInf_of_isFinite ha,
    not_isInf_of_isFinite hb, hz, Bool.or_self, Bool.false_eq_true, if_false]

theorem unitsPerOne_pos : 0 < unitsPerOne := by decide +kernel

theorem roundPattern_nearestEven (num : Nat) {den : Nat} (hden : 0 < den) :
    nearestEven num den (roundPattern num den) := roundPattern_nearest num hden

end Sys2Proof.Machine.Float64
end

