-- ==== Sys2Proof/Laws/HostPort.lean ====
section
/-! SUPPORT. What a step does with an arrival at the port and with a held access, and everything a host access can do. -/

namespace Sys2Proof.Machine

open Sys2Proof.Safety

/-! ### Places of the aperture -/

theorem atOffset_offset (r : Reg) : Reg.atOffset r.offset = some r := by cases r <;> decide

/-- The model's offsets are those of 10 R23's table. -/
theorem registerOffset_eq (r : Reg) : registerOffset r = regOffset r := by cases r <;> rfl

theorem regOffset_toNat (r : Reg) : (regOffset r).toNat = r.offset := by cases r <;> decide

theorem placeOf_window {off : BitVec 27} (h : off.toNat < 0x1000) : placeOf off = .window off.toNat := by
  simp [placeOf, Config.windowSize, h]

theorem placeOf_unmapped {off : BitVec 27} (h : 0x1000 ≤ off.toNat) (h' : off.toNat < 0x04000000) :
    placeOf off = .unmapped := by
  simp [placeOf, Config.windowSize, Config.dmemOffset, h', Nat.not_lt.mpr h]

theorem placeOf_dmem {off : BitVec 27} (h : 0x04000000 ≤ off.toNat) :
    placeOf off = .dmem (off.toNat - 0x04000000) := by
  have := off.isLt
  rw [placeOf, if_neg (by simp [Config.windowSize]; omega), if_neg (by simp [Config.dmemOffset]; omega),
    if_pos (by simp [Config.dmemOffset, Config.dmemSize]; omega)]
  rfl

theorem placeOf_regOffset (r : Reg) : placeOf (regOffset r) = .window r.offset := by cases r <;> decide

theorem dmemOffsetOf_toNat {a : Nat} (h : a < Config.dmemSize) : (dmemOffsetOf a).toNat = 0x04000000 + a := by
  simp only [Config.dmemSize] at h
  simp only [dmemOffsetOf, Config.dmemOffset, BitVec.toNat_ofNat]
  omega

theorem placeOf_dmemOffsetOf {a : Nat} (h : a < Config.dmemSize) : placeOf (dmemOffsetOf a) = .dmem a := by
  rw [placeOf_dmem (by rw [dmemOffsetOf_toNat h]; omega), dmemOffsetOf_toNat h, Nat.add_sub_cancel_left]

/-- An access is to the DMEM window exactly when its offset is in the upper half of the aperture. -/
theorem toDmem_iff (a : HostAccess) : a.toDmem = true ↔ 0x04000000 ≤ a.offset.toNat := by
  unfold HostAccess.toDmem
  rcases Nat.lt_or_ge a.offset.toNat 0x1000 with h | h
  · simp [placeOf_window h]; omega
  · rcases Nat.lt_or_ge a.offset.toNat 0x04000000 with h' | h'
    · simp [placeOf_unmapped h h']; omega
    · simp [placeOf_dmem h', h']

theorem dmemAccessOk_of {a w : Nat} (hw : w = 1 ∨ w = 2 ∨ w = 4 ∨ w = 8) (ha : a % w = 0) : dmemAccessOk a w = true := by
  rcases hw with rfl | rfl | rfl | rfl <;> simp [dmemAccessOk, ha]

/-! ### Arrivals -/

theorem step_idle_arrival {s : State} {a : HostAccess} {rest : List PortEvent} (hp : s.phase = .idle)
    (h : arrives s a rest) : step s = performAccess (s.withPort rest) a := by
  simp [step, engineStep, idleStep, hp, h.1, h.2 hp]

theorem step_busy_arrival {s : State} {a : HostAccess} {rest : List PortEvent} (hp : s.phase = .busy)
    (h : s.port = .access a :: rest) : step s = arriveBusy (s.withPort rest) a := by
  simp [step, engineStep, busyStep, hp, h]

theorem step_held {s : State} {a : HostAccess} {later : List HostAccess} (hp : s.phase = .idle)
    (h : s.held = a :: later) : step s = performAccess (s.withHeld later) a := by
  simp [step, engineStep, idleStep, hp, h]

/-- An access outside the DMEM window is performed when it arrives, whatever the phase. -/
theorem step_arrival {s : State} {a : HostAccess} {rest : List PortEvent} (h : arrives s a rest)
    (hd : s.phase = .busy → a.toDmem = false) : step s = performAccess (s.withPort rest) a := by
  cases hp : s.phase with
  | idle => exact step_idle_arrival hp h
  | busy => simp [step_busy_arrival hp h.1, arriveBusy, hd hp]

/-- Writing a register of the window. -/
theorem step_register_write {s : State} {off : BitVec 27} {v : Word} {rest : List PortEvent} (h : arrives s (.write off 8 v) rest)
    (hw : off.toNat < 0x1000) (ha : off.toNat % 8 = 0) :
    step s = .next ((State.writeWindow (s.withPort rest) off.toNat v).answer .written) := by
  have hd : (HostAccess.write off 8 v).toDmem = false := by
    rw [Bool.eq_false_iff, ne_eq, toDmem_iff]; simp only [HostAccess.offset]; omega
  rw [step_arrival h (fun _ => hd), performAccess, performWrite, placeOf_window hw]
  simp [windowAccessOk, ha]

/-- Reading a register of the window. -/
theorem step_register_read {s : State} {off : BitVec 27} {rest : List PortEvent} (h : arrives s (.read off 8) rest)
    (hw : off.toNat < 0x1000) (ha : off.toNat % 8 = 0) :
    step s = .next (State.answer (s.withPort rest) (.data (State.readWindow (s.withPort rest) off.toNat))) := by
  have hd : (HostAccess.read off 8).toDmem = false := by
    rw [Bool.eq_false_iff, ne_eq, toDmem_iff]; simp only [HostAccess.offset]; omega
  rw [step_arrival h (fun _ => hd), performAccess, performRead, placeOf_window hw]
  simp [windowAccessOk, ha]

/-- Writing a named register. -/
theorem step_named_write {s : State} {r : Reg} {v : Word} {rest : List PortEvent} (h : arrives s (.write (regOffset r) 8 v) rest) :
    step s = .next ((State.writeReg (s.withPort rest) r v).answer .written) := by
  have ho := regOffset_toNat r
  rw [step_register_write h (by rw [ho]; cases r <;> decide) (by rw [ho]; cases r <;> decide), ho, State.writeWindow,
    atOffset_offset]

/-- Reading a named register answers what it reads as and changes nothing else. -/
theorem step_named_read {s : State} {r : Reg} {rest : List PortEvent} (h : arrives s (.read (regOffset r) 8) rest) :
    step s = .next { s with port := rest, answers := s.answers ++ [.data (s.readReg r)] } := by
  have ho := regOffset_toNat r
  rw [step_register_read h (by rw [ho]; cases r <;> decide) (by rw [ho]; cases r <;> decide), ho, State.readWindow,
    atOffset_offset]
  cases r <;> rfl

/-! ### What a host access can do -/

/-- Everything a host access can do: a read adds an answer or faults, a register write, a DMEM write, or a bus error. -/
theorem performAccess_cases (s : State) (a : HostAccess) :
    (∃ r, performAccess s a = .next (s.answer r)) ∨ performAccess s a = .fault .unwrittenRead ∨
    (∃ off v, a = .write off 8 v ∧ off.toNat < 0x1000 ∧
      performAccess s a = .next ((s.writeWindow off.toNat v).answer .written)) ∨
    ∃ off w v x, a = .write off w v ∧ placeOf off = .dmem x ∧ dmemAccessOk x w = true ∧
      performAccess s a = .next ((s.withDmem (Mem.write s.dmem x w v.toNat)).answer .written) := by
  cases a with
  | read off w =>
    simp only [performAccess, performRead]
    cases placeOf off with
    | window o => simp only; split <;> exact .inl ⟨_, rfl⟩
    | unmapped => exact .inl ⟨_, rfl⟩
    | dmem x =>
      simp only
      split
      · split
        · exact .inl ⟨_, rfl⟩
        · exact .inr (.inl rfl)
      · exact .inl ⟨_, rfl⟩
  | write off w v =>
    simp only [performAccess, performWrite]
    cases hpl : placeOf off with
    | window o =>
      simp only
      split
      · next h =>
        have hlt : off.toNat < 0x1000 := by
          by_contra hge
          rcases Nat.lt_or_ge off.toNat 0x04000000 with h' | h'
          · rw [placeOf_unmapped (by omega) h'] at hpl; cases hpl
          · rw [placeOf_dmem h'] at hpl; cases hpl
        rw [placeOf_window hlt] at hpl
        cases hpl
        have hw : w = 8 := by simp [windowAccessOk] at h; exact h.1
        subst hw
        exact .inr (.inr (.inl ⟨off, v, rfl, hlt, rfl⟩))
      · exact .inl ⟨_, rfl⟩
    | unmapped => exact .inl ⟨_, rfl⟩
    | dmem x =>
      simp only
      split
      · next h => exact .inr (.inr (.inr ⟨off, w, v, x, rfl, hpl, h, rfl⟩))
      · exact .inl ⟨_, rfl⟩

theorem placeOf_dmem_lt {off : BitVec 27} {x : Nat} (h : placeOf off = .dmem x) : x < Config.dmemSize := by
  have hlt := off.isLt
  rcases Nat.lt_or_ge off.toNat 0x1000 with h₁ | h₁
  · rw [placeOf_window h₁] at h; cases h
  · rcases Nat.lt_or_ge off.toNat 0x04000000 with h₂ | h₂
    · rw [placeOf_unmapped h₁ h₂] at h; cases h
    · rw [placeOf_dmem h₂, Place.dmem.injEq] at h
      simp only [Config.dmemSize]
      omega

/-- An aligned run of bytes from an address of DMEM stays inside it. -/
theorem dmemAccessOk_fits {x w : Nat} (h : dmemAccessOk x w = true) (hx : x < Config.dmemSize) : x + w ≤ Config.dmemSize := by
  simp only [dmemAccessOk, Bool.and_eq_true, Bool.or_eq_true, beq_iff_eq, Config.dmemSize] at *
  obtain ⟨((rfl | rfl) | rfl) | rfl, ha⟩ := h <;> omega

/-! ### Power-on reset -/

/-- The signal `RESET_SOURCE` names performs power-on reset. -/
theorem platformAsserts_resetSource (s : State) : s.platformAsserts Config.resetSource = s.powerOnReset := if_pos rfl

/-- No other signal of the platform reaches the engine. -/
theorem platformAsserts_of_ne {s : State} {signal : Nat} (h : signal ≠ Config.resetSource) :
    s.platformAsserts signal = s := if_neg h

@[simp] theorem powerOnReset_reset : State.reset.powerOnReset = State.reset := rfl

/-- After power-on reset every register reads as the table of 10 R23 says. -/
@[simp] theorem readReg_powerOnReset (s : State) (r : Reg) : s.powerOnReset.readReg r = State.reset.readReg r := by
  cases r <;> rfl

@[simp] theorem powerOnReset_phase (s : State) : s.powerOnReset.phase = .idle := rfl

@[simp] theorem powerOnReset_dmem (s : State) : s.powerOnReset.dmem = [] := rfl

@[simp] theorem powerOnReset_held (s : State) : s.powerOnReset.held = [] := rfl

/-! ### Soft reset -/

@[simp] theorem drawnBytes_length (draw a n : Nat) : (drawnBytes draw a n).length = n := by
  induction n generalizing a with
  | zero => rfl
  | succ n ih => simp [drawnBytes, ih]

theorem drawnBytes_getElem? (draw a n j : Nat) (h : j < n) :
    (drawnBytes draw a n)[j]? = some (Config.abortByte draw (a + j)) := by
  induction n generalizing a j with
  | zero => omega
  | succ n ih =>
    cases j with
    | zero => simp [drawnBytes]
    | succ j =>
      simp only [drawnBytes, List.getElem?_cons_succ, ih _ _ (show j < n by omega)]
      congr 2
      omega

/-- The bytes of the written regions are drawn, the others stay. -/
theorem readByte_scrambleRegions (draw : Nat) (m : Mem) (rs : List Region) (x : Nat) :
    ((∃ r ∈ rs, r.written = true ∧ inRegion x r) →
      Mem.readByte (scrambleRegions draw m rs) x = some (Config.abortByte draw x)) ∧
    ((¬∃ r ∈ rs, r.written = true ∧ inRegion x r) →
      Mem.readByte (scrambleRegions draw m rs) x = Mem.readByte m x) := by
  induction rs generalizing m with
  | nil => simp [scrambleRegions]
  | cons r rs ih =>
    rw [scrambleRegions]
    set m' := if r.written = true then Mem.writeBytes m r.base (drawnBytes draw r.base r.size) else m with hm'
    obtain ⟨ih₁, ih₂⟩ := ih m'
    have hr : Mem.readByte m' x =
        if r.written = true ∧ inRegion x r then some (Config.abortByte draw x) else Mem.readByte m x := by
      rw [hm']
      by_cases hw : r.written = true
      · rw [if_pos hw, readByte_writeBytes, drawnBytes_length]
        by_cases hx : r.base ≤ x ∧ x < r.base + r.size
        · rw [if_pos hx, if_pos ⟨hw, hx⟩, drawnBytes_getElem? _ _ _ _ (by omega)]
          congr 2
          omega
        · rw [if_neg hx, if_neg (fun h => hx h.2)]
      · rw [if_neg hw, if_neg (fun h => hw h.1)]
    by_cases h : ∃ q ∈ rs, q.written = true ∧ inRegion x q
    · refine ⟨fun _ => ih₁ h, fun hn => absurd ?_ hn⟩
      obtain ⟨q, hq, hq'⟩ := h
      exact ⟨q, by simp [hq], hq'⟩
    · rw [ih₂ h, hr]
      refine ⟨fun hn => ?_, fun hn => if_neg fun hx => hn ⟨r, by simp, hx⟩⟩
      obtain ⟨q, hq, hq'⟩ := hn
      rcases List.mem_cons.mp hq with rfl | hq
      · exact if_pos hq'
      · exact absurd ⟨q, hq, hq'⟩ h

theorem wf_scrambleRegions {draw : Nat} {m : Mem} {rs : List Region} (h : Mem.wf m) (hr : ∀ r ∈ rs, regionOk r) :
    Mem.wf (scrambleRegions draw m rs) := by
  induction rs generalizing m with
  | nil => exact h
  | cons r rs ih =>
    rw [scrambleRegions]
    refine ih ?_ (fun q hq => hr q (by simp [hq]))
    split
    · exact wf_writeBytes h (by simpa using (hr r (by simp)).1)
    · exact h

/-! ### Steps -/

/-- The engine's turn is the command step. -/
theorem step_engineNext {s s' : State} (h : engineNext s s') : step s = commandStep s' := by
  rcases h with ⟨hp, ⟨hq, rfl⟩ | ⟨rest, hq, rfl⟩⟩ <;> simp [step, engineStep, busyStep, hp, hq]

theorem engineNext_snap {s s' : State} (h : engineNext s s') : s'.snap = s.snap := by
  rcases h with ⟨-, ⟨-, rfl⟩ | ⟨rest, -, rfl⟩⟩ <;> rfl

/-- Everything a step can be: an access held or performed, the command step, an engine's turn without a command, or nothing. -/
theorem step_cases (s : State) :
    (∃ a rest, s.phase = .busy ∧ s.port = .access a :: rest ∧ a.toDmem = true ∧
      step s = .next ((s.withPort rest).withHeld (s.held ++ [a]))) ∨
    (∃ a rest, s.phase = .busy ∧ s.port = .access a :: rest ∧ a.toDmem = false ∧
      step s = performAccess (s.withPort rest) a) ∨
    (∃ s', engineNext s s' ∧ step s = commandStep s') ∨
    (∃ a later, s.phase = .idle ∧ s.held = a :: later ∧ step s = performAccess (s.withHeld later) a) ∨
    (∃ a rest, s.phase = .idle ∧ s.held = [] ∧ s.port = .access a :: rest ∧
      step s = performAccess (s.withPort rest) a) ∨
    (∃ rest, s.phase = .idle ∧ s.held = [] ∧ s.port = .engineTurn :: rest ∧ step s = .next (s.withPort rest)) ∨
    (s.phase = .idle ∧ s.held = [] ∧ s.port = [] ∧ step s = .next s) := by
  cases hp : s.phase with
  | busy =>
    cases hq : s.port with
    | nil => exact .inr (.inr (.inl ⟨s, ⟨hp, .inl ⟨hq, rfl⟩⟩, by simp [step, engineStep, busyStep, hp, hq]⟩))
    | cons e rest =>
      cases e with
      | access a =>
        cases hd : a.toDmem with
        | true => exact .inl ⟨a, rest, rfl, rfl, hd, by simp [step_busy_arrival hp hq, arriveBusy, hd]⟩
        | false => exact .inr (.inl ⟨a, rest, rfl, rfl, hd, by simp [step_busy_arrival hp hq, arriveBusy, hd]⟩)
      | engineTurn =>
        exact .inr (.inr (.inl ⟨_, ⟨hp, .inr ⟨rest, hq, rfl⟩⟩, by simp [step, engineStep, busyStep, hp, hq]⟩))
  | idle =>
    cases hh : s.held with
    | cons a later => exact .inr (.inr (.inr (.inl ⟨a, later, rfl, rfl, step_held hp hh⟩)))
    | nil =>
      cases hq : s.port with
      | nil => simp [step, engineStep, idleStep, hp, hh, hq]
      | cons e rest => cases e <;> simp [step, engineStep, idleStep, hp, hh, hq]

end Sys2Proof.Machine
end

