-- ==== Sys2Proof/Laws/Rounding.lean ====
section
/-! SUPPORT. Order and exactness of rounded results: signs, the finite operands of a finite result, products and differences that cannot grow, whole numbers that are exact, and the ceiling of a quotient. -/

namespace Sys2Proof.Machine.Float64

theorem patternUnits_one : patternUnits 0x3FF0000000000000 = unitsPerOne := by decide +kernel

theorem units_withSign {s : Bool} {m : Nat} (h : m < 2 ^ 63) :
    units (withSign s m) = if s then -(patternUnits m : Int) else (patternUnits m : Int) := by
  rw [units, sign_withSign h, magUnits_withSign h]

theorem units_of_sign {x : F64} (h : sign x = false) : units x = magUnits x := by rw [units, h]; rfl

theorem units_nonpos_of_sign {x : F64} (h : sign x = true) : units x ≤ 0 := by
  rw [units, h, if_pos rfl]
  omega

theorem roundMag_lt (num den : Nat) : roundMag num den < 2 ^ 63 := (roundMag_le_inf num den).trans_lt infBits_lt

/-- A finite sum has finite operands. -/
theorem isFinite_of_fadd {a b : F64} (h : isFinite (fadd a b) = true) : isFinite a = true ∧ isFinite b = true := by
  have hn : isFinite nan = false := by decide +kernel
  rw [fadd] at h
  split at h
  · rw [hn] at h; cases h
  next hnan =>
    simp only [Bool.or_eq_true, not_or, Bool.not_eq_true] at hnan
    split at h
    · next hi =>
      split at h
      · rw [hn] at h; cases h
      · rw [(isFinite_iff a), hi] at h; simp at h
    · next hi =>
      split at h
      · next hi' => rw [(isFinite_iff b), hi'] at h; simp at h
      · next hi' => exact ⟨(isFinite_iff a).mpr ⟨by simpa using hi, hnan.1⟩, (isFinite_iff b).mpr ⟨by simpa using hi', hnan.2⟩⟩

/-- A finite product has finite operands. -/
theorem isFinite_of_fmul {a b : F64} (h : isFinite (fmul a b) = true) : isFinite a = true ∧ isFinite b = true := by
  have hn : isFinite nan = false := by decide +kernel
  simp only [fmul] at h
  split at h
  · rw [hn] at h; cases h
  next hnan =>
    simp only [Bool.or_eq_true, not_or, Bool.not_eq_true] at hnan
    split at h
    · split at h
      · rw [hn] at h; cases h
      · rw [isFinite, magBits_withSign infBits_lt] at h; simp at h
    · next hi =>
      simp only [Bool.or_eq_true, not_or, Bool.not_eq_true] at hi
      exact ⟨(isFinite_iff a).mpr ⟨hi.1, hnan.1⟩, (isFinite_iff b).mpr ⟨hi.2, hnan.2⟩⟩

/-- A square is not below zero. -/
theorem units_square_nonneg {k : F64} (h : isFinite k = true) : 0 ≤ units (fmul k k) := by
  rw [fmul_finite h h, units_withSign (roundMag_lt _ _)]
  simp

/-- One less something not below zero is at most one. -/
theorem units_one_sub_le {p : F64} (h : isFinite p = true) (hp : 0 ≤ units p) : units (fsub one p) ≤ unitsPerOne := by
  have h1 : isFinite one = true := by decide +kernel
  have hu : units one = unitsPerOne := by
    rw [units_of_sign (by decide +kernel), magUnits, show magBits one = 0x3FF0000000000000 by decide +kernel, patternUnits_one]
  rw [fsub, fadd_finite h1 (by simpa using h), units_fneg, hu]
  split
  · rw [units_withSign (by omega), patternUnits_zero]
    split <;> omega
  · rw [units_withSign (roundMag_lt _ _)]
    split
    · omega
    · next hs =>
      have hle : roundMag ((unitsPerOne : Int) + -units p).natAbs 1 ≤ 0x3FF0000000000000 := by
        apply roundMag_le (by omega)
        rw [patternUnits_one]
        simp at hs
        omega
      have := patternUnits_strictMono.monotone hle
      rw [patternUnits_one] at this
      exact_mod_cast this

/-- A product of a positive value with a factor at most one does not exceed the value. -/
theorem units_fmul_le {e g : F64} (he : isFinite e = true) (hg : isFinite g = true) (hs : sign e = false)
    (h : units g ≤ unitsPerOne) : units (fmul e g) ≤ units e := by
  rw [fmul_finite he hg, units_withSign (roundMag_lt _ _), hs, units_of_sign hs]
  cases hsg : sign g with
  | true => simp
  | false =>
    rw [units_of_sign hsg] at h
    have hle : roundMag (magUnits e * magUnits g) unitsPerOne ≤ magBits e := by
      apply roundMag_le unitsPerOne_pos
      exact Nat.mul_le_mul_left _ (by exact_mod_cast h)
    have := patternUnits_strictMono.monotone hle
    simp
    exact this

/-! ### Exact values -/

theorem unitsPerOne_eq {e : Nat} (h : e = 1074) : unitsPerOne = 2 ^ e := by
  subst h
  decide +kernel

/-- A number of at most 53 bits, scaled, has a pattern. -/
theorem exists_pattern {n j : Nat} (hn : n < 2 ^ 53) (hlo : 52 ≤ j) (hhi : j ≤ 1900) :
    ∃ v, v < infBits ∧ patternUnits v = n * 2 ^ j := by
  rcases Nat.eq_zero_or_pos n with rfl | hpos
  · exact ⟨0, by decide, by rw [patternUnits_zero, Nat.zero_mul]⟩
  have hl : Nat.log2 n < 53 := (Nat.log2_lt (by omega)).mpr hn
  have h₁ : 2 ^ Nat.log2 n ≤ n := Nat.log2_self_le (by omega)
  have h₂ : n < 2 ^ (Nat.log2 n + 1) := Nat.lt_log2_self
  have e : 2 ^ Nat.log2 n * 2 ^ (52 - Nat.log2 n) = 2 ^ 52 := by rw [← pow_add]; congr 1; omega
  have e' : 2 ^ (Nat.log2 n + 1) * 2 ^ (52 - Nat.log2 n) = 2 ^ 53 := by rw [← pow_add]; congr 1; omega
  have hm₁ := Nat.mul_le_mul_right (2 ^ (52 - Nat.log2 n)) h₁
  have hm₂ := Nat.mul_le_mul_right (2 ^ (52 - Nat.log2 n)) h₂.le
  rw [e] at hm₁
  rw [e'] at hm₂
  refine ⟨(j - (52 - Nat.log2 n)) * 2 ^ 52 + n * 2 ^ (52 - Nat.log2 n), ?_, ?_⟩
  · have : infBits = 2047 * 2 ^ 52 := by decide
    omega
  · rw [patternUnits_encode (.inr hm₁) hm₂, Nat.mul_assoc, ← pow_add]
    congr 2
    omega

/-- A whole number of at most 53 bits is exact (40 R137). -/
theorem toF64_exact {n : Nat} (hn : n < 2 ^ 53) :
    isFinite (toF64 n) = true ∧ sign (toF64 n) = false ∧ magUnits (toF64 n) = n * unitsPerOne := by
  obtain ⟨e, hE⟩ : ∃ e : Nat, e = 1074 := ⟨_, rfl⟩
  obtain ⟨v, hv, he⟩ := exists_pattern hn (j := e) (by omega) (by omega)
  have hu := unitsPerOne_eq hE
  have hlt : v < 2 ^ 63 := hv.trans infBits_lt
  have ht : toF64 n = withSign false v := by
    have := roundMag_exact (den := 1) (by omega) hv.le
    rw [Nat.mul_one, he, ← hu] at this
    rw [toF64, this]
  rw [ht, isFinite, magBits_withSign hlt, magUnits_withSign hlt, sign_withSign hlt, he, ← hu]
  exact ⟨by simpa using hv, rfl, rfl⟩

/-- A whole number over a positive value, where the quotient is a pattern's value, is that value. -/
theorem units_fdiv_exact {n v : Nat} {r : F64} (hn : n < 2 ^ 53) (hr : isFinite r = true) (hz : isZero r = false)
    (hs : sign r = false) (hv : v < infBits) (h : patternUnits v * magUnits r = n * unitsPerOne * unitsPerOne) :
    units (fdiv (toF64 n) r) = patternUnits v := by
  obtain ⟨hf, hsign, hm⟩ := toF64_exact hn
  have hp : 0 < magUnits r := by
    rcases Nat.eq_zero_or_pos (magUnits r) with h | h
    · rw [magUnits_eq_zero.mp h] at hz; cases hz
    · exact h
  rw [fdiv_finite hf hr hz, hsign, hs, hm, ← h, roundMag_exact hp hv.le, units_withSign (hv.trans infBits_lt)]
  rfl

/-! ### The ceiling of a quotient -/

/-- A positive finite value has a positive magnitude. -/
theorem magUnits_pos_of_flt {x : F64} (h : isFinite x = true) (hp : flt zero x = true) : sign x = false ∧ 0 < magUnits x := by
  have := (flt_iff (by decide +kernel) (not_isNaN_of_isFinite h)).mp hp
  rw [show units zero = 0 by decide +kernel, units] at this
  split at this <;> rename_i hs
  · omega
  · exact ⟨by simpa using hs, by omega⟩

theorem not_isZero_of_magUnits_pos {x : F64} (h : 0 < magUnits x) : isZero x = false := by
  by_contra hc
  have := magUnits_eq_zero.mpr (by simpa using hc)
  omega

/-- A whole number but 0 is at least one when rounded. -/
theorem toF64_parts {n : Nat} (h : n ≠ 0) : ∃ m, toF64 n = withSign false m ∧ 0x3FF0000000000000 ≤ m ∧ m ≤ infBits := by
  refine ⟨_, rfl, le_roundMag (by omega) (by decide) ?_, roundMag_le_inf _ _⟩
  rw [patternUnits_one]
  have := Nat.le_mul_of_pos_left unitsPerOne (Nat.pos_of_ne_zero h)
  omega

/-- A whole number but 0 over a positive ratio, where the quotient is finite, has a ceiling of at least one (44 R231). -/
theorem one_le_ceilI_quotient {n : Nat} (h₀ : n ≠ 0) {ratio : F64} (hr : isFinite ratio = true) (hp : flt zero ratio = true)
    (hq : isFinite (fdiv (toF64 n) ratio) = true) : 1 ≤ (ceilI (fdiv (toF64 n) ratio)).toNat := by
  obtain ⟨hs, hm⟩ := magUnits_pos_of_flt hr hp
  obtain ⟨m, hm₁, hm₂, hm₃⟩ := toF64_parts h₀
  have hmlt : m < 2 ^ 63 := hm₃.trans_lt infBits_lt
  have hnn : isNaN (toF64 n) = false := by rw [hm₁]; exact isNaN_withSign hm₃
  have hfin : isFinite (toF64 n) = true := by
    by_contra hc
    have hi : isInf (toF64 n) = true := by
      rw [isFinite_iff, hnn] at hc
      simpa using hc
    have hinf : fdiv (toF64 n) ratio = withSign (sign (toF64 n) != sign ratio) infBits := by
      simp [fdiv, hi, hnn, not_isNaN_of_isFinite hr, not_isInf_of_isFinite hr]
    rw [hinf, isFinite, magBits_withSign infBits_lt] at hq
    simp at hq
  have hdiv : fdiv (toF64 n) ratio = withSign false (roundMag (magUnits (toF64 n) * unitsPerOne) (magUnits ratio)) := by
    rw [fdiv_finite hfin hr (not_isZero_of_magUnits_pos hm), hs, hm₁, sign_withSign hmlt]
    rfl
  have hle : 1 ≤ roundMag (magUnits (toF64 n) * unitsPerOne) (magUnits ratio) := by
    apply le_roundMag hm (by decide)
    rw [patternUnits_small (by norm_num), Nat.one_mul, hm₁, magUnits_withSign hmlt]
    have e₁ : patternUnits 0x3FF0000000000000 ≤ patternUnits m := patternUnits_strictMono.monotone hm₂
    rw [patternUnits_one] at e₁
    have e₂ : magUnits ratio ≤ patternUnits infBits := patternUnits_strictMono.monotone (by
      simp only [isFinite, decide_eq_true_eq] at hr
      omega)
    have e₃ : patternUnits infBits ≤ unitsPerOne * unitsPerOne := by decide +kernel
    have := Nat.mul_le_mul_right unitsPerOne e₁
    omega
  have hu : 0 < units (fdiv (toF64 n) ratio) := by
    rw [hdiv, units_withSign (roundMag_lt _ _)]
    have := patternUnits_strictMono (show 0 < roundMag (magUnits (toF64 n) * unitsPerOne) (magUnits ratio) from hle)
    rw [patternUnits_zero] at this
    simpa using this
  have : 0 < ceilI (fdiv (toF64 n) ratio) := by
    have := Int.ediv_neg_of_neg_of_pos (a := -units (fdiv (toF64 n) ratio)) (b := (unitsPerOne : Int)) (by omega)
      (by exact_mod_cast unitsPerOne_pos)
    rw [ceilI]
    omega
  omega

end Sys2Proof.Machine.Float64
end

