-- ==== Sys2Proof/Laws/Levinson.lean ====
section
/-! SUPPORT. The energies of a Levinson-Durbin recursion that succeeds (43 R200, R202, R204). -/

namespace Sys2Proof.Machine

open Sys2Proof.Machine.Float64 Sys2Proof.Safety

/-- The energies of a recursion that succeeds: each passed its check, and each is the next energy of the one before. -/
theorem levinsonSteps_energies {R : List F64} {n m : Nat} {a es cs fs : List F64} {e : F64}
    (h : levinsonSteps R n m a es e = .ok (cs, fs)) :
    ∃ ts, fs = es ++ ts ∧ ts.length = n + 1 ∧ entry ts 0 = e ∧ (∀ j, j < n → strictEnergyOk (entry ts j) = true) ∧
      finalEnergyOk (entry ts n) = true ∧ ∀ j, j < n → ∃ k, entry ts (j + 1) = nextEnergy (entry ts j) k := by
  induction n generalizing m a es e with
  | zero =>
    rw [levinsonSteps] at h
    split at h
    · next hf =>
      obtain ⟨-, rfl⟩ := Prod.mk.inj (Except.ok.inj h)
      exact ⟨[e], rfl, rfl, rfl, by omega, hf, by omega⟩
    · cases h
  | succ n ih =>
    rw [levinsonSteps] at h
    split at h
    · next hf =>
      obtain ⟨ts, rfl, hl, h0, hs, hfin, hk⟩ := ih h
      refine ⟨e :: ts, by simp, by simp [hl], rfl, fun j hj => ?_, hfin, fun j hj => ?_⟩
      · cases j with
        | zero => exact hf
        | succ j => exact hs j (by omega)
      · cases j with
        | zero => exact ⟨_, h0⟩
        | succ j => exact hk j (by omega)
    · cases h
/-- An energy that is finite does not exceed the one before, which passed the strict check (43 R204). -/
theorem nextEnergy_le {e k : F64} (he : strictEnergyOk e = true) (hf : isFinite (nextEnergy e k) = true) :
    fle (nextEnergy e k) e = true := by
  obtain ⟨hfe, hpos⟩ := (strictEnergyOk_iff e).mp he
  have ⟨_, hg⟩ := isFinite_of_fmul hf
  have ⟨_, hp⟩ := isFinite_of_fadd (show isFinite (fadd one (fneg (fmul k k))) = true from hg)
  rw [isFinite_fneg] at hp
  have hk := (isFinite_of_fmul hp).1
  have hs : sign e = false := by
    by_contra hc
    have h1 := units_nonpos_of_sign (by simpa using hc)
    have h2 := (flt_iff (by decide +kernel) (not_isNaN_of_isFinite hfe)).mp hpos
    rw [show units zero = 0 by decide +kernel] at h2
    omega
  rw [fle_iff (not_isNaN_of_isFinite hf) (not_isNaN_of_isFinite hfe)]
  exact units_fmul_le hfe hg hs (units_one_sub_le hp (units_square_nonneg hk))

end Sys2Proof.Machine
end

