-- ==== Sys2Proof/Laws/PerInstr.lean ====
section
/-! SUPPORT. Statements about every command as syntax, one lemma a constructor. -/

namespace Sys2Proof.Laws.Encoding

/-- A command is well formed, its word decodes to it, the word's fields are the command's, and the fields make the word (30 R90 to
R95). -/
def Statement (i : Instr) : Prop :=
  i.wellFormed = true ∧ decode (encode i) = .ok i ∧ fieldsOf (encode i) = i.fields ∧ wordOf i.fields = encode i

theorem fft : Statement .fft := by unfold Statement; decide
theorem fftR : Statement .fftR := by unfold Statement; decide
theorem ifft : Statement .ifft := by unfold Statement; decide
theorem acorr : Statement .acorr := by unfold Statement; decide
theorem levdur : Statement .levdur := by unfold Statement; decide
theorem iirsyn : Statement .iirsyn := by unfold Statement; decide
theorem resample : Statement .resample := by unfold Statement; decide
theorem cepstrum : Statement .cepstrum := by unfold Statement; decide
theorem vqnear : Statement .vqnear := by unfold Statement; decide

end Sys2Proof.Laws.Encoding
end

