-- ==== Sys2Proof/Laws/Step.lean ====
section
/-! SUPPORT. Everything the command step can do, what a write to the register window does to the parts of the state, and runs of several steps. -/

namespace Sys2Proof.Machine

open Sys2Proof.Safety

/-! ### The command step -/

/-- Everything the command step can do: fail with an error code, fault on an unwritten byte, or store a command's results. -/
theorem commandStep_cases (s : State) :
    (∃ f, commandStep s = .next (s.fail f) ∧ f.code ≠ .none) ∨ commandStep s = .fault .unwrittenRead ∨
    ∃ i rs r, decode s.snap.cmd = .ok i ∧ checkCommand i s.snap.args = .ok rs ∧
      computeOf i s.snap.args s.dmem = some (.ok r) ∧
      commandStep s = .next (succeeded s (Mem.writeBlocks s.dmem r.blocks) r.count) := by
  unfold commandStep
  cases hd : decode s.snap.cmd with
  | error e => exact .inl ⟨_, rfl, by simp [illegalCommand]⟩
  | ok i =>
    rcases exec_cases i s with ⟨f, hc, hx⟩ | ⟨rs, hc, ⟨f, hf, hx⟩ | ⟨hf, hx⟩ | ⟨r, hf, hx⟩⟩
    · exact .inl ⟨f, hx, (checkCommand_failure hc).1⟩
    · exact .inl ⟨f, hx, (computeOf_failure hf).1⟩
    · exact .inr (.inl hx)
    · exact .inr (.inr ⟨i, rs, r, rfl, hc, hf, hx⟩)

theorem engineNext_eq {s s' : State} (h : engineNext s s') : s' = s.withPort s'.port ∧ s.phase = .busy := by
  rcases h with ⟨hp, ⟨hq, rfl⟩ | ⟨rest, hq, rfl⟩⟩ <;> exact ⟨rfl, hp⟩

/-- The blocks of a successful command keep the memory's canonical form. -/
theorem wf_results {i : Instr} {a : Args} {m : Mem} {rs : List Region} {r : Results} (hm : Mem.wf m)
    (hc : checkCommand i a = .ok rs) (hf : computeOf i a m = some (.ok r)) : Mem.wf (Mem.writeBlocks m r.blocks) := by
  obtain ⟨hr, hok, -⟩ := (checkCommand_ok_iff i a rs).mp hc
  refine wf_writeBlocks hm fun b hb => ?_
  obtain ⟨q, hq, -, h₁, h₂⟩ := blocks_fill_regions hr hf b hb
  rw [← h₁, ← h₂]
  exact (hok q hq).1

/-! ### Register writes -/

/-- A register write ends BUSY only as a soft reset. -/
theorem writeWindow_phase {s : State} (off : Nat) (v : Word) (hp : s.phase = .busy) :
    (s.writeWindow off v).phase = .busy ∨ off = 0x010 ∧ v.getLsbD 0 = true := by
  unfold State.writeWindow
  split
  · next r h =>
    have hoff : r.offset = off := by simpa using List.find?_some h
    cases r
    case ctrl =>
      by_cases hv : v.getLsbD 0 = true
      · exact .inr ⟨hoff.symm, hv⟩
      · left
        simp only [State.writeReg, State.writeCtrl, hv]
        exact hp
    all_goals (left; simp [State.writeReg, State.writeCmd, hp])
  · exact .inl hp

/-- No register write touches what is still to arrive. -/
theorem writeReg_port (s : State) (r : Reg) (v : Word) : (s.writeReg r v).port = s.port := by
  cases r <;> simp only [State.writeReg] <;> try rfl
  · rw [State.writeCtrl]
    split
    · rw [State.softReset]
      split <;> rfl
    · rfl
  · rw [State.writeCmd]
    split <;> rfl

theorem writeWindow_port (s : State) (off : Nat) (v : Word) : (s.writeWindow off v).port = s.port := by
  unfold State.writeWindow
  split
  · exact writeReg_port s _ v
  · rfl

/-- An access outside the DMEM window always completes. -/
theorem performAccess_window {s : State} {a : HostAccess} (hd : a.toDmem = false) :
    ∃ t, performAccess s a = .next t ∧ t.port = s.port := by
  have hlt : a.offset.toNat < 0x04000000 := by
    rw [Bool.eq_false_iff, ne_eq, toDmem_iff] at hd
    omega
  cases a with
  | read off w =>
    simp only [HostAccess.offset] at hlt
    simp only [performAccess, performRead]
    rcases Nat.lt_or_ge off.toNat 0x1000 with h | h
    · rw [placeOf_window h]
      simp only
      split <;> exact ⟨_, rfl, rfl⟩
    · rw [placeOf_unmapped h hlt]
      exact ⟨_, rfl, rfl⟩
  | write off w v =>
    simp only [HostAccess.offset] at hlt
    simp only [performAccess, performWrite]
    refine ⟨_, rfl, ?_⟩
    rcases Nat.lt_or_ge off.toNat 0x1000 with h | h
    · rw [placeOf_window h]
      simp only
      split
      · exact writeWindow_port s _ v
      · rfl
    · rw [placeOf_unmapped h hlt]
      rfl

/-- No register write but a soft reset touches the snapshot or DMEM while BUSY. -/
theorem writeWindow_keeps {s : State} {off : Nat} {v : Word} (hp : s.phase = .busy) (h : ¬(off = 0x010 ∧ v.getLsbD 0 = true)) :
    (s.writeWindow off v).snap = s.snap ∧ (s.writeWindow off v).dmem = s.dmem := by
  unfold State.writeWindow
  split
  · next r hr =>
    have hoff : r.offset = off := by simpa using List.find?_some hr
    cases r
    case ctrl =>
      have hv : v.getLsbD 0 = false := Bool.eq_false_iff.mpr fun hv => h ⟨hoff.symm, hv⟩
      simp only [State.writeReg, State.writeCtrl, hv]
      exact ⟨rfl, rfl⟩
    case cmd => simp [State.writeReg, State.writeCmd, hp, State.drop]
    all_goals exact ⟨rfl, rfl⟩
  · exact ⟨rfl, rfl⟩

/-- Everything a BUSY step can do, no soft reset arriving: a step at the port keeps BUSY, the snapshot and DMEM, or it is the command
step. -/
theorem step_busy_cases {s t : State} (hp : s.phase = .busy) (hr : ¬softResetNext s) (h : step s = .next t) :
    (t.phase = .busy ∧ t.snap = s.snap ∧ t.dmem = s.dmem) ∨ ∃ s', engineNext s s' ∧ commandStep s' = .next t := by
  rcases step_cases s with ⟨a, rest, -, -, -, hs⟩ | ⟨a, rest, -, hq, hd, hs⟩ | ⟨s', he, hs⟩ | ⟨_, _, hi, -⟩ | ⟨_, _, hi, -⟩ |
    ⟨_, hi, -⟩ | ⟨hi, -⟩
  · rw [hs] at h
    cases h
    exact .inl ⟨hp, rfl, rfl⟩
  · left
    rw [hs] at h
    rcases performAccess_cases (s.withPort rest) a with ⟨r, hx⟩ | hx | ⟨off, v, rfl, hw, hx⟩ | ⟨off, w, v, x, rfl, hpl, -, -⟩
    · rw [hx] at h
      cases h
      exact ⟨hp, rfl, rfl⟩
    · rw [hx] at h
      cases h
    · rw [hx] at h
      cases h
      have hn : ¬(off.toNat = 0x010 ∧ v.getLsbD 0 = true) := fun hc =>
        hr ⟨v, rest, by rw [hq, show off = 0x010 from BitVec.eq_of_toNat_eq hc.1], hc.2⟩
      have hk := writeWindow_keeps (s := s.withPort rest) hp hn
      rcases writeWindow_phase (s := s.withPort rest) off.toNat v hp with hph | hc
      · exact ⟨hph, hk.1, hk.2⟩
      · exact absurd hc hn
    · simp [HostAccess.toDmem, HostAccess.offset, hpl] at hd
  · exact .inr ⟨s', he, by rw [← hs]; exact h⟩
  all_goals (rw [hp] at hi; cases hi)

/-! ### Runs -/

theorem run_next {s t : State} (k : Nat) (h : step s = .next t) :
    Host.Core.run Sys2Proof.core (k + 1) s = Host.Core.run Sys2Proof.core k t := by
  have hc : Sys2Proof.core.step s = .next t := h
  refine (Host.Core.run.eq_2 Sys2Proof.core s k).trans ?_
  rw [hc]

theorem run_fault {s : State} {r : Fault} (k : Nat) (h : step s = .fault r) :
    Host.Core.run Sys2Proof.core (k + 1) s = .fault r := by
  have hc : Sys2Proof.core.step s = .fault r := h
  refine (Host.Core.run.eq_2 Sys2Proof.core s k).trans ?_
  rw [hc]

end Sys2Proof.Machine
end

