-- ==== Sys2Proof/Laws/Transform.lean ====
section
/-! SUPPORT. Lemmas about the transform by index: the halves of a sequence, one combine, the passes of the iterative transform on a block, and bit reversal. -/

namespace Sys2Proof.Machine

open Sys2Proof.Machine.Float64 Sys2Proof.Safety

theorem evens_getElem? {α : Type} (xs : List α) (j : Nat) : (evens xs)[j]? = xs[2 * j]? := by
  induction xs using evens.induct generalizing j with
  | case1 => simp [evens]
  | case2 x => cases j <;> simp [evens]
  | case3 x y xs ih => cases j <;> simp [evens, ih, Nat.mul_add]

theorem odds_getElem? {α : Type} (xs : List α) (j : Nat) : (odds xs)[j]? = xs[2 * j + 1]? := by
  induction xs using evens.induct generalizing j with
  | case1 => simp [odds]
  | case2 x => cases j <;> simp [odds]
  | case3 x y xs ih => cases j <;> simp [odds, ih, Nat.mul_add]

theorem twiddled_getElem? (m k : Nat) (os : List Cplx) (j : Nat) :
    (twiddled m k os)[j]? = os[j]?.map (fun o => cmul (Elementary.tw (k + j) m) o) := by
  induction os generalizing k j with
  | nil => simp [twiddled]
  | cons o os ih =>
    cases j with
    | zero => simp [twiddled]
    | succ j => simp only [twiddled, List.getElem?_cons_succ, ih, Nat.add_right_comm k 1 j, Nat.add_assoc k j 1]

theorem complexEntry_of_getElem? {xs : List Cplx} {i : Nat} {x : Cplx} (h : xs[i]? = some x) : complexEntry xs i = x := by
  simp [complexEntry, List.getD, h]

theorem getElem?_eq_complexEntry {xs : List Cplx} {i : Nat} (h : i < xs.length) :
    xs[i]? = some (complexEntry xs i) := by
  simp [complexEntry, h]

/-- One level of the recursion, for a sequence of `2^(l+1)` values. -/
theorem fftCore_succ {l : Nat} {xs : List Cplx} (h : xs.length = 2 ^ (l + 1)) :
    fftCore xs = combine (2 ^ (l + 1)) (fftCore (evens xs)) (fftCore (odds xs)) := by
  have he : (evens xs).length = 2 ^ l := by rw [evens_length, h, pow_succ]; omega
  have ho : (odds xs).length = 2 ^ l := by rw [odds_length, h, pow_succ]; omega
  rw [fftCore, h, Nat.log2_two_pow, fftLevels, fftCore, he, fftCore, ho, Nat.log2_two_pow]

/-- The two outputs of butterfly `k` of a combine. -/
theorem combine_entry {m h : Nat} {es os : List Cplx} (he : es.length = h) (ho : os.length = h) {k : Nat} (hk : k < h) :
    complexEntry (combine m es os) k =
        cadd (complexEntry es k) (cmul (Elementary.tw k m) (complexEntry os k)) ∧
      complexEntry (combine m es os) (k + h) =
        csub (complexEntry es k) (cmul (Elementary.tw k m) (complexEntry os k)) := by
  have ht : (twiddled m 0 os)[k]? = some (cmul (Elementary.tw k m) (complexEntry os k)) := by
    rw [twiddled_getElem?, getElem?_eq_complexEntry (by omega)]; simp
  have hes := getElem?_eq_complexEntry (xs := es) (i := k) (by omega)
  constructor <;> apply complexEntry_of_getElem? <;> simp only [combine]
  · rw [List.getElem?_append_left (by simp; omega), List.getElem?_zipWith, hes, ht]
  · rw [List.getElem?_append_right (by simp; omega), List.getElem?_zipWith,
      show k + h - (List.zipWith cadd es (twiddled m 0 os)).length = k by simp; omega, hes, ht]

theorem evens_eq_map {l : Nat} {xs : List Cplx} (h : xs.length = 2 ^ (l + 1)) :
    evens xs = (List.range (2 ^ l)).map (fun j => complexEntry xs (2 * j)) := by
  apply List.ext_getElem?
  intro i
  rw [evens_getElem?]
  rw [pow_succ] at h
  by_cases hi : i < 2 ^ l
  · rw [getElem?_eq_complexEntry (by omega)]; simp [hi]
  · simp [hi, h]; omega

theorem odds_eq_map {l : Nat} {xs : List Cplx} (h : xs.length = 2 ^ (l + 1)) :
    odds xs = (List.range (2 ^ l)).map (fun j => complexEntry xs (2 * j + 1)) := by
  apply List.ext_getElem?
  intro i
  rw [odds_getElem?]
  rw [pow_succ] at h
  by_cases hi : i < 2 ^ l
  · rw [getElem?_eq_complexEntry (by omega)]; simp [hi]
  · simp [hi, h]; omega

/-- The passes of sizes up to `2^l` at a position read no position outside its block of `2^l`. -/
theorem butterflyPasses_congr (l : Nat) (f g : Nat → Cplx) (b : Nat) (h : ∀ i, i / 2 ^ l = b → f i = g i) :
    ∀ i, i / 2 ^ l = b → butterflyPasses l f i = butterflyPasses l g i := by
  induction l generalizing b with
  | zero => exact h
  | succ l ih =>
    intro i hi
    have key : ∀ j, j / 2 ^ (l + 1) = b → butterflyPasses l f j = butterflyPasses l g j := by
      intro j hj
      refine ih (j / 2 ^ l) (fun q hq => h q ?_) j rfl
      rw [pow_succ, ← Nat.div_div_eq_div_mul, hq, Nat.div_div_eq_div_mul, ← pow_succ, hj]
    have hpos := Nat.two_pow_pos l
    have e : 2 ^ (l + 1) = 2 * 2 ^ l := by rw [pow_succ, Nat.mul_comm]
    have hdm := Nat.div_add_mod i (2 ^ (l + 1))
    have hm := Nat.mod_lt i (Nat.two_pow_pos (l + 1))
    rw [hi] at hdm
    have inBlock : ∀ j, 2 ^ (l + 1) * b ≤ j → j < 2 ^ (l + 1) * b + 2 ^ (l + 1) → j / 2 ^ (l + 1) = b := by
      intro j h₁ h₂
      apply Nat.div_eq_of_lt_le
      · rw [Nat.mul_comm]; exact h₁
      · rw [Nat.succ_mul, Nat.mul_comm]; exact h₂
    have half : 2 ^ (l + 1) / 2 = 2 ^ l := by omega
    simp only [butterflyPasses, butterflyPass, half]
    split
    · rw [key i hi, key (i + 2 ^ l) (inBlock _ (by omega) (by omega))]
    · rw [key i hi, key (i - 2 ^ l) (inBlock _ (by omega) (by omega))]

/-- The passes of sizes up to `2^l` do the same in every block of `2^l`. -/
theorem butterflyPasses_shift (l : Nat) (f : Nat → Cplx) (c : Nat) :
    ∀ i, butterflyPasses l (fun i => f (i + c * 2 ^ l)) i = butterflyPasses l f (i + c * 2 ^ l) := by
  induction l generalizing c with
  | zero => intro i; rfl
  | succ l ih =>
    intro i
    have e : c * 2 ^ (l + 1) = (2 * c) * 2 ^ l := by rw [pow_succ]; ring
    have half : 2 ^ (l + 1) / 2 = 2 ^ l := by rw [pow_succ]; omega
    have hm : (i + c * 2 ^ (l + 1)) % 2 ^ (l + 1) = i % 2 ^ (l + 1) := by rw [Nat.add_mul_mod_self_right]
    simp only [butterflyPasses, butterflyPass, half]
    rw [hm, e]
    split
    · rw [ih (2 * c) i, ih (2 * c) (i + 2 ^ l), show i + 2 ^ l + 2 * c * 2 ^ l = i + 2 * c * 2 ^ l + 2 ^ l by omega]
    · have := Nat.mod_le i (2 ^ (l + 1))
      rw [ih (2 * c) i, ih (2 * c) (i - 2 ^ l), show i - 2 ^ l + 2 * c * 2 ^ l = i + 2 * c * 2 ^ l - 2 ^ l by omega]

theorem reverseBits_low (l i : Nat) (h : i < 2 ^ l) : reverseBits (l + 1) i = 2 * reverseBits l i := by
  induction l generalizing i with
  | zero => simp at h; subst h; rfl
  | succ l ih =>
    rw [reverseBits, ih (i / 2) (by rw [pow_succ] at h; omega), reverseBits, pow_succ]; ring

theorem reverseBits_high (l i : Nat) (h : i < 2 ^ l) : reverseBits (l + 1) (i + 2 ^ l) = 2 * reverseBits l i + 1 := by
  induction l generalizing i with
  | zero => simp at h; subst h; rfl
  | succ l ih =>
    have e : (i + 2 ^ (l + 1)) / 2 = i / 2 + 2 ^ l := by rw [pow_succ]; omega
    have e' : (i + 2 ^ (l + 1)) % 2 = i % 2 := by rw [pow_succ]; omega
    rw [reverseBits, e, e', ih (i / 2) (by rw [pow_succ] at h; omega), reverseBits, pow_succ]; ring

end Sys2Proof.Machine
end

