-- ==== Sys2Proof/Tests/Slice0.lean ====
section
/-! SUPPORT. Tests with values from spec/ (mostly the vectors of 95 section 2, named in each test's comment), and for every obligation with hypotheses a witness that meets them. -/

namespace Sys2Proof.Tests

-- One test at a time: many kernel evaluations side by side ask for more memory than a check allows.
set_option Elab.async false

open Sys2Proof.Machine Sys2Proof.Machine.Float64 Sys2Proof.Safety

/-! ### Well-formedness and decoding -/

/-- Each check refuses the fields it is for, and accepts at its bound. -/
theorem test_wellFormed_refuses :
    (Fields.mk 0x01 0 1).reservedOk = false ∧ (Fields.mk 0x01 0 1).wellFormed = false ∧
    (Fields.mk 0x00 0 0).opOk = false ∧ (Fields.mk 0x09 0 0).opOk = false ∧ (Fields.mk 0x00 0 0).wellFormed = false ∧
    (Fields.mk 0x02 1 0).realOk = false ∧ (Fields.mk 0x02 1 0).wellFormed = false ∧
    (Fields.mk 0x08 0 0).wellFormed = true ∧ (Fields.mk 0x01 1 0).wellFormed = true := by decide

/-- Words laid out field by field as 30 R90 says, with the operation codes of 30 R95. -/
theorem test_decode_words_from_fields :
    decode ((0 : BitVec 55) ++ (0 : BitVec 1) ++ (0b00000001 : BitVec 8)) = .ok .fft ∧
    decode ((0 : BitVec 55) ++ (1 : BitVec 1) ++ (0b00000001 : BitVec 8)) = .ok .fftR ∧
    decode ((0 : BitVec 55) ++ (0 : BitVec 1) ++ (0b00000010 : BitVec 8)) = .ok .ifft ∧
    decode ((0 : BitVec 55) ++ (0 : BitVec 1) ++ (0b00000011 : BitVec 8)) = .ok .acorr ∧
    decode ((0 : BitVec 55) ++ (0 : BitVec 1) ++ (0b00000100 : BitVec 8)) = .ok .levdur ∧
    decode ((0 : BitVec 55) ++ (0 : BitVec 1) ++ (0b00000101 : BitVec 8)) = .ok .iirsyn ∧
    decode ((0 : BitVec 55) ++ (0 : BitVec 1) ++ (0b00000110 : BitVec 8)) = .ok .resample ∧
    decode ((0 : BitVec 55) ++ (0 : BitVec 1) ++ (0b00000111 : BitVec 8)) = .ok .cepstrum ∧
    decode ((0 : BitVec 55) ++ (0 : BitVec 1) ++ (0b00001000 : BitVec 8)) = .ok .vqnear := by decide

/-- Illegal words at the bounds of 30 R97. -/
theorem test_decode_refuses :
    decode 0x0000000000000000 = .error .opcode ∧ decode 0x0000000000000009 = .error .opcode ∧
    decode 0x00000000000000FF = .error .opcode ∧ decode 0x0000000000000102 = .error .realFlag ∧
    decode 0x0000000000000100 = .error .realFlag ∧ decode 0x0000000000000201 = .error .reservedBits ∧
    decode 0x8000000000000001 = .error .reservedBits := by decide

/-- The opcode table's numbering: bit 0 is the least significant bit of the word. -/
theorem test_decodeTableWord : decodeTableWord 64 0x101 = some .fftR ∧ decodeTableWord 64 0x102 = none := by decide

/-! ### Helpers -/

/-- A state in which a command has just been accepted on argument registers `a`, with blocks of reals in DMEM. -/
def prepared (i : Instr) (a : Args) (blocks : List (Nat × List F64)) : State :=
  ((State.reset.withArgs a).withDmem
    (Mem.writeBlocks [] (blocks.map (fun b : Nat × List F64 => (b.1, realBytes b.2))))).accept (encode i)

/-- The next state of an outcome. -/
def nextOr : Host.Outcome State Fault Refusal → State
  | .next t => t
  | .fault _ => State.reset
  | .refused _ => State.reset

/-- The outcome is a next state. -/
def isNext : Host.Outcome State Fault Refusal → Bool
  | .next _ => true
  | .fault _ => false
  | .refused _ => false

theorem eq_next_nextOr {o : Host.Outcome State Fault Refusal} (h : isNext o = true) : o = .next (nextOr o) := by
  cases o <;> simp_all [isNext, nextOr]

/-- An observation less its bytes. -/
def registersOf (o : Observation) : Observation := { o with written := [] }

/-- The reals at `base` after an outcome, and the registers observed (70 R365). -/
def seen (base n : Nat) : Host.Outcome State Fault Refusal → Option (Option (List F64) × Observation)
  | .next t => some (loadReals t.dmem base n, registersOf (observe t))
  | .fault _ => none
  | .refused _ => none

/-- A success with the given reals and count. -/
def good (xs : List F64) (count : Word) : Option (Option (List F64) × Observation) := some (some xs, ⟨false, 0, 0, 0, count, []⟩)

/-- A failure with the given error registers. -/
def bad (code info0 info1 result : Word) : Option Observation := some ⟨true, code, info0, info1, result, []⟩

/-! ### One step of each command, at vectors of 95 section 2 -/

/-- T5: an impulse at index 1 gives the twiddles of size 8. -/
theorem test_fft_impulse :
    seen 0x1000 16 (exec .fft (prepared .fft { Args.reset with len0 := 8, dst0 := 0x1000 }
      [(0, [0, 0, one, 0, 0, 0, 0, 0, 0, 0, 0, 0, 0, 0, 0, 0])])) =
    good [one, 0, 0x3FE6A09E667F3BCD, 0xBFE6A09E667F3BCD, 0, 0xBFF0000000000000, 0xBFE6A09E667F3BCD, 0xBFE6A09E667F3BCD,
      0xBFF0000000000000, 0, 0xBFE6A09E667F3BCD, 0x3FE6A09E667F3BCD, 0, one, 0x3FE6A09E667F3BCD, 0x3FE6A09E667F3BCD] 8 := by
  decide +kernel

/-- T8b: no product is skipped. -/
theorem test_fft_infinity :
    seen 0x1000 4 (exec .fft (prepared .fft { Args.reset with len0 := 2, dst0 := 0x1000 }
      [(0, [0, 0, 0x7FF0000000000000, 0])])) =
    good [0x7FF0000000000000, nan, 0xFFF0000000000000, nan] 2 := by decide +kernel

/-- T3R. -/
theorem test_fftR_four :
    seen 0x1000 8 (exec .fftR (prepared .fftR { Args.reset with len0 := 4, dst0 := 0x1000 }
      [(0, [one, two, 0x4008000000000000, 0x4010000000000000])])) =
    good [0x4024000000000000, 0, 0xC000000000000000, 0x4000000000000000, 0xC000000000000000, 0, 0xC000000000000000,
      0xC000000000000000] 4 := by decide +kernel

/-- TE7: no in-place form. -/
theorem test_fftR_overlap :
    (seen 0 0 (exec .fftR (prepared .fftR { Args.reset with len0 := 2 } []))).map (·.2) = bad 0x0109 0 2 0 := by
  decide +kernel

/-- T4. -/
theorem test_ifft_four :
    seen 0x1000 8 (exec .ifft (prepared .ifft { Args.reset with len0 := 4, dst0 := 0x1000 }
      [(0, [0x4024000000000000, 0, 0xC000000000000000, 0x4000000000000000, 0xC000000000000000, 0, 0xC000000000000000,
        0xC000000000000000])])) =
    good [one, 0x8000000000000000, two, 0x8000000000000000, 0x4008000000000000, 0, 0x4010000000000000,
      0x8000000000000000] 4 := by decide +kernel

/-- T1c: the scale canonicalises a NaN and keeps a zero's sign. -/
theorem test_ifft_one :
    seen 0x1000 2 (exec .ifft (prepared .ifft { Args.reset with len0 := 1, dst0 := 0x1000 }
      [(0, [0x7FF8000000000001, 0x8000000000000000])])) =
    good [nan, 0x8000000000000000] 1 := by decide +kernel

/-- A7: rounded sums in ascending order. -/
theorem test_acorr_rounded :
    seen 0x100 3 (exec .acorr (prepared .acorr { Args.reset with len0 := 3, dst0 := 0x100 }
      [(0, [0x3FB999999999999A, 0x3FC999999999999A, 0x3FD3333333333333])])) =
    good [0x3FC1EB851EB851EC, 0x3FB47AE147AE147B, 0x3F9EB851EB851EB8] 3 := by decide +kernel

/-- A2: the sum starts from `+0.0`. -/
theorem test_acorr_zero :
    seen 0x100 1 (exec .acorr (prepared .acorr { Args.reset with len0 := 1, dst0 := 0x100 }
      [(0, [0x8000000000000000])])) = good [0] 1 := by decide +kernel

/-- L4: the update takes the previous order's coefficients. -/
theorem test_levdur_second_order :
    (seen 0x100 3 (exec .levdur (prepared .levdur { Args.reset with len0 := 3, len1 := 2, dst0 := 0x100, dst1 := 0x200 }
        [(0, [one, 0x3FE0000000000000, 0x3FE0000000000000])]))) =
      good [one, 0xBFD5555555555556, 0xBFD5555555555555] 3 ∧
    (seen 0x200 3 (exec .levdur (prepared .levdur { Args.reset with len0 := 3, len1 := 2, dst0 := 0x100, dst1 := 0x200 }
        [(0, [one, 0x3FE0000000000000, 0x3FE0000000000000])]))) =
      good [one, 0x3FE8000000000000, 0x3FE5555555555555] 3 := by decide +kernel

/-- L8: an energy of zero below the requested order. -/
theorem test_levdur_breakdown :
    (seen 0x100 0 (exec .levdur (prepared .levdur { Args.reset with len0 := 3, len1 := 2, dst0 := 0x100, dst1 := 0x200 }
      [(0, [one, one, 0x3FE0000000000000])]))).map (·.2) = bad 0x0403 1 0 0 := by decide +kernel

/-- I3: two taps and the shift. -/
theorem test_iirsyn_two_taps :
    seen 0x200 5 (exec .iirsyn (prepared .iirsyn
      { Args.reset with len0 := 5, len1 := 2, src1 := 0x100, dst0 := 0x200, fp0 := one }
      [(0, [one, 0, 0, 0, 0]), (0x100, [one, 0xBFF0000000000000, 0x3FE0000000000000])])) =
    good [one, one, 0x3FE0000000000000, 0, 0xBFD0000000000000] 5 := by decide +kernel

/-- I4: the products with the zeroed delay line are performed. -/
theorem test_iirsyn_infinite_coefficient :
    seen 0x200 2 (exec .iirsyn (prepared .iirsyn
      { Args.reset with len0 := 2, len1 := 1, src1 := 0x100, dst0 := 0x200, fp0 := one }
      [(0, [one, 0]), (0x100, [one, 0x7FF0000000000000])])) = good [nan, nan] 2 := by decide +kernel

/-- S5: a rounded ratio and rounded weights. -/
theorem test_resample_thirds :
    seen 0x1000 9 (exec .resample (prepared .resample
      { Args.reset with len0 := 3, len1 := 64, dst0 := 0x1000, fp0 := one, fp1 := 0x4008000000000000 }
      [(0, [0, 0x4008000000000000, 0x4018000000000000])])) =
    good [0, one, two, 0x4008000000000000, 0x400FFFFFFFFFFFFF, 0x4014000000000000, 0x4018000000000000, 0x4018000000000000,
      0x4018000000000000] 9 := by decide +kernel

/-- SE10: a failed capacity check reports the length needed. -/
theorem test_resample_capacity :
    (seen 0 0 (exec .resample (prepared .resample
      { Args.reset with len0 := 4, len1 := 7, dst0 := 0x1000, fp0 := one, fp1 := two } []))).map (·.2) =
    bad 0x0602 0x0B0 8 8 := by decide +kernel

/-- K7. -/
theorem test_cepstrum_four :
    seen 0x1000 4 (exec .cepstrum (prepared .cepstrum
      { Args.reset with len0 := 4, len1 := 4, dst0 := 0x1000, scr := 0x2000 }
      [(0, [one, two, 0x4008000000000000, 0x4010000000000000])])) =
    good [0x3FF44CFA5D5837A8, 0x3FD9C041F7ECBA18, 0x3FCD5240F0E0F20C, 0x3FD9C041F7ECBA18] 4 := by decide +kernel

/-- K3: the work region holds the complex result. -/
theorem test_cepstrum_work_region :
    seen 0x2000 4 (exec .cepstrum (prepared .cepstrum
      { Args.reset with len0 := 2, len1 := 2, dst0 := 0x1000, scr := 0x2000 } [(0, [0, 0])])) =
    good [0xC027069E2AA2AA5B, 0, 0, 0x8000000000000000] 2 := by decide +kernel

/-- Q2: indices 0, 2, 1; two of them lie in each 8-byte word. -/
theorem test_vqnear_plane :
    (match exec .vqnear (prepared .vqnear
        { Args.reset with len0 := 3, len1 := 3, len2 := 2, len3 := 2, src1 := 0x1000, dst0 := 0x2000 }
        [(0, [one, one, 0x4010000000000000, 0, 0, 0x4010000000000000]),
          (0x1000, [0, 0, 0x4008000000000000, 0x4008000000000000, 0x4010000000000000, one])]) with
      | .next t => some (Mem.read t.dmem 0x2000 4, Mem.read t.dmem 0x2004 4, Mem.read t.dmem 0x2008 4, t.result0)
      | .fault _ => none
      | .refused _ => none) = some (some 0, some 2, some 1, 3) := by decide +kernel

/-- Q5: a NaN distance of codeword 0 is never replaced. -/
theorem test_vqnear_nan :
    (match exec .vqnear (prepared .vqnear
        { Args.reset with len0 := 1, len1 := 2, len2 := 1, len3 := 1, src1 := 0x1000, dst0 := 0x2000 }
        [(0, [two]), (0x1000, [nan, 0x4008000000000000])]) with
      | .next t => Mem.read t.dmem 0x2000 4
      | .fault _ => none
      | .refused _ => none) = some 0 := by decide +kernel

/-! ### Arithmetic -/

/-- Ties to even, subnormals, overflow, signed zeros (40 R130, R132). -/
theorem test_arithmetic_corners :
    fadd 0x4340000000000000 one = 0x4340000000000000 ∧ fadd 0x4340000000000001 one = 0x4340000000000002 ∧
    fmul 0x0010000000000000 0x3FE0000000000000 = 0x0008000000000000 ∧ fadd 0x000FFFFFFFFFFFFF 1 = 0x0010000000000000 ∧
    fadd 0x7FEFFFFFFFFFFFFF 0x7FEFFFFFFFFFFFFF = 0x7FF0000000000000 ∧ fdiv one 0x8000000000000000 = 0xFFF0000000000000 ∧
    fsub 0 0 = 0 ∧ fadd 0x8000000000000000 0x8000000000000000 = 0x8000000000000000 ∧
    fdiv one 0x4008000000000000 = 0x3FD5555555555555 ∧ floorI 0xBFF8000000000000 = -2 ∧ ceilI 0xBFF8000000000000 = -1 ∧
    ceilI 1 = 1 ∧ toF64 (2 ^ 53 + 1) = 0x4340000000000000 := by decide +kernel

/-- The table of 95 section 2.1 at odd sixteenths, and `ln` at vectors K2 and K3: `ln(4)` is twice `ln 2`, and `ln(1e-10)` twice
-11.512925464970229. -/
theorem test_parameters :
    Elementary.tw 1 16 = (0x3FED906BCF328D46, 0xBFD87DE2A6AEA963) ∧
    Elementary.tw 7 16 = (0xBFED906BCF328D46, 0xBFD87DE2A6AEA963) ∧
    Elementary.tw 6 16 = (0xBFE6A09E667F3BCD, 0xBFE6A09E667F3BCD) ∧
    Elementary.flog 0x4010000000000000 = 0x3FF62E42FEFA39EF ∧ Elementary.flog Config.cepEpsReset = 0xC037069E2AA2AA5B ∧
    Elementary.flog 0x8000000000000000 = 0xFFF0000000000000 ∧ Elementary.flog 0xBFF0000000000000 = nan := by decide +kernel

/-! ### Witnesses: states and operands that meet the hypotheses of each obligation -/

/-- The reset state with one host access about to arrive. -/
def idleWith (a : HostAccess) (rest : List PortEvent) : State := State.reset.withPort (.access a :: rest)

/-- A state whose running command is the word `w` on the argument registers `a`, with one host access about to arrive. -/
def busyWith (w : Word) (a : Args) (acc : HostAccess) (rest : List PortEvent) : State :=
  ((State.reset.withArgs a).accept w).withPort (.access acc :: rest)

/-- `IllegalWordsFailIllegalCommand`: the engine's turn on the words 0 and `0x102`, and with nothing left at the port. -/
theorem test_witness_illegal_words :
    (engineNext (launched State.reset 0) (State.reset.accept 0) ∧ decode (launched State.reset 0).snap.cmd = .error .opcode) ∧
    (engineNext (State.reset.accept 0x102) (State.reset.accept 0x102) ∧
      decode (State.reset.accept 0x102).snap.cmd = .error .realFlag) :=
  ⟨⟨⟨rfl, .inr ⟨[], rfl, rfl⟩⟩, by decide⟩, ⟨⟨rfl, .inl ⟨rfl, rfl⟩⟩, by decide⟩⟩

/-- `IllegalWordsFailIllegalCommand`, each clause on words at its bounds. -/
theorem test_witness_illegal_word_clauses :
    (∃ e, decode 0x201 = .error e) ∧ (∃ e, decode 0x8000000000000000 = .error e) ∧ (∃ e, decode 0 = .error e) ∧
    (∃ e, decode 9 = .error e) ∧ (∃ e, decode 0xFF = .error e) ∧ (∃ e, decode 0x102 = .error e) :=
  ⟨⟨.reservedBits, by decide⟩, ⟨.reservedBits, by decide⟩, ⟨.opcode, by decide⟩, ⟨.opcode, by decide⟩,
    ⟨.opcode, by decide⟩, ⟨.realFlag, by decide⟩⟩

/-- `CommandWordAccepted` and `CommandWordDropped`. -/
theorem test_witness_command_word :
    ((idleWith (.write 0x018 8 0x1) []).phase = .idle ∧ arrives (idleWith (.write 0x018 8 0x1) []) (.write 0x018 8 0x1) []) ∧
    ((busyWith 0x3 Args.reset (.write 0x018 8 0x1) []).phase = .busy ∧
      arrives (busyWith 0x3 Args.reset (.write 0x018 8 0x1) []) (.write 0x018 8 0x1) []) := by decide

/-- `StatusWriteClearsWrittenOnes`, while IDLE with every field set and while BUSY, and `InterruptEnableStoresThreeBits`. -/
theorem test_witness_status_and_irq_en :
    arrives { idleWith (.write 0x020 8 0xE) [] with done := true, err := true, ovr := true } (.write 0x020 8 0xE) [] ∧
    arrives (busyWith 0x1 Args.reset (.write 0x020 8 0x8) []) (.write 0x020 8 0x8) [] ∧
    arrives (idleWith (.write 0x028 8 0xFF) []) (.write 0x028 8 0xFF) [] := by decide

/-- `ArgumentRegisterHoldsWrittenWord` and `RunningCommandIgnoresArgumentRegisters`, for every register they name. -/
theorem test_witness_argument_registers :
    ∀ r ∈ [Reg.src0, .src1, .dst0, .dst1, .scr, .len0, .len1, .len2, .len3, .fp0, .fp1, .cepEps],
      arrives (idleWith (.write (registerOffset r) 8 0xFFFFFFFFFFFFFFFF) []) (.write (registerOffset r) 8 0xFFFFFFFFFFFFFFFF) [] ∧
      ((busyWith 0x1 Args.reset (.write (registerOffset r) 8 5) []).phase = .busy ∧
        arrives (busyWith 0x1 Args.reset (.write (registerOffset r) 8 5) []) (.write (registerOffset r) 8 5) []) := by decide

/-- `ReservedOffsetsReadZero`: the four bounds, a read and a write. -/
theorem test_witness_reserved_offsets :
    ∀ off ∈ [0x050, 0x078, 0x0E0, 0xFF8], off % 8 = 0 ∧ (0x050 ≤ off ∧ off ≤ 0x078 ∨ 0x0E0 ≤ off ∧ off ≤ 0xFF8) ∧
      arrives (idleWith (.read (BitVec.ofNat 27 off) 8) []) (.read (BitVec.ofNat 27 off) 8) [] ∧
      arrives (idleWith (.write (BitVec.ofNat 27 off) 8 1) []) (.write (BitVec.ofNat 27 off) 8 1) [] := by decide

/-- `ReadOnlyRegistersIgnoreWrites`. -/
theorem test_witness_read_only_registers :
    ∀ r ∈ [Reg.id, .cfg, .errCode, .errInfo0, .errInfo1, .result0],
      arrives (idleWith (.write (registerOffset r) 8 1) []) (.write (registerOffset r) 8 1) [] := by decide

/-- `BusErrorsChangeNothing`: each clause at its bounds. -/
theorem test_witness_bus_errors :
    ∀ a ∈ [HostAccess.read 0x1000 8, .write 0x3FFFFFF 1 0, .read 0x018 4, .write 0x01C 8 0, .read 0xFFF 1,
        .read 0x4000001 2, .write 0x4000000 3 0, .read 0x7FFFFFC 8, .write 0x4000000 0 0],
      arrives (idleWith a []) a [] ∧
      (0x1000 ≤ a.offset.toNat ∧ a.offset.toNat < 0x04000000 ∨
        a.offset.toNat < 0x1000 ∧ ¬(a.width = 8 ∧ a.offset.toNat % 8 = 0) ∨
        0x04000000 ≤ a.offset.toNat ∧ (idleWith a []).phase = .idle ∧
          ¬((a.width = 1 ∨ a.width = 2 ∨ a.width = 4 ∨ a.width = 8) ∧ a.offset.toNat % a.width = 0)) := by decide

/-- `HostReadsHaveNoSideEffect`: a read of every register, in IDLE and in BUSY. -/
theorem test_witness_register_reads :
    ∀ r ∈ Reg.all,
      arrives (idleWith (.read (registerOffset r) 8) []) (.read (registerOffset r) 8) [] ∧
      arrives (busyWith 0x1 Args.reset (.read (registerOffset r) 8) []) (.read (registerOffset r) 8) [] := by decide

/-- `HostReadsHaveNoSideEffect`: a read of `STATUS` while BUSY. -/
theorem test_witness_host_read :
    arrives (busyWith 0x1 Args.reset (.read 0x020 8) []) (.read 0x020 8) [] ∧
    ¬((busyWith 0x1 Args.reset (.read 0x020 8) []).phase = .busy ∧ (HostAccess.read 0x020 8).toDmem = true) ∧
    step (busyWith 0x1 Args.reset (.read 0x020 8) []) =
      .next (nextOr (step (busyWith 0x1 Args.reset (.read 0x020 8) []))) :=
  ⟨by decide, by decide, eq_next_nextOr (by decide)⟩

/-- `DmemLoadReturnsStoredValue`: the first 8 bytes of DMEM and its last byte. -/
theorem test_witness_dmem_store_and_load :
    ∀ p ∈ [(0, 8), (0x03FFFFFF, 1), (0x03FFFFFC, 4), (2, 2)],
      let s := idleWith (.write (dmemOffsetOf p.1) p.2 0x1234) [.access (.read (dmemOffsetOf p.1) p.2)]
      s.phase = .idle ∧ (p.2 = 1 ∨ p.2 = 2 ∨ p.2 = 4 ∨ p.2 = 8) ∧ p.1 % p.2 = 0 ∧ p.1 < Config.dmemSize ∧
      arrives s (.write (dmemOffsetOf p.1) p.2 0x1234) [.access (.read (dmemOffsetOf p.1) p.2)] := by decide

/-- `NarrowStoresMakeTheSameDouble` (20 R62): the last element of a sequence of each kind, and where its bytes lie. -/
theorem test_layouts :
    1 < [one, two].length ∧ 0 < [(one, two)].length ∧ 1 < [0, 0x01020304].length ∧
      complexBytes [(one, two)] = [0, 0, 0, 0, 0, 0, 0xF0, 0x3F, 0, 0, 0, 0, 0, 0, 0, 0x40] ∧
      indexBytes [0, 0x01020304] = [0, 0, 0, 0, 4, 3, 2, 1] ∧
      loadReals (Mem.writeBytes [] 8 (realBytes [one, two])) 8 2 = some [one, two] ∧
      loadComplexes (Mem.writeBytes [] 8 (realBytes [one, two])) 8 1 = some [(one, two)] := by decide +kernel

/-- `DmemAccessesAreHeldWhileBusy`: offsets on either side of the DMEM window's start, and a held access in IDLE. -/
theorem test_witness_held_accesses :
    ((busyWith 0x1 Args.reset (.read 0x4000000 8) []).phase = .busy ∧
      (busyWith 0x1 Args.reset (.read 0x4000000 8) []).port = .access (.read 0x4000000 8) :: [] ∧
      0x04000000 ≤ (HostAccess.read 0x4000000 8).offset.toNat) ∧
    ((busyWith 0x1 Args.reset (.read 0x3FFFFFF 8) []).port = .access (.read 0x3FFFFFF 8) :: [] ∧
      (HostAccess.read 0x3FFFFFF 8).offset.toNat < 0x04000000) ∧
    ((State.reset.withHeld [.read 0x4000000 8]).phase = .idle ∧
      (State.reset.withHeld [.read 0x4000000 8]).held = .read 0x4000000 8 :: []) := by decide

/-- `UnwrittenHostReadFaults`: seven bytes of a word written, the last not. -/
theorem test_witness_unwritten_read :
    let s := (idleWith (.read (dmemOffsetOf 8) 8) []).withDmem (Mem.writeBytes [] 8 [1, 2, 3, 4, 5, 6, 7])
    s.phase = .idle ∧ 8 % 8 = 0 ∧ 8 < Config.dmemSize ∧ arrives s (.read (dmemOffsetOf 8) 8) [] ∧
      8 ≤ 15 ∧ 15 < 8 + 8 ∧ Mem.readByte s.dmem 15 = none ∧ isNext (step s) = false := by decide +kernel

/-- `SoftResetReinitialises`: with a DMEM read held, which the step after the reset performs although a `CMD` write has arrived. -/
theorem test_witness_soft_reset_held :
    let s := { busyWith 0 Args.reset (.write 0x010 8 1) [.access (.write 0x018 8 1)] with held := [.read 0x4000001 8] }
    arrives s (.write 0x010 8 1) [.access (.write 0x018 8 1)] ∧
      (nextOr (step s)).held = .read 0x4000001 8 :: [] ∧ (nextOr (step s)).phase = .idle ∧
      (nextOr (step (nextOr (step s)))).answers = [.written, .busError] ∧
      (nextOr (step (nextOr (step s)))).port = [.access (.write 0x018 8 1)] := by
  refine ⟨⟨rfl, ?_⟩, ?_⟩ <;> decide

/-- `SoftResetReinitialises`: in IDLE, with a command running that passes its checks, and with one that does not. -/
theorem test_witness_soft_reset :
    (1 : Word).getLsbD 0 = true ∧ arrives (idleWith (.write 0x010 8 1) []) (.write 0x010 8 1) [] ∧
    (let s := busyWith 0x3 { Args.reset with len0 := 1, dst0 := 8 } (.write 0x010 8 1) [];
      arrives s (.write 0x010 8 1) [] ∧ s.phase = .busy ∧ decode s.snap.cmd = .ok .acorr ∧
      checkCommand .acorr s.snap.args = .ok [⟨0, 0, 8, 8, .input⟩, ⟨2, 8, 8, 8, .output⟩]) ∧
    (let s := busyWith 0x3 Args.reset (.write 0x010 8 1) [];
      arrives s (.write 0x010 8 1) [] ∧ s.phase = .busy ∧ decode s.snap.cmd = .ok .acorr ∧
      checkCommand .acorr s.snap.args = .error (emptyInput offLen0)) := by decide

/-- `ControlWithoutResetBitDoesNothing`. -/
theorem test_witness_control :
    arrives (idleWith (.read 0x010 8) []) (.read 0x010 8) [] ∧ (0xFFFFFFFFFFFFFFFE : Word).getLsbD 0 = false ∧
    arrives (idleWith (.write 0x010 8 0xFFFFFFFFFFFFFFFE) []) (.write 0x010 8 0xFFFFFFFFFFFFFFFE) [] := by decide

/-- `StepRunsTheDecodedCommand`. -/
theorem test_witness_step_runs :
    (engineNext (launched State.reset 0x101) (State.reset.accept 0x101) ∧
      decode (launched State.reset 0x101).snap.cmd = .ok .fftR) ∧
    ((idleWith (.write 0x018 8 (encode .fft)) [.engineTurn]).phase = .idle ∧
      arrives (idleWith (.write 0x018 8 (encode .fft)) [.engineTurn]) (.write 0x018 8 (encode .fft)) (.engineTurn :: [])) :=
  ⟨⟨⟨rfl, .inr ⟨[], rfl, rfl⟩⟩, by decide⟩, by decide⟩

/-- An `ACORR` of one sample, ready to run. -/
def oneSample : State := prepared .acorr { Args.reset with len0 := 1, dst0 := 8 } [(0, [one])]

/-- `FailedCommandReportsItsError`, and `BusyEndsInDoneOrSoftReset`: an empty input. -/
theorem test_witness_failed_command :
    let s := prepared .acorr Args.reset []
    s.err = false ∧ exec .acorr s = .next (nextOr (exec .acorr s)) ∧ (nextOr (exec .acorr s)).err = true ∧
      (nextOr (exec .acorr s)).readReg .errCode = 0x0305 :=
  ⟨rfl, eq_next_nextOr (by decide +kernel), by decide +kernel, by decide +kernel⟩

/-- `CommandWritesOnlyItsRegions` and `CommandPreservesItsInputs`: a success, with a byte of its input region. -/
theorem test_witness_frame :
    exec .acorr oneSample = .next (nextOr (exec .acorr oneSample)) ∧
    oneSample.err = false ∧ (nextOr (exec .acorr oneSample)).err = false ∧
    commandRegions .acorr oneSample.snap.args = .ok [⟨0, 0, 8, 8, .input⟩, ⟨2, 8, 8, 8, .output⟩] ∧
    inRegion 7 ⟨0, 0, 8, 8, .input⟩ ∧
    ¬((Instr.acorr = .fft ∨ Instr.acorr = .ifft) ∧ oneSample.snap.args.dst0 = oneSample.snap.args.src0) :=
  ⟨eq_next_nextOr (by decide +kernel), rfl, by decide +kernel, by decide, by decide, by decide⟩

/-- `CommandWritesOnlyItsRegions`: a byte of the input region is not one the command may write. -/
theorem test_witness_frame_byte : ¬mayWrite .acorr oneSample.snap.args 7 := by
  rintro ⟨rs, hrs, r, hr, hw, hx⟩
  obtain rfl : [⟨0, 0, 8, 8, .input⟩, ⟨2, 8, 8, 8, .output⟩] = rs := Except.ok.inj hrs
  rcases List.mem_pair.mp hr with rfl | rfl
  · cases hw
  · exact absurd hx (by decide)

/-- `CommandFaultsExactlyOnUnwrittenInput`: the first byte of the input was never written. -/
theorem test_witness_unwritten_input :
    exec .acorr ((State.reset.withArgs { Args.reset with len0 := 1, dst0 := 8 }).accept 0x3) = .fault .unwrittenRead := rfl

/-- A launch of an `ACORR` of one sample, the engine's turn next after the acceptance. -/
def launchedAcorr : State :=
  ((idleWith (.write 0x018 8 0x3) [.engineTurn]).withArgs { Args.reset with len0 := 1, dst0 := 8 }).withDmem
    (Mem.writeBytes [] 0 (realBytes [one]))

/-- `CleanLaunchCompletes`: a launch. -/
theorem test_witness_clean_launch : Launch launchedAcorr 0x3 [.engineTurn] := by
  refine ⟨⟨rfl, rfl⟩, rfl, fun i hi rs hrs r hr hrole x hx _ => ?_⟩
  obtain rfl : Instr.acorr = i := Except.ok.inj hi
  obtain rfl : [⟨0, 0, 8, 8, .input⟩, ⟨2, 8, 8, 8, .output⟩] = rs := Except.ok.inj hrs
  rcases List.mem_pair.mp hr with rfl | rfl
  · exact (by decide : ∀ y < 8, Mem.readByte (Mem.writeBytes [] 0 (realBytes [one])) y ≠ none) x hx.2
  · cases hrole

/-- `CleanLaunchCompletes`: a launch of 95 TE8, whose input runs past the end of DMEM; its last 16 bytes are written. -/
theorem test_witness_launch_past_end :
    Launch (((idleWith (.write 0x018 8 0x1) [.engineTurn]).withArgs { Args.reset with len0 := 2, src0 := 0x03FFFFF0 }).withDmem
      (Mem.writeBytes [] 0x03FFFFF0 (realBytes [one, two]))) 0x1 [.engineTurn] := by
  refine ⟨⟨rfl, rfl⟩, rfl, fun i hi rs hrs r hr hrole x hx hlt => ?_⟩
  obtain rfl : Instr.fft = i := Except.ok.inj hi
  obtain rfl : [⟨0, 0x03FFFFF0, 32, 8, .input⟩, ⟨2, 0, 32, 8, .output⟩] = rs := Except.ok.inj hrs
  rcases List.mem_pair.mp hr with rfl | rfl
  · have h₁ : 0x03FFFFF0 ≤ x := hx.1
    have h₂ : x < 0x04000000 := hlt
    have := (by decide : ∀ y < 16, Mem.readByte (Mem.writeBytes [] 0x03FFFFF0 (realBytes [one, two])) (0x03FFFFF0 + y) ≠ none)
      (x - 0x03FFFFF0) (by omega)
    rwa [Nat.add_sub_cancel' h₁] at this
  · cases hrole

/-- The state the run of `launchedAcorr` ends in. -/
def endedAcorr : State := nextOr (step (nextOr (step launchedAcorr)))

/-- `CleanLaunchCompletes`: the end of the run, and what is observed there: the output region, at 8. -/
theorem test_witness_run_ends :
    RunEnds launchedAcorr 2 endedAcorr ∧
      observe endedAcorr = ⟨false, 0, 0, 0, 1, (Mem.writeBytes [] 8 (realBytes [one]))⟩ := by
  refine ⟨⟨by decide, ?_, by decide +kernel, fun k u h₀ h₁ hu => ?_⟩, by decide +kernel⟩
  · have h₁ : step launchedAcorr = .next (nextOr (step launchedAcorr)) := eq_next_nextOr (by decide)
    have h₂ : step (nextOr (step launchedAcorr)) = .next endedAcorr := eq_next_nextOr (by decide +kernel)
    rw [run_next 1 h₁, run_next 0 h₂]
    rfl
  · obtain rfl : k = 1 := by omega
    have h : step launchedAcorr = .next (nextOr (step launchedAcorr)) := eq_next_nextOr (by decide)
    rw [run_next 0 h] at hu
    obtain rfl : nextOr (step launchedAcorr) = u := Host.Outcome.next.inj hu
    refine ⟨by decide, ?_⟩
    rintro ⟨v, rest, hp, -⟩
    cases hp

/-- `CleanLaunchCompletes`: a byte the command writes, and one it does not. -/
theorem test_witness_run_bytes :
    mayWrite .acorr launchedAcorr.args 8 ∧ decode 0x3 = .ok .acorr ∧ ∀ i, decode 0x3 = .ok i → ¬mayWrite i launchedAcorr.args 16 := by
  refine ⟨⟨_, rfl, ⟨2, 8, 8, 8, .output⟩, by simp [Args.reset, launchedAcorr], rfl, by decide⟩, by decide, ?_⟩
  rintro i hi ⟨rs, hrs, r, hr, hw, hx⟩
  obtain rfl : Instr.acorr = i := Except.ok.inj hi
  obtain rfl : [⟨0, 0, 8, 8, .input⟩, ⟨2, 8, 8, 8, .output⟩] = rs := Except.ok.inj hrs
  rcases List.mem_pair.mp hr with rfl | rfl <;> exact absurd hx (by decide)

/-- Nothing wraps in a host line (30 R99): at the end of DMEM, and at the address whose offset would wrap to that of `CMD`. -/
theorem test_host_line_end_of_dmem :
    HostLine.access [] (.sd 0x03FFFFF8 (.lit 1)) = some (.write 0x7FFFFF8 8 1) ∧
      HostLine.access [] (.sd 0x04000000 (.lit 1)) = none ∧ HostLine.access [] (.sd 0x04000018 (.lit 1)) = none ∧
      HostLine.access [] (.lw 0x04000000 "t") = none := by decide

/-- The end of a host program (70 R365): defined by a `WAIT` after the last `CMD` write, reached behind the last line in IDLE. -/
theorem test_host_program_end :
    let wait := Pseudo.expand "w" .wait
    let prog := Pseudo.expand "" (.acorr (.lit 8) (.lit 0) (.lit 1))
    endDefined (prog ++ wait) = true ∧ endDefined prog = false ∧ endDefined (wait ++ prog) = false ∧
      (HostRun.mk (prog ++ wait) 7 []).ended State.reset = true ∧ (HostRun.mk (prog ++ wait) 6 []).ended State.reset = false ∧
      (HostRun.mk (prog ++ wait) 7 []).ended (State.reset.accept 0x3) = false := by decide

/-- `BusyEndsInDoneOrSoftReset`: by a command step, and by a soft reset. -/
theorem test_witness_busy_ends :
    ((State.reset.accept 0).phase = .busy ∧ step (State.reset.accept 0) = .next (nextOr (step (State.reset.accept 0))) ∧
      (nextOr (step (State.reset.accept 0))).phase = .idle ∧ (nextOr (step (State.reset.accept 0))).done = true) ∧
    (let s := busyWith 0 Args.reset (.write 0x010 8 1) [];
      s.phase = .busy ∧ step s = .next (nextOr (step s)) ∧ (nextOr (step s)).phase = .idle ∧ (nextOr (step s)).done = false) :=
  ⟨⟨rfl, eq_next_nextOr (by decide), by decide, by decide⟩, rfl, eq_next_nextOr (by decide), by decide, by decide⟩

/-- `BusyAlwaysEnds`: a command running behind two arrivals. -/
theorem test_witness_busy_always_ends :
    (busyWith 0 Args.reset (.read 0x4000000 8) [.access (.read 0x020 8)]).phase = .busy := rfl

/-- `StepKeepsInvariant`: from reset, the acceptance of a command. -/
theorem test_witness_invariant :
    Inv (idleWith (.write 0x018 8 0x1) []) ∧
    step (idleWith (.write 0x018 8 0x1) []) = .next (nextOr (step (idleWith (.write 0x018 8 0x1) []))) :=
  ⟨{ memWf := by decide, busyClear := by decide, busyCmd := by decide, errReported := by decide,
     noErrorNoInfo := by decide, heldDmem := by decide }, eq_next_nextOr (by decide)⟩

/-- `FirstBadRegionIsReported`: a region one element past DMEM's end, and a misaligned region that ends there. -/
theorem test_witness_bad_region :
    let a := { Args.reset with len0 := 1, dst0 := 0x03FFFFF8 }
    let b := { Args.reset with len0 := 1, dst0 := 0x03FFFFEC }
    (commandRegions .fft a = .ok ([⟨0, 0, 16, 8, .input⟩] ++ ⟨2, 0x03FFFFF8, 16, 8, .output⟩ :: []) ∧
      Config.dmemSize < 0x03FFFFF8 + 16) ∧
    (commandRegions .fft b = .ok ([⟨0, 0, 16, 8, .input⟩] ++ ⟨2, 0x03FFFFEC, 16, 8, .output⟩ :: []) ∧
      0x03FFFFEC + 16 ≤ Config.dmemSize ∧ 0x03FFFFEC % 8 ≠ 0) ∧
    ∀ p ∈ [(⟨0, 0, 16, 8, .input⟩ : Region)], p.base + p.size ≤ Config.dmemSize ∧ p.base % p.align = 0 := by decide

/-- `FirstOverlapIsReported` (95 LE4): the outputs of `LEVDUR` share one real, and region 0 meets neither. -/
theorem test_witness_overlap :
    let a := { Args.reset with len0 := 2, len1 := 1, dst0 := 0x100, dst1 := 0x108 }
    let r0 : Region := ⟨0, 0, 16, 8, .input⟩
    let r2 : Region := ⟨2, 0x100, 16, 8, .output⟩
    let r3 : Region := ⟨3, 0x108, 16, 8, .output⟩
    commandRegions .levdur a = .ok ([r0] ++ r2 :: ([] ++ r3 :: [])) ∧
    (∀ r ∈ [r0] ++ r2 :: ([] ++ r3 :: []), regionOk r) ∧
    ([r0] ++ r2 :: ([] ++ r3 :: [])).Pairwise (fun a b => a ∈ [r0] → ¬forbidden .levdur a b) ∧
    (∀ b ∈ ([] : List Region), ¬forbidden .levdur r2 b) ∧ forbidden .levdur r2 r3 := by
  have apart : ∀ b : Region, 0x100 ≤ b.base → ¬forbidden .levdur ⟨0, 0, 16, 8, .input⟩ b := by
    rintro b hb ⟨-, ⟨x, h₁, h₂⟩, -⟩
    have := h₁.2
    have := h₂.1
    simp only at *
    omega
  refine ⟨by decide, by decide, ?_, by simp, by decide, ⟨0x108, by decide, by decide⟩, by decide⟩
  simp only [List.nil_append, List.cons_append, List.pairwise_cons, List.mem_cons, List.not_mem_nil, or_false,
    forall_eq_or_imp, forall_eq]
  exact ⟨⟨fun _ => apart _ (by decide), fun _ => apart _ (by decide)⟩, fun h => absurd h (by decide), by simp⟩

/-- `FirstOverlapIsReported`, second clause: regions that touch without meeting, and the in-place transform. -/
theorem test_witness_no_overlap :
    ([⟨0, 0, 16, 8, .input⟩, ⟨2, 16, 16, 8, .output⟩] : List Region).Pairwise (fun p q => ¬forbidden .acorr p q) ∧
    ([⟨0, 0, 16, 8, .input⟩, ⟨2, 0, 16, 8, .output⟩] : List Region).Pairwise (fun p q => ¬forbidden .fft p q) := by
  simp only [List.pairwise_cons, List.mem_cons, List.not_mem_nil, or_false, forall_eq, List.Pairwise.nil, and_true,
    false_implies, implies_true]
  refine ⟨?_, fun h => h.2.2 (by decide)⟩
  rintro ⟨-, ⟨x, h₁, h₂⟩, -⟩
  have := h₁.2
  have := h₂.1
  simp only at *
  omega

/-- `TransformLengthIsChecked`: lengths on either side of the bound, and none. -/
theorem test_witness_transform_length :
    (∀ N ∈ [0, 3, 2 ^ 20 + 1, 2 ^ 21, 2 ^ 63], N = 0 ∨ N &&& (N - 1) ≠ 0 ∨ 2 ^ 20 < N) ∧
    ∀ N ∈ [1, 2, 2 ^ 20], ¬(N = 0 ∨ N &&& (N - 1) ≠ 0 ∨ 2 ^ 20 < N) := by decide

/-- The regions of a command that passes its parameter checks: index, base, size and alignment. -/
def regions (i : Instr) (a : Args) : List (Nat × Nat × Nat × Nat) :=
  match commandRegions i a with
  | .ok rs => rs.map (fun r => (r.index, r.base, r.size, r.align))
  | .error _ => []

/-- Argument registers with five base addresses and every count one. -/
def oneEach : Args :=
  { Args.reset with src0 := 1, src1 := 2, dst0 := 3, dst1 := 4, scr := 5, len0 := 1, len1 := 1, len2 := 1, len3 := 1 }

/-- The region lists of `TransformLengthIsChecked`, `SignalAndOrderAreChecked`, `CepstrumParametersAreChecked` and
`QuantizerParametersAreChecked`, each at its least counts. -/
theorem test_region_lists :
    [Instr.fft, .fftR, .ifft, .acorr, .iirsyn, .cepstrum, .vqnear].map (regions · oneEach) =
      [[(0, 1, 16, 8), (2, 3, 16, 8)], [(0, 1, 8, 8), (2, 3, 16, 8)], [(0, 1, 16, 8), (2, 3, 16, 8)],
        [(0, 1, 8, 8), (2, 3, 8, 8)], [(0, 1, 8, 8), (1, 2, 16, 8), (2, 3, 8, 8)],
        [(0, 1, 8, 8), (2, 3, 8, 8), (4, 5, 16, 8)], [(0, 1, 8, 8), (1, 2, 8, 8), (2, 3, 4, 4)]] ∧
    regions .levdur { oneEach with len0 := 2 } = [(0, 1, 16, 8), (2, 3, 16, 8), (3, 4, 16, 8)] := by decide

/-- What `commandRegions` answers: 0 for a region list, else the error's number and first information word. -/
def checked (i : Instr) (a : Args) : Nat × Nat :=
  match commandRegions i a with
  | .ok _ => (0, 0)
  | .error f => (f.code.number.toNat, f.info0.toNat)

/-- `SignalAndOrderAreChecked`: every branch at its bound (95 AE1, LE1 to LE3, IE1, IE2). -/
theorem test_witness_signal_and_order :
    checked .acorr Args.reset = (5, 0x0A8) ∧ checked .levdur Args.reset = (5, 0x0A8) ∧
    checked .levdur { Args.reset with len0 := 100, len1 := 65 } = (2, 0x0B0) ∧
    checked .levdur { Args.reset with len0 := 64, len1 := 64 } = (2, 0x0A8) ∧
    checked .levdur { Args.reset with len0 := 65, len1 := 64 } = (0, 0) ∧
    checked .iirsyn Args.reset = (5, 0x0A8) ∧ checked .iirsyn { Args.reset with len0 := 1, len1 := 65 } = (2, 0x0B0) ∧
    checked .iirsyn { Args.reset with len0 := 1, len1 := 64 } = (0, 0) := by decide

/-- `ResampleLengthIsChecked`: every branch (95 SE1, SE2, SE4, SE7, SE8, SE10, S10). -/
theorem test_witness_resample_checks :
    checked .resample Args.reset = (5, 0x0A8) ∧ checked .resample { Args.reset with len0 := 1, fp1 := one } = (2, 0x0C8) ∧
    checked .resample { Args.reset with len0 := 1, fp0 := one, fp1 := nan } = (2, 0x0D0) ∧
    checked .resample { Args.reset with len0 := 2, fp0 := 0x7E37E43C8800759C, fp1 := 0x01A56E1FC2F8F359 } = (2, 0x0C8) ∧
    checked .resample { Args.reset with len0 := 2, fp0 := 1, fp1 := one } = (2, 0x0C8) ∧
    checked .resample { Args.reset with len0 := 4, len1 := 7, fp0 := one, fp1 := two } = (2, 0x0B0) ∧
    checked .resample { Args.reset with len0 := 4, len1 := 2, fp0 := two, fp1 := one } = (0, 0) := by decide +kernel

/-- `CepstrumParametersAreChecked`: every branch at its bound (95 KE1 to KE4). -/
theorem test_witness_cepstrum_checks :
    checked .cepstrum Args.reset = (5, 0x0A8) ∧ checked .cepstrum { Args.reset with len0 := 3, len1 := 1 } = (1, 0x0A8) ∧
    checked .cepstrum { Args.reset with len0 := 2 ^ 21, len1 := 1 } = (1, 0x0A8) ∧
    checked .cepstrum { Args.reset with len0 := 2 } = (2, 0x0B0) ∧
    checked .cepstrum { Args.reset with len0 := 4, len1 := 5 } = (2, 0x0B0) ∧
    checked .cepstrum { Args.reset with len0 := 4, len1 := 4 } = (0, 0) := by decide +kernel

/-- `QuantizerParametersAreChecked`: every branch at its bound. -/
theorem test_witness_quantizer_checks :
    checked .vqnear Args.reset = (5, 0x0A8) ∧ checked .vqnear { Args.reset with len0 := 1 } = (5, 0x0B0) ∧
    checked .vqnear { Args.reset with len0 := 1, len1 := 1 } = (5, 0x0B8) ∧
    checked .vqnear { Args.reset with len0 := 1, len1 := 1, len2 := 1 } = (5, 0x0C0) ∧
    checked .vqnear { Args.reset with len0 := 1, len1 := 1, len2 := 1, len3 := 2 } = (4, 1) ∧
    checked .vqnear { Args.reset with len0 := 1, len1 := 2 ^ 32 + 1, len2 := 1, len3 := 1 } = (2, 0x0B0) ∧
    checked .vqnear { Args.reset with len0 := 1, len1 := 2 ^ 32, len2 := 1, len3 := 1 } = (0, 0) := by decide +kernel

/-- `FftStoresTheTransform` and `IfftStoresTheInverse`: two points apart, one point in place. -/
theorem test_witness_transforms :
    (let s := prepared .fft { Args.reset with len0 := 2, dst0 := 0x20 } [(0, [one, two, one, two])];
      1 ≤ 20 ∧ s.snap.args.len0.toNat = 2 ^ 1 ∧ fits s.snap.args.src0.toNat (16 * 2 ^ 1) 8 ∧
      fits s.snap.args.dst0.toNat (16 * 2 ^ 1) 8 ∧ disjoint s.snap.args.src0.toNat (16 * 2 ^ 1) s.snap.args.dst0.toNat (16 * 2 ^ 1) ∧
      loadComplexes s.dmem s.snap.args.src0.toNat (2 ^ 1) = some [(one, two), (one, two)]) ∧
    (let s := prepared .ifft { Args.reset with len0 := 1, src0 := 0x03FFFFF0, dst0 := 0x03FFFFF0 } [(0x03FFFFF0, [one, two])];
      0 ≤ 20 ∧ s.snap.args.len0.toNat = 2 ^ 0 ∧ fits s.snap.args.src0.toNat (16 * 2 ^ 0) 8 ∧
      fits s.snap.args.dst0.toNat (16 * 2 ^ 0) 8 ∧ s.snap.args.dst0 = s.snap.args.src0 ∧
      loadComplexes s.dmem s.snap.args.src0.toNat (2 ^ 0) = some [(one, two)]) := by decide +kernel

/-- `RealFftStoresTheTransform`. -/
theorem test_witness_real_transform :
    let s := prepared .fftR { Args.reset with len0 := 2, dst0 := 0x10 } [(0, [one, two])]
    1 ≤ 20 ∧ s.snap.args.len0.toNat = 2 ^ 1 ∧ fits s.snap.args.src0.toNat (8 * 2 ^ 1) 8 ∧
      fits s.snap.args.dst0.toNat (16 * 2 ^ 1) 8 ∧ disjoint s.snap.args.src0.toNat (8 * 2 ^ 1) s.snap.args.dst0.toNat (16 * 2 ^ 1) ∧
      loadReals s.dmem s.snap.args.src0.toNat (2 ^ 1) = some [one, two] := by decide +kernel

/-- `AcorrStoresEveryLagSum`. -/
theorem test_witness_acorr :
    oneSample.snap.args.len0.toNat ≠ 0 ∧ fits oneSample.snap.args.src0.toNat (8 * 1) 8 ∧
      fits oneSample.snap.args.dst0.toNat (8 * 1) 8 ∧ disjoint 0 (8 * 1) oneSample.snap.args.dst0.toNat (8 * 1) ∧
      loadReals oneSample.dmem 0 1 = some [one] := by decide +kernel

/-- `LevdurStoresCoefficientsAndEnergies`, with a positive energy before a final energy of zero (95 L6c). -/
theorem test_witness_levdur :
    let s := prepared .levdur { Args.reset with len0 := 2, len1 := 1, dst0 := 0x10, dst1 := 0x20 } [(0, [one, one])]
    s.snap.args.len1.toNat ≤ 64 ∧ s.snap.args.len1.toNat + 1 ≤ s.snap.args.len0.toNat ∧ fits 0 16 8 ∧
      fits s.snap.args.dst0.toNat 16 8 ∧ fits s.snap.args.dst1.toNat 16 8 ∧ disjoint 0 16 s.snap.args.dst0.toNat 16 ∧
      disjoint 0 16 s.snap.args.dst1.toNat 16 ∧ disjoint s.snap.args.dst0.toNat 16 s.snap.args.dst1.toNat 16 ∧
      loadReals s.dmem 0 2 = some [one, one] ∧ energiesOk [one, one] 1 := by
  unfold energiesOk
  decide +kernel

/-- `LevdurReportsBreakdown`: the strict check at order 1 (95 L8), the final check at order 1 (95 L9), a non-finite energy at order 0
(95 L11). -/
theorem test_witness_breakdown :
    let check := fun (R : List F64) (p j : Nat) => decide
      (j ≤ p ∧ (∀ h, h < j → isFinite (lpcEnergy R h) = true ∧ flt zero (lpcEnergy R h) = true) ∧
        (isFinite (lpcEnergy R j) = false ∨ (if j < p then fle (lpcEnergy R j) zero else flt (lpcEnergy R j) zero) = true))
    check [one, one, 0x3FE0000000000000] 2 1 = true ∧ check [one, two] 1 1 = true ∧
      check [0x7FF0000000000000, one] 1 0 = true ∧
      loadReals (prepared .levdur { Args.reset with len0 := 2, len1 := 1, dst0 := 0x10, dst1 := 0x20 }
        [(0, [one, two])]).dmem 0 2 = some [one, two] := by decide +kernel

/-- `IirsynStoresTheRecurrence`, with `coeffs[0]` never written. -/
theorem test_witness_iirsyn :
    let s := prepared .iirsyn { Args.reset with len0 := 1, len1 := 1, src1 := 8, dst0 := 0x20, fp0 := one }
      [(0, [one]), (0x10, [two])]
    s.snap.args.len0.toNat ≠ 0 ∧ s.snap.args.len1.toNat ≤ 64 ∧ fits 0 (8 * 1) 8 ∧ fits 8 (8 * (1 + 1)) 8 ∧
      fits s.snap.args.dst0.toNat (8 * 1) 8 ∧ disjoint 0 (8 * 1) s.snap.args.dst0.toNat (8 * 1) ∧
      disjoint 8 (8 * (1 + 1)) s.snap.args.dst0.toNat (8 * 1) ∧ loadReals s.dmem 0 1 = some [one] ∧
      loadReals s.dmem (s.snap.args.src1.toNat + 8) 1 = some [two] ∧ Mem.readByte s.dmem 8 = none := by decide +kernel

/-- `ResampleStoresTheInterpolation`, with the capacity exactly met (95 S10). -/
theorem test_witness_resample :
    let s := prepared .resample { Args.reset with len0 := 2, len1 := 1, dst0 := 0x10, fp0 := two, fp1 := one } [(0, [one, two])]
    let ratio := fdiv s.snap.args.fp0 s.snap.args.fp1
    let q := fdiv (toF64 2) ratio
    s.snap.args.len0.toNat ≠ 0 ∧ (isFinite s.snap.args.fp0 ∧ flt zero s.snap.args.fp0) ∧
      (isFinite s.snap.args.fp1 ∧ flt zero s.snap.args.fp1) ∧ (isFinite ratio ∧ flt zero ratio) ∧ isFinite q ∧
      (ceilI q).toNat = 1 ∧ 1 ≤ s.snap.args.len1.toNat ∧ fits 0 (8 * 2) 8 ∧ fits s.snap.args.dst0.toNat (8 * 1) 8 ∧
      disjoint 0 (8 * 2) s.snap.args.dst0.toNat (8 * 1) ∧ loadReals s.dmem 0 2 = some [one, two] := by decide +kernel

/-- `CepstrumStoresBothRegions`, with as many outputs as points. -/
theorem test_witness_cepstrum :
    let s := prepared .cepstrum { Args.reset with len0 := 2, len1 := 2, dst0 := 0x10, scr := 0x20 } [(0, [one, two])]
    1 ≤ 20 ∧ s.snap.args.len0.toNat = 2 ^ 1 ∧ s.snap.args.len1.toNat ≠ 0 ∧ s.snap.args.len1.toNat ≤ 2 ^ 1 ∧
      fits 0 (8 * 2 ^ 1) 8 ∧ fits s.snap.args.dst0.toNat (8 * 2) 8 ∧ fits s.snap.args.scr.toNat (16 * 2 ^ 1) 8 ∧
      disjoint 0 (8 * 2 ^ 1) s.snap.args.dst0.toNat (8 * 2) ∧ disjoint 0 (8 * 2 ^ 1) s.snap.args.scr.toNat (16 * 2 ^ 1) ∧
      disjoint s.snap.args.dst0.toNat (8 * 2) s.snap.args.scr.toNat (16 * 2 ^ 1) ∧
      loadReals s.dmem 0 (2 ^ 1) = some [one, two] := by decide +kernel

/-- `VqnearStoresNearestIndices`, with features and codebook in one place. -/
theorem test_witness_vqnear :
    let s := prepared .vqnear { Args.reset with len0 := 2, len1 := 1, len2 := 1, len3 := 1, dst0 := 0x14 } [(0, [one, two])]
    s.snap.args.len0.toNat ≠ 0 ∧ s.snap.args.len1.toNat ≠ 0 ∧ s.snap.args.len2.toNat ≠ 0 ∧
      s.snap.args.len3 = s.snap.args.len2 ∧ s.snap.args.len1.toNat ≤ 2 ^ 32 ∧ fits 0 (8 * (2 * 1)) 8 ∧
      fits s.snap.args.src1.toNat (8 * (1 * 1)) 8 ∧ fits s.snap.args.dst0.toNat (4 * 2) 4 ∧
      disjoint 0 (8 * (2 * 1)) s.snap.args.dst0.toNat (4 * 2) ∧
      disjoint s.snap.args.src1.toNat (8 * (1 * 1)) s.snap.args.dst0.toNat (4 * 2) ∧
      loadReals s.dmem 0 (2 * 1) = some [one, two] ∧ loadReals s.dmem s.snap.args.src1.toNat (1 * 1) = some [one] := by
  decide +kernel

/-- `FftCoreIsTheButterflyRecursion` and `IterativeTransformGivesTheSameBits`: sequences of one and of two values. -/
theorem test_witness_sequences :
    ([(one, two)] : List Cplx).length = 2 ^ 0 ∧ 0 < 2 ^ 0 ∧ ([(one, two), (two, one)] : List Cplx).length = 2 ^ (0 + 1) ∧
      1 < 2 ^ 1 := by decide

/-- `InPlaceTransformGivesTheSameOutput`. -/
theorem test_witness_in_place :
    ∀ i ∈ [Instr.fft, .ifft],
      let s := prepared i { Args.reset with len0 := 2 } [(0, [one, two, two, one])]
      let apart := { s with snap := { s.snap with args := { s.snap.args with dst0 := 0x20 } } }
      disjoint s.snap.args.src0.toNat (16 * 2) (0x20 : Word).toNat (16 * 2) ∧ s.err = false ∧
      exec i s = .next (nextOr (exec i s)) ∧ (nextOr (exec i s)).err = false ∧
      exec i apart = .next (nextOr (exec i apart)) ∧ (nextOr (exec i apart)).err = false := by
  intro i hi
  rcases List.mem_pair.mp hi with rfl | rfl <;>
    exact ⟨by decide, by decide, eq_next_nextOr (by decide +kernel), by decide +kernel, eq_next_nextOr (by decide +kernel),
      by decide +kernel⟩

/-- `LevdurEnergiesDoNotIncrease`. -/
theorem test_witness_energies :
    let s := prepared .levdur { Args.reset with len0 := 2, len1 := 1, dst0 := 0x10, dst1 := 0x20 } [(0, [one, one])]
    s.err = false ∧ exec .levdur s = .next (nextOr (exec .levdur s)) ∧ (nextOr (exec .levdur s)).err = false :=
  ⟨rfl, eq_next_nextOr (by decide +kernel), by decide +kernel⟩

/-- `NearestIndexIsLowestMinimum`: codebooks whose first distance is a number and a NaN (95 Q6, Q5). -/
theorem test_witness_nearest :
    (3 ≠ 0 ∧ isNaN (rowDistance [two] [0, nan, one] 1 0 0) = false ∧ isNaN (entry [0, nan, one] (1 * 1 + 0)) = true ∧
      nearestRow [two] [0, nan, one] 3 1 0 = 2) ∧
    (2 ≠ 0 ∧ isNaN (rowDistance [two] [nan, one] 1 0 0) = true ∧ nearestRow [two] [nan, one] 2 1 0 = 0) := by decide +kernel

/-- `ResampleRoundTripLength` (95 S4): 5 samples give 3, and those 6. -/
theorem test_witness_round_trip :
    let a := { Args.reset with len0 := 5, fp0 := two, fp1 := one }
    let b := { Args.reset with len0 := 3, fp0 := one, fp1 := two }
    resampleRatio a = 0x4000000000000000 ∧ resampleRatio b = 0x3FE0000000000000 ∧ a.len0.toNat < 2 ^ 52 ∧
      b.len0.toNat = resampleLength a ∧ resampleLength b = 6 := by decide +kernel

/-- `NaNResultsAreCanonical`, `FiniteOperationsRoundToNearestEven`, `SpecialOperandsGiveIeeeResults` and `ComparisonsAreOrdered`:
operands of each kind they name. -/
theorem test_witness_operands :
    isNaN 0x7FF8000000000001 = true ∧ isNaN (fsub 0x7FF0000000000000 0x7FF0000000000000) = true ∧
    isFinite 0x7FEFFFFFFFFFFFFF = true ∧ isFinite 1 = true ∧ units one + units 1 ≠ 0 ∧ units one - units 1 ≠ 0 ∧
    flt 0xFFF0000000000000 0 = true ∧ flt 0x8000000000000001 0 = true ∧ flt 0x8000000000000000 0 = false ∧
    isZero 1 = false ∧ isInf 0xFFF0000000000000 = true ∧ isZero 0x8000000000000000 = true ∧ isNaN one = false ∧
    isZero one = false := by decide +kernel

end Sys2Proof.Tests
end

section
/-! SUPPORT. The registers of the window as the host sees them: `STATUS` and `IRQ_EN` bit by bit, what a write to each kind of register
does, and the reserved offsets (10 R23 to R41). -/

namespace Sys2Proof.Machine

open Sys2Proof.Safety

/-! ### `STATUS`, `IRQ_EN` and the interrupt level, bit by bit -/

theorem getLsbD_bitAt (b : Bool) {n : Nat} (hn : n < 64) (i : Nat) : (bitAt b n).getLsbD i = (b && decide (i = n)) := by
  cases b with
  | false => simp [bitAt]
  | true =>
    have h : (bitAt true n).getLsbD i = (decide (i < 64) && decide (n = i)) := by
      rw [bitAt, if_pos rfl, BitVec.getLsbD_ofNat, Nat.testBit_two_pow]
    rw [h, Bool.eq_iff_iff]
    simp only [Bool.and_eq_true, decide_eq_true_eq, true_and]
    omega

theorem getLsbD_statusWord (s : State) (i : Nat) :
    s.statusWord.getLsbD i = (s.busy && decide (i = 0) || s.done && decide (i = 1) || s.err && decide (i = 2) ||
      s.ovr && decide (i = 3)) := by
  simp only [State.statusWord, BitVec.getLsbD_or, getLsbD_bitAt _ (show 0 < 64 by decide),
    getLsbD_bitAt _ (show 1 < 64 by decide), getLsbD_bitAt _ (show 2 < 64 by decide), getLsbD_bitAt _ (show 3 < 64 by decide)]

theorem getLsbD_irqEnWord (s : State) (i : Nat) :
    s.irqEnWord.getLsbD i =
      (s.doneIe && decide (i = 0) || s.errIe && decide (i = 1) || s.ovrIe && decide (i = 2)) := by
  simp only [State.irqEnWord, BitVec.getLsbD_or, getLsbD_bitAt _ (show 0 < 64 by decide),
    getLsbD_bitAt _ (show 1 < 64 by decide), getLsbD_bitAt _ (show 2 < 64 by decide)]

/-- `STATUS` has no bit above bit 3 (10 R28). -/
theorem statusWord_high_zero (s : State) : s.statusWord.extractLsb' 4 60 = 0 := by
  refine BitVec.eq_of_getLsbD_eq fun i _ => ?_
  rw [BitVec.getLsbD_extractLsb', getLsbD_statusWord, Nat.add_comm]
  simp

theorem busy_iff (s : State) : s.busy = true ↔ s.phase = .busy := beq_iff_eq

/-- A write to `IRQ_EN` keeps the low three bits of the word (10 R29). -/
theorem irqEnWord_setIrqEn (s : State) (v : Word) : (s.setIrqEn v).irqEnWord = v &&& 7 := by
  refine BitVec.eq_of_getLsbD_eq fun i hi => ?_
  have h7 : (7 : Word).getLsbD i = decide (i < 3) := by
    rw [show (7 : Word) = BitVec.ofNat 64 (2 ^ 3 - 1) from rfl, BitVec.getLsbD_ofNat, Nat.testBit_two_pow_sub_one]
    simp [hi]
  rw [getLsbD_irqEnWord, BitVec.getLsbD_and, h7]
  match i with
  | 0 | 1 | 2 => simp [-BitVec.getLsbD_eq_getElem]
  | i + 3 => simp

theorem irq_setIrqEn (s : State) (v : Word) :
    (s.setIrqEn v).irq = (s.done && v.getLsbD 0 || s.err && v.getLsbD 1 || s.ovr && v.getLsbD 2) := rfl

@[simp] theorem irq_withPort (s : State) (rest : List PortEvent) : (s.withPort rest).irq = s.irq := rfl

@[simp] theorem irq_answer (s : State) (r : Answer) : (s.answer r).irq = s.irq := rfl

/-! ### What the registers read as -/

@[simp] theorem readReg_withPort (s : State) (rest : List PortEvent) (r : Reg) : (s.withPort rest).readReg r = s.readReg r := by
  cases r <;> rfl

@[simp] theorem readReg_answer (s : State) (a : Answer) (r : Reg) : (s.answer a).readReg r = s.readReg r := by
  cases r <;> rfl

/-- `ID` as a literal (10 R24). -/
theorem readReg_id (s : State) : s.readReg .id = 0x000000014D585350 := rfl

/-- `CFG` as a literal (10 R25). -/
theorem readReg_cfg (s : State) : s.readReg .cfg = 0x00000000001A4014 := rfl

/-! ### What a register write does -/

/-- The registers that are read-only in every bit (10 R23). -/
def Reg.readOnly : List Reg := [.id, .cfg, .errCode, .errInfo0, .errInfo1, .result0]

/-- The twelve argument registers (10 R33 to R38). -/
def Reg.arguments : List Reg :=
  [.src0, .src1, .dst0, .dst1, .scr, .len0, .len1, .len2, .len3, .fp0, .fp1, .cepEps]

theorem writeReg_readOnly (s : State) {r : Reg} (hr : r ∈ Reg.readOnly) (v : Word) : s.writeReg r v = s := by
  fin_cases hr <;> rfl

/-- Without bit 0 a write to `CTRL` asks for nothing (10 R26). -/
theorem writeReg_ctrl_of_clear (s : State) {v : Word} (hv : v.getLsbD 0 = false) : s.writeReg .ctrl v = s := by
  rw [State.writeReg, State.writeCtrl, hv]
  rfl

/-- A write to an argument register changes the argument registers only. -/
theorem writeReg_argument (s : State) {r : Reg} (hr : r ∈ Reg.arguments) (v : Word) :
    s.writeReg r v = s.withArgs (s.writeReg r v).args := by
  fin_cases hr <;> rfl

/-- A write to an argument register is read back there, and no other register reads otherwise than before. -/
theorem readReg_writeReg_argument (s : State) {r : Reg} (hr : r ∈ Reg.arguments) (v : Word) (r' : Reg) :
    (s.writeReg r v).readReg r' = if r' = r then v else s.readReg r' := by
  fin_cases hr <;> cases r' <;> rfl

theorem readReg_reset_argument {r : Reg} (hr : r ∈ Reg.arguments) :
    State.reset.readReg r = if r = .cepEps then 0x3DDB7CDFD9D7BDBB else 0 := by
  fin_cases hr <;> rfl

/-! ### Reserved offsets -/

/-- The named registers lie in two runs of the window (10 R23). -/
theorem offset_bounds (r : Reg) : r.offset < 0x050 ∨ 0x080 ≤ r.offset ∧ r.offset < 0x0E0 := by
  cases r <;> decide

/-- No register is named outside those runs (10 R39). -/
theorem atOffset_reserved {off : Nat} (h : 0x050 ≤ off ∧ off < 0x080 ∨ 0x0E0 ≤ off) : Reg.atOffset off = none := by
  refine List.find?_eq_none.mpr fun r _ hr => ?_
  have hb := offset_bounds r
  have heq : r.offset = off := by simpa using hr
  omega

/-! ### Steps -/

/-- A write to a named register that leaves it and all else alone is answered and has no other effect. -/
theorem step_ignored_write {s : State} {r : Reg} {v : Word} {rest : List PortEvent}
    (hk : ∀ u : State, u.writeReg r v = u) (h : arrives s (.write (regOffset r) 8 v) rest) :
    step s = .next { s with port := rest, answers := s.answers ++ [.written] } := by
  rw [step_named_write h, hk]
  rfl

/-- An aligned read at an offset that names no register answers zero. -/
theorem step_unnamed_read {s : State} {off : BitVec 27} {rest : List PortEvent} (hw : off.toNat < 0x1000)
    (ha : off.toNat % 8 = 0) (hn : Reg.atOffset off.toNat = none) (h : arrives s (.read off 8) rest) :
    step s = .next { s with port := rest, answers := s.answers ++ [.data 0] } := by
  rw [step_register_read h hw ha, State.readWindow, hn]
  rfl

/-- An aligned write at an offset that names no register is answered and has no other effect. -/
theorem step_unnamed_write {s : State} {off : BitVec 27} {v : Word} {rest : List PortEvent} (hw : off.toNat < 0x1000)
    (ha : off.toNat % 8 = 0) (hn : Reg.atOffset off.toNat = none) (h : arrives s (.write off 8 v) rest) :
    step s = .next { s with port := rest, answers := s.answers ++ [.written] } := by
  rw [step_register_write h hw ha, State.writeWindow, hn]
  rfl

end Sys2Proof.Machine
end

section
/-! The statements of 10_state.md about the registers of the window, settled. -/

namespace Sys2Proof.Machine

open Sys2Proof.Safety

/-- Settles O6: both registers are constants, so what is left are facts about two literals. -/
theorem idAndCfgAreConstant : Obligations.IdAndCfgAreConstant := by
  unfold Obligations.IdAndCfgAreConstant
  intro s v
  have hid : s.writeReg .id v = s := writeReg_readOnly s (by decide) v
  have hcfg : s.writeReg .cfg v = s := writeReg_readOnly s (by decide) v
  simp only [readReg_id, readReg_cfg, hid, hcfg, true_and]
  decide

/-- Settles O7: each bit of `STATUS` and `IRQ_EN` is one field, and `irq` is defined on the fields. -/
theorem busyBitAndInterruptLevel : Obligations.BusyBitAndInterruptLevel := by
  unfold Obligations.BusyBitAndInterruptLevel
  refine ⟨fun s => ?_, rfl, rfl⟩
  have hs : s.readReg .status = s.statusWord := rfl
  have he : s.readReg .irqEn = s.irqEnWord := rfl
  simp only [hs, he, getLsbD_statusWord, getLsbD_irqEnWord]
  exact ⟨by simp [busy_iff], by simp, by simp, by simp, statusWord_high_zero s, by simp [State.irq]⟩

/-- Settles O10: the step is `State.clearStatus`, which leaves each field set exactly when it was set and its bit is clear. -/
theorem statusWriteClearsWrittenOnes : Obligations.StatusWriteClearsWrittenOnes := by
  unfold Obligations.StatusWriteClearsWrittenOnes
  intro s v rest h
  refine ⟨_, step_named_write (r := .status) h, rfl, ?_, ?_, ?_⟩ <;> simp [State.writeReg]

/-- Settles O11: the step is `State.setIrqEn`, whose word and interrupt level are known. -/
theorem interruptEnableStoresThreeBits : Obligations.InterruptEnableStoresThreeBits := by
  unfold Obligations.InterruptEnableStoresThreeBits
  refine ⟨rfl, fun s v rest h => ⟨_, step_named_write (r := .irqEn) h, ?_, rfl, ?_⟩⟩
  · rw [readReg_answer]
    exact irqEnWord_setIrqEn (s.withPort rest) v
  · rw [irq_answer]
    exact irq_setIrqEn (s.withPort rest) v

/-- Settles O12: the step writes the argument registers only, and the register written is the one that reads otherwise. -/
theorem argumentRegisterHoldsWrittenWord : Obligations.ArgumentRegisterHoldsWrittenWord := by
  unfold Obligations.ArgumentRegisterHoldsWrittenWord
  intro r hr
  refine ⟨readReg_reset_argument hr, fun s v rest h => ?_⟩
  rw [registerOffset_eq] at h
  refine ⟨_, step_named_write h, ?_, fun r' hne => ?_, ?_⟩
  · rw [readReg_answer, readReg_writeReg_argument _ hr, if_pos rfl]
  · rw [readReg_answer, readReg_writeReg_argument _ hr, if_neg hne, readReg_withPort]
  · rw [writeReg_argument _ hr]
    rfl

/-- Settles O14: no register is named at a reserved offset. -/
theorem reservedOffsetsReadZero : Obligations.ReservedOffsetsReadZero := by
  unfold Obligations.ReservedOffsetsReadZero
  intro s off v rest ha hoff
  have hnat : (BitVec.ofNat 27 off).toNat = off := by
    rw [BitVec.toNat_ofNat]
    omega
  have hw : (BitVec.ofNat 27 off).toNat < 0x1000 := by omega
  have ha' : (BitVec.ofNat 27 off).toNat % 8 = 0 := by omega
  have hn : Reg.atOffset (BitVec.ofNat 27 off).toNat = none := atOffset_reserved (by omega)
  exact ⟨step_unnamed_read hw ha' hn, step_unnamed_write hw ha' hn⟩

/-- Settles O15: `State.writeReg` ignores a write to a read-only register. -/
theorem readOnlyRegistersIgnoreWrites : Obligations.ReadOnlyRegistersIgnoreWrites := by
  unfold Obligations.ReadOnlyRegistersIgnoreWrites
  intro r hr s v rest h
  rw [registerOffset_eq] at h
  exact step_ignored_write (fun u => writeReg_readOnly u hr v) h

/-- Settles O23: `CTRL` reads as zero, and only bit 0 of a word written there asks for anything. -/
theorem controlWithoutResetBitDoesNothing : Obligations.ControlWithoutResetBitDoesNothing := by
  unfold Obligations.ControlWithoutResetBitDoesNothing
  exact fun s v rest => ⟨step_named_read (r := .ctrl),
    fun hv => step_ignored_write (r := .ctrl) fun u => writeReg_ctrl_of_clear u hv⟩

end Sys2Proof.Machine
end

section
/-! SUPPORT. DMEM as the host and the engine see it: the element layouts by index, a store cut into narrower stores, and the steps of a
DMEM store and a DMEM load (20 R61 to R66). -/

namespace Sys2Proof.Machine

open Sys2Proof.Machine.Float64 Sys2Proof.Safety

/-! ### Sequences, element by element -/

theorem loadReals_eq_cons_iff {m : Mem} {base n : Nat} {x : F64} {xs : List F64} :
    loadReals m base (n + 1) = some (x :: xs) ↔ loadF m base = some x ∧ loadReals m (base + 8) n = some xs := by
  rw [loadReals]
  split
  · next y ys hy hys => simp [hy, hys]
  · next hnone => exact ⟨(nomatch ·), fun ⟨h₁, h₂⟩ => (hnone _ _ h₁ h₂).elim⟩

theorem loadComplexes_eq_cons_iff {m : Mem} {base n : Nat} {x : Cplx} {xs : List Cplx} :
    loadComplexes m base (n + 1) = some (x :: xs) ↔
      (loadF m base = some x.1 ∧ loadF m (base + 8) = some x.2) ∧ loadComplexes m (base + 16) n = some xs := by
  rw [loadComplexes]
  split
  · next re im ys hre him hys => simp [hre, him, hys, Prod.ext_iff]
  · next hnone => exact ⟨(nomatch ·), fun ⟨⟨h₁, h₂⟩, h₃⟩ => (hnone _ _ _ h₁ h₂ h₃).elim⟩

@[simp] theorem complexEntry_cons_zero (x : Cplx) (xs : List Cplx) : complexEntry (x :: xs) 0 = x := rfl

@[simp] theorem complexEntry_cons_succ (x : Cplx) (xs : List Cplx) (i : Nat) :
    complexEntry (x :: xs) (i + 1) = complexEntry xs i := rfl

/-- Reals lie 8 bytes apart (20 R62). -/
theorem loadReals_eq_some_iff (m : Mem) (base n : Nat) (xs : List F64) :
    loadReals m base n = some xs ↔ xs.length = n ∧ ∀ i, i < n → loadF m (base + 8 * i) = some (entry xs i) := by
  induction n generalizing base xs with
  | zero => simp [loadReals, List.length_eq_zero_iff, eq_comm (a := [])]
  | succ n ih =>
    cases xs with
    | nil => exact ⟨fun h => absurd (loadReals_length h) (by simp), fun h => absurd h.1 (by simp)⟩
    | cons y ys =>
      rw [loadReals_eq_cons_iff, ih, Nat.forall_lt_succ_left']
      simp [Nat.mul_succ, Nat.add_assoc, Nat.add_comm 8, and_left_comm]

/-- Complex values lie 16 bytes apart, the imaginary part 8 bytes above the real part (20 R62). -/
theorem loadComplexes_eq_some_iff (m : Mem) (base n : Nat) (xs : List Cplx) :
    loadComplexes m base n = some xs ↔
      xs.length = n ∧ ∀ i, i < n → loadF m (base + 16 * i) = some (complexEntry xs i).1 ∧
        loadF m (base + 16 * i + 8) = some (complexEntry xs i).2 := by
  induction n generalizing base xs with
  | zero => simp [loadComplexes, List.length_eq_zero_iff, eq_comm (a := [])]
  | succ n ih =>
    cases xs with
    | nil => exact ⟨fun h => absurd (loadComplexes_length h) (by simp), fun h => absurd h.1 (by simp)⟩
    | cons y ys =>
      rw [loadComplexes_eq_cons_iff, ih, Nat.forall_lt_succ_left']
      simp [Nat.mul_succ, Nat.add_assoc, Nat.add_comm 16, and_left_comm]

/-- Stored indices lie 4 bytes apart (20 R62), whatever is stored before and after them. -/
theorem read_indexBytes_inside (m : Mem) (a : Nat) (pre : List Byte) (is : List Nat) (post : List Byte) {i : Nat}
    (hi : i < is.length) :
    Mem.read (Mem.writeBytes m a (pre ++ (indexBytes is ++ post))) (a + pre.length + 4 * i) 4 =
      some (is.getD i 0 % 2 ^ 32) := by
  induction is generalizing pre i with
  | nil => simp at hi
  | cons k is ih =>
    cases i with
    | zero =>
      have h := readBytes_inside m a pre (leBytes 4 k) (indexBytes is ++ post)
      rw [leBytes_length] at h
      simp [Mem.read, indexBytes, h, leNat_leBytes]
    | succ i =>
      have h := ih (pre ++ leBytes 4 k) (i := i) (by simpa using hi)
      simp only [List.length_append, leBytes_length, List.append_assoc] at h
      rw [indexBytes, List.append_assoc, List.getD_cons_succ, ← h]
      congr 1
      omega

/-! ### A store cut into narrower stores -/

/-- Storing the low `n` bytes of a number and then its next `k` bytes above them leaves the bytes of one store (20 R63). -/
theorem readByte_write_split (m : Mem) (a n k v x : Nat) :
    Mem.readByte (Mem.write (Mem.write m a n v) (a + n) k (v / 256 ^ n)) x = Mem.readByte (Mem.write m a (n + k) v) x := by
  rw [readByte_write, readByte_write, readByte_write]
  by_cases hhigh : a + n ≤ x ∧ x < a + n + k
  · rw [if_pos hhigh, if_pos (by omega), Nat.div_div_eq_div_mul, ← pow_add, show n + (x - (a + n)) = x - a by omega]
  · have hlow : (a ≤ x ∧ x < a + (n + k)) ↔ a ≤ x ∧ x < a + n := by omega
    simp only [if_neg hhigh, hlow]

/-- Storing a number's low `n` bytes one at a time leaves the bytes of one store (20 R63). -/
theorem readByte_write_bytewise (m : Mem) (a n v x : Nat) :
    Mem.readByte ((List.range n).foldl (fun m' j => Mem.write m' (a + j) 1 (v / 256 ^ j)) m) x =
      Mem.readByte (Mem.write m a n v) x := by
  induction n generalizing x with
  | zero => simp [readByte_write]
  | succ n ih =>
    rw [List.range_succ, List.foldl_append, List.foldl_cons, List.foldl_nil, readByte_write, ih, ← readByte_write,
      readByte_write_split]

/-- A read of the low bytes of a stored number. -/
theorem read_write_low (m : Mem) (a n k v : Nat) : Mem.read (Mem.write m a (n + k) v) a n = some (v % 256 ^ n) := by
  rw [← read_write m a n v]
  refine read_congr a n fun x h₁ h₂ => ?_
  rw [readByte_write, readByte_write, if_pos (by omega), if_pos (by omega)]

theorem loadF_congr {m m' : Mem} (a : Nat) (h : ∀ x, Mem.readByte m x = Mem.readByte m' x) : loadF m a = loadF m' a := by
  rw [loadF, loadF, read_congr a 8 fun x _ _ => h x]

theorem loadF_write (m : Mem) (a : Nat) (v : Word) : loadF (Mem.write m a 8 v.toNat) a = some v :=
  loadF_of_readBytes (by simpa [Mem.write] using readBytes_writeBytes m a (leBytes 8 v.toNat))

/-! ### Host accesses -/

/-- Whatever a host read reads, a state it answers differs in the answers alone (20 R68). -/
theorem performAccess_read_next {s t : State} {off : BitVec 27} {w : Nat} (h : performAccess s (.read off w) = .next t) :
    ∃ r, t = s.answer r := by
  obtain ⟨r, hr⟩ | hf | ⟨off', v, ha, -⟩ | ⟨off', w', v, x, ha, -⟩ := performAccess_cases s (.read off w)
  · rw [hr] at h
    exact ⟨r, (Host.Outcome.next.inj h).symm⟩
  · rw [hf] at h
    cases h
  · cases ha
  · cases ha

/-- An aligned host store to DMEM in IDLE. -/
theorem step_dmem_write {s : State} {a w : Nat} {v : Word} {rest : List PortEvent} (hp : s.phase = .idle)
    (hok : dmemAccessOk a w = true) (ha : a < Config.dmemSize) (h : arrives s (.write (dmemOffsetOf a) w v) rest) :
    step s = .next
      { s with dmem := Mem.write s.dmem a w v.toNat, port := rest, answers := s.answers ++ [.written] } := by
  rw [step_idle_arrival hp h, performAccess, performWrite, placeOf_dmemOffsetOf ha]
  simp only [hok, if_true]
  rfl

/-- An aligned host load from written bytes of DMEM in IDLE. -/
theorem step_dmem_read {s : State} {a w d : Nat} {rest : List PortEvent} (hp : s.phase = .idle)
    (hok : dmemAccessOk a w = true) (ha : a < Config.dmemSize) (h : arrives s (.read (dmemOffsetOf a) w) rest)
    (hd : Mem.read s.dmem a w = some d) :
    step s = .next { s with port := rest, answers := s.answers ++ [.data (BitVec.ofNat 64 d)] } := by
  rw [step_idle_arrival hp h, performAccess, performRead, placeOf_dmemOffsetOf ha]
  simp only [hok, if_true, State.withPort_dmem, hd]
  rfl

end Sys2Proof.Machine
end

section
/-! The statements of 20_memory.md, settled. -/

namespace Sys2Proof.Machine

open Sys2Proof.Machine.Float64 Sys2Proof.Safety

/-- Settles O17: a read that is performed can only add an answer, and at a register's offset it is `State.readReg`. -/
theorem hostReadsHaveNoSideEffect : Obligations.HostReadsHaveNoSideEffect := by
  unfold Obligations.HostReadsHaveNoSideEffect
  refine ⟨fun s t off w rest h hnot hstep => ?_, fun s r rest h => ?_, fun s => by simp only [State.readReg, and_self]⟩
  · rw [step_arrival h fun hp => Bool.eq_false_iff.mpr fun hd => hnot ⟨hp, hd⟩] at hstep
    exact performAccess_read_next hstep
  · rw [registerOffset_eq] at h
    exact step_named_read h

/-- Settles O18: the store is one write of DMEM, and the load, next at the port, reads it back. -/
theorem dmemLoadReturnsStoredValue : Obligations.DmemLoadReturnsStoredValue := by
  unfold Obligations.DmemLoadReturnsStoredValue
  intro s a w v rest hp hw ha hlt h
  have hok := dmemAccessOk_of hw ha
  refine ⟨_, _, step_dmem_write hp hok hlt h, step_dmem_read hp hok hlt ⟨rfl, h.2⟩ (read_write s.dmem a w v.toNat), rfl,
    by simp, fun x hx => ?_⟩
  exact readByte_writeBytes_outside (by rwa [leBytes_length])

/-- Settles O19: a load of a sequence is the load of each entry, and a store reads the same byte by byte however it is cut. -/
theorem narrowStoresMakeTheSameDouble : Obligations.NarrowStoresMakeTheSameDouble := by
  unfold Obligations.NarrowStoresMakeTheSameDouble
  refine ⟨fun m base i xs => ?_, fun m base i xs => ?_, fun m base i is hi => ?_, loadReals_eq_some_iff,
    loadComplexes_eq_some_iff, fun m a v => ?_⟩
  · exact ((loadReals_eq_some_iff ..).mp (loadReals_writeBytes m base xs)).2 i
  · exact ((loadComplexes_eq_some_iff ..).mp (loadComplexes_writeBytes m base xs)).2 i
  · simpa using read_indexBytes_inside m base [] is [] hi
  · have hhalves := readByte_write_split m a 4 4 v.toNat
    have hbytes := readByte_write_bytewise m a 8 v.toNat
    have hwhole := loadF_write m a v
    refine ⟨fun x => ⟨hhalves x, hbytes x⟩, hwhole, (loadF_congr a hhalves).trans hwhole,
      (loadF_congr a hbytes).trans hwhole, ?_⟩
    rw [BitVec.extractLsb'_toNat, Nat.shiftRight_zero]
    exact read_write_low m a 4 4 v.toNat

/-- Settles O20: `arriveBusy` holds exactly the accesses to the upper half of the aperture, and `idleStep` takes the held ones first. -/
theorem dmemAccessesAreHeldWhileBusy : Obligations.DmemAccessesAreHeldWhileBusy := by
  unfold Obligations.DmemAccessesAreHeldWhileBusy
  refine ⟨fun s a rest hp h => ⟨fun hoff => ?_, fun hoff => ?_⟩, fun s a later => step_held⟩
  · rw [step_busy_arrival hp h, arriveBusy, if_pos ((toDmem_iff a).mpr hoff)]
    rfl
  · rw [step_busy_arrival hp h, arriveBusy, if_neg (by rw [toDmem_iff]; omega)]
    rfl

end Sys2Proof.Machine
end

section
/-! The codec of the command word: the fields and the word determine each other, the legal fields are those of a command, and
`decode` accepts exactly the word of each command (30 R90 to R97). -/

namespace Sys2Proof

/-! ### Fields and words -/

/-- Bits 7:0, 8 and 63:9 are the whole of a word (30 R90). -/
theorem wordOf_fieldsOf (w : Word) : wordOf (fieldsOf w) = w := by
  rw [wordOf, fieldsOf, BitVec.extractLsb'_append_extractLsb'_eq_extractLsb' (by decide),
    BitVec.extractLsb'_append_extractLsb'_eq_extractLsb' (by decide)]
  exact BitVec.extractLsb'_eq_self

/-- The opcode table gives fields, an encoding and a decoding that agree on each command (30 R90 to R95). -/
theorem encoding_statement (i : Instr) : Laws.Encoding.Statement i := by
  cases i with
  | fft => exact Laws.Encoding.fft
  | fftR => exact Laws.Encoding.fftR
  | ifft => exact Laws.Encoding.ifft
  | acorr => exact Laws.Encoding.acorr
  | levdur => exact Laws.Encoding.levdur
  | iirsyn => exact Laws.Encoding.iirsyn
  | resample => exact Laws.Encoding.resample
  | cepstrum => exact Laws.Encoding.cepstrum
  | vqnear => exact Laws.Encoding.vqnear

theorem fields_wellFormed (i : Instr) : i.fields.wellFormed = true := (encoding_statement i).1

@[simp] theorem decode_encode (i : Instr) : decode (encode i) = .ok i := (encoding_statement i).2.1

theorem fieldsOf_encode (i : Instr) : fieldsOf (encode i) = i.fields := by
  obtain ⟨-, -, hfields, -⟩ := encoding_statement i
  exact hfields

theorem wordOf_fields (i : Instr) : wordOf i.fields = encode i := by
  obtain ⟨-, -, -, hword⟩ := encoding_statement i
  exact hword

/-- A word has the fields of a command exactly when it is the command's word. -/
theorem fieldsOf_eq_fields_iff (w : Word) (i : Instr) : fieldsOf w = i.fields ↔ w = encode i := by
  constructor
  · intro h
    rw [← wordOf_fieldsOf w, h, wordOf_fields]
  · rintro rfl
    exact fieldsOf_encode i

/-! ### What `decode` accepts -/

/-- An operation code that `decodeOp` accepts is the one of its command, whose other fields are zero. -/
theorem fields_of_decodeOp {op : BitVec 8} {i : Instr} (h : decodeOp op = .ok i) : i.fields = ⟨op, 0, 0⟩ := by
  unfold decodeOp at h
  split_ifs at h <;> cases h <;> subst op <;> rfl

/-- A word that decodes has the fields of its command: the tests of 30 R94 have read every one of them. -/
theorem fieldsOf_of_decode {w : Word} {i : Instr} (h : decode w = .ok i) : fieldsOf w = i.fields := by
  unfold decode at h
  generalize fieldsOf w = f at h ⊢
  obtain ⟨op, real, rsv⟩ := f
  dsimp only at h
  split_ifs at h with hrsv hfft hfftR hreal
  · obtain ⟨rfl, rfl⟩ := hfft
    cases h
    rw [not_not.mp hrsv]
    rfl
  · obtain ⟨rfl, rfl⟩ := hfftR
    cases h
    rw [not_not.mp hrsv]
    rfl
  · have hreal0 : real = 0 := by bv_omega
    rw [fields_of_decodeOp h, hreal0, not_not.mp hrsv]

theorem decode_eq_ok_iff (w : Word) (i : Instr) : decode w = .ok i ↔ w = encode i := by
  constructor
  · exact fun h => (fieldsOf_eq_fields_iff w i).mp (fieldsOf_of_decode h)
  · rintro rfl
    exact decode_encode i

/-! ### The illegal words -/

theorem wellFormed_iff (f : Fields) :
    f.wellFormed = true ↔ f.rsv = 0 ∧ (1 ≤ f.op.toNat ∧ f.op.toNat ≤ 8) ∧ (f.real = 0 ∨ f.op = 1) := by
  simp only [Fields.wellFormed, Fields.reservedOk, Fields.opOk, Fields.realOk, Bool.and_eq_true, Bool.or_eq_true,
    beq_iff_eq, decide_eq_true_eq, and_assoc]

/-- The clauses of 30 R97: one of the three checks fails. -/
theorem not_wellFormed_iff (f : Fields) :
    f.wellFormed = false ↔ f.rsv ≠ 0 ∨ f.op = 0 ∨ 9 ≤ f.op.toNat ∨ f.real = 1 ∧ f.op ≠ 1 := by
  have hreal : f.real = 1 ↔ f.real ≠ 0 := by bv_omega
  have hop : f.op = 0 ∨ 9 ≤ f.op.toNat ↔ ¬(1 ≤ f.op.toNat ∧ f.op.toNat ≤ 8) := by bv_omega
  rw [← Bool.not_eq_true, wellFormed_iff, ← or_assoc (a := f.op = 0), hop, hreal]
  tauto

/-- The legal fields are those the opcode table gives some command (30 R95). -/
theorem wellFormed_iff_exists (f : Fields) : f.wellFormed = true ↔ ∃ i : Instr, f = i.fields := by
  constructor
  · obtain ⟨op, real, rsv⟩ := f
    rw [wellFormed_iff]
    rintro ⟨rfl, ⟨hlo, hhi⟩, hreal⟩
    have hop : op = 1 ∨ op = 2 ∨ op = 3 ∨ op = 4 ∨ op = 5 ∨ op = 6 ∨ op = 7 ∨ op = 8 := by bv_omega
    by_cases h1 : real = 1
    · obtain rfl : op = 1 := by bv_omega
      exact ⟨.fftR, by rw [h1]; rfl⟩
    · obtain rfl : real = 0 := by bv_omega
      rcases hop with rfl | rfl | rfl | rfl | rfl | rfl | rfl | rfl
      exacts [⟨.fft, rfl⟩, ⟨.ifft, rfl⟩, ⟨.acorr, rfl⟩, ⟨.levdur, rfl⟩, ⟨.iirsyn, rfl⟩, ⟨.resample, rfl⟩, ⟨.cepstrum, rfl⟩,
        ⟨.vqnear, rfl⟩]
  · rintro ⟨i, rfl⟩
    exact fields_wellFormed i

/-- `decode` rejects exactly the words whose fields fail a check. -/
theorem decode_error_iff (w : Word) : (∃ e, decode w = .error e) ↔ (fieldsOf w).wellFormed = false := by
  have hok : (∃ i, decode w = .ok i) ↔ (fieldsOf w).wellFormed = true := by
    simp only [wellFormed_iff_exists, decode_eq_ok_iff, fieldsOf_eq_fields_iff]
  rw [← Bool.not_eq_true, ← hok]
  cases decode w <;> simp

end Sys2Proof

namespace Sys2Proof.Machine

open Sys2Proof.Safety

/-- The command step of an illegal word (30 R97): its failure reports the whole word. -/
theorem commandStep_of_illegal {s : State} {e : IllegalWord} (h : decode s.snap.cmd = .error e) :
    commandStep s = .next (failed s .illegalCommand s.snap.cmd 0) := by
  rw [commandStep, h]
  rfl

/-- `CODE` of `ERR_CODE` (10 R30). -/
theorem errCodeWord_code (s : State) : s.errCodeWord.extractLsb' 0 8 = s.errCode.number := by
  rw [State.errCodeWord, BitVec.extractLsb'_setWidth_of_le (by decide), BitVec.extractLsb'_append_eq_right]

end Sys2Proof.Machine
end

section
/-! The statements of 30_encoding.md, settled. -/

namespace Sys2Proof.Machine

open Sys2Proof.Safety

/-- Settles O2: a word is made of its fields, and `decode` gives a command only to the fields of that command. -/
theorem decodeAcceptsExactlyTheEncodings : Obligations.DecodeAcceptsExactlyTheEncodings := by
  unfold Obligations.DecodeAcceptsExactlyTheEncodings
  exact decode_eq_ok_iff

/-- Settles O3: the illegal words are those whose fields fail a check of 30 R97, and the command step of one is its failure. -/
theorem illegalWordsFailIllegalCommand : Obligations.IllegalWordsFailIllegalCommand := by
  unfold Obligations.IllegalWordsFailIllegalCommand
  refine ⟨fun w => (decode_error_iff w).trans (not_wellFormed_iff (fieldsOf w)), fun s s' e hnext h => ⟨?_, ?_⟩⟩
  · rw [← engineNext_snap hnext] at h ⊢
    rw [step_engineNext hnext, commandStep_of_illegal h]
  · exact errCodeWord_code (failed s' .illegalCommand s.snap.cmd 0)

/-- Settles O1: the table's words are the encodings of its commands. -/
theorem opcodeMapDecodes : Obligations.OpcodeMapDecodes := by
  unfold Obligations.OpcodeMapDecodes
  exact ⟨decode_encode .fft, decode_encode .fftR, decode_encode .ifft, decode_encode .acorr, decode_encode .levdur,
    decode_encode .iirsyn, decode_encode .resample, decode_encode .cepstrum, decode_encode .vqnear⟩

end Sys2Proof.Machine
end

section
/-! SUPPORT. The machine invariant (Safety.lean, `Inv`), operation by operation: each named update of the state keeps it, hence so do a
register write, a host access and the command step. -/

namespace Sys2Proof.Machine

open Sys2Proof.Safety

variable {s : State}

/-! ### Updates the invariant does not depend on -/

theorem inv_withPort (h : Inv s) (rest : List PortEvent) : Inv (s.withPort rest) :=
  ⟨h.memWf, h.busyClear, h.busyCmd, h.errReported, h.noErrorNoInfo, h.heldDmem⟩

theorem inv_answer (h : Inv s) (r : Answer) : Inv (s.answer r) :=
  ⟨h.memWf, h.busyClear, h.busyCmd, h.errReported, h.noErrorNoInfo, h.heldDmem⟩

theorem inv_withArgs (h : Inv s) (a : Args) : Inv (s.withArgs a) :=
  ⟨h.memWf, h.busyClear, h.busyCmd, h.errReported, h.noErrorNoInfo, h.heldDmem⟩

theorem inv_setIrqEn (h : Inv s) (v : Word) : Inv (s.setIrqEn v) :=
  ⟨h.memWf, h.busyClear, h.busyCmd, h.errReported, h.noErrorNoInfo, h.heldDmem⟩

theorem inv_drop (h : Inv s) : Inv s.drop :=
  ⟨h.memWf, h.busyClear, h.busyCmd, h.errReported, h.noErrorNoInfo, h.heldDmem⟩

/-! ### Updates of one field the invariant speaks of -/

theorem inv_withHeld (h : Inv s) {later : List HostAccess} (hd : ∀ a ∈ later, a.toDmem = true) : Inv (s.withHeld later) :=
  ⟨h.memWf, h.busyClear, h.busyCmd, h.errReported, h.noErrorNoInfo, hd⟩

theorem inv_withDmem (h : Inv s) {m : Mem} (hm : Mem.wf m) : Inv (s.withDmem m) :=
  ⟨hm, h.busyClear, h.busyCmd, h.errReported, h.noErrorNoInfo, h.heldDmem⟩

theorem inv_withDrawn (h : Inv s) {m : Mem} (hm : Mem.wf m) : Inv (s.withDrawn m) :=
  ⟨hm, h.busyClear, h.busyCmd, h.errReported, h.noErrorNoInfo, h.heldDmem⟩

/-! ### The life of a command -/

/-- Clearing status bits cannot set one, and touches no error code. -/
theorem inv_clearStatus (h : Inv s) (v : Word) : Inv (s.clearStatus v) where
  memWf := h.memWf
  busyClear hp := by
    obtain ⟨hdone, herr, hcode, hresult⟩ := h.busyClear hp
    exact ⟨by simp [hdone], by simp [herr], hcode, hresult⟩
  busyCmd := h.busyCmd
  errReported he := h.errReported (Bool.and_eq_true_iff.mp he).1
  noErrorNoInfo := h.noErrorNoInfo
  heldDmem := h.heldDmem

theorem inv_accept (h : Inv s) (w : Word) : Inv (s.accept w) where
  memWf := h.memWf
  busyClear _ := ⟨rfl, rfl, rfl, rfl⟩
  busyCmd _ := rfl
  errReported := nofun
  noErrorNoInfo _ := ⟨rfl, rfl, rfl⟩
  heldDmem := h.heldDmem

theorem inv_resetRegisters (h : Inv s) : Inv s.resetRegisters where
  memWf := h.memWf
  busyClear := nofun
  busyCmd := nofun
  errReported := nofun
  noErrorNoInfo _ := ⟨rfl, rfl, rfl⟩
  heldDmem := h.heldDmem

theorem inv_fail (h : Inv s) {f : Failure} (hf : f.code ≠ .none) : Inv (s.fail f) where
  memWf := h.memWf
  busyClear := nofun
  busyCmd := nofun
  errReported _ := hf
  noErrorNoInfo hn := absurd hn hf
  heldDmem := h.heldDmem

theorem inv_succeeded (h : Inv s) {m : Mem} (hm : Mem.wf m) (count : Nat) : Inv (succeeded s m count) where
  memWf := hm
  busyClear := nofun
  busyCmd := nofun
  errReported := h.errReported
  noErrorNoInfo := h.noErrorNoInfo
  heldDmem := h.heldDmem

/-! ### Soft reset -/

/-- Abandoning a command draws bytes in regions that passed their checks only (70 R342 item 3). -/
theorem wf_abandonedMem {m : Mem} (hm : Mem.wf m) (draw : Nat) (n : Snapshot) : Mem.wf (abandonedMem draw n m) := by
  unfold abandonedMem
  cases decode n.cmd with
  | error e => exact hm
  | ok i =>
    dsimp only
    cases hc : checkCommand i n.args with
    | error f => exact hm
    | ok rs =>
      obtain ⟨-, hok, -⟩ := (checkCommand_ok_iff i n.args rs).mp hc
      exact wf_scrambleRegions hm hok

theorem inv_softReset (h : Inv s) : Inv s.softReset := by
  unfold State.softReset
  cases s.phase with
  | idle => exact inv_resetRegisters h
  | busy => exact inv_resetRegisters (inv_withDrawn h (wf_abandonedMem h.memWf s.draws s.snap))

/-! ### Accesses and the command step -/

theorem inv_writeCmd (h : Inv s) (w : Word) : Inv (s.writeCmd w) := by
  unfold State.writeCmd
  cases s.phase with
  | idle => exact inv_accept h w
  | busy => exact inv_drop h

theorem inv_writeCtrl (h : Inv s) (v : Word) : Inv (s.writeCtrl v) := by
  unfold State.writeCtrl
  split
  · exact inv_softReset h
  · exact h

theorem inv_writeReg (h : Inv s) (r : Reg) (v : Word) : Inv (s.writeReg r v) := by
  cases r with
  | ctrl => exact inv_writeCtrl h v
  | cmd => exact inv_writeCmd h v
  | status => exact inv_clearStatus h v
  | irqEn => exact inv_setIrqEn h v
  | id | cfg | errCode | errInfo0 | errInfo1 | result0 => exact h
  | src0 | src1 | dst0 | dst1 | scr | len0 | len1 | len2 | len3 | fp0 | fp1 | cepEps => exact inv_withArgs h _

theorem inv_writeWindow (h : Inv s) (off : Nat) (v : Word) : Inv (s.writeWindow off v) := by
  unfold State.writeWindow
  split
  · exact inv_writeReg h _ v
  · exact h

/-- An aligned store to the DMEM window keeps the canonical form. -/
theorem wf_write {m : Mem} (hm : Mem.wf m) {x w : Nat} (hok : dmemAccessOk x w = true) (hx : x < Config.dmemSize) (v : Nat) :
    Mem.wf (Mem.write m x w v) :=
  wf_writeBytes hm (by rw [leBytes_length]; exact dmemAccessOk_fits hok hx)

/-- A host access keeps the invariant. -/
theorem inv_performAccess (h : Inv s) {t : State} {a : HostAccess} (ht : performAccess s a = .next t) : Inv t := by
  obtain ⟨r, hx⟩ | hx | ⟨off, v, -, -, hx⟩ | ⟨off, w, v, x, -, hplace, hok, hx⟩ := performAccess_cases s a <;>
    rw [hx] at ht <;> cases ht
  · exact inv_answer h r
  · exact inv_answer (inv_writeWindow h off.toNat v) .written
  · exact inv_answer (inv_withDmem h (wf_write h.memWf hok (placeOf_dmem_lt hplace) v.toNat)) .written

/-- The command step keeps the invariant: a failure has a code, and a success stores inside regions that were checked. -/
theorem inv_commandStep (h : Inv s) {t : State} (ht : commandStep s = .next t) : Inv t := by
  obtain ⟨f, hx, hf⟩ | hx | ⟨i, rs, r, -, hc, hr, hx⟩ := commandStep_cases s <;> rw [hx] at ht <;> cases ht
  · exact inv_fail h hf
  · exact inv_succeeded h (wf_results h.memWf hc hr) r.count

theorem inv_engineNext (h : Inv s) {s' : State} (hn : engineNext s s') : Inv s' := by
  rw [(engineNext_eq hn).1]
  exact inv_withPort h s'.port

end Sys2Proof.Machine
end

section
/-! SUPPORT. What a command that answers a next state has done: the failures it can report, the bytes it leaves alone, and the errors its
region checks report (40 R122 to R129). -/

namespace Sys2Proof.Machine

open Sys2Proof.Safety

/-! ### The next state of a command -/

/-- A command that answers a next state has failed, or has passed its checks and stored its results. -/
theorem exec_next_cases {i : Instr} {s t : State} (h : exec i s = .next t) :
    (∃ f, plainFailure i f ∧ t = s.fail f) ∨
    ∃ rs r, checkCommand i s.snap.args = .ok rs ∧ computeOf i s.snap.args s.dmem = some (.ok r) ∧
      t = succeeded s (Mem.writeBlocks s.dmem r.blocks) r.count := by
  obtain ⟨f, hc, hx⟩ | ⟨rs, hc, ⟨f, hf, hx⟩ | ⟨-, hx⟩ | ⟨r, hr, hx⟩⟩ := exec_cases i s <;> rw [hx] at h <;> cases h
  · exact .inl ⟨f, checkCommand_failure hc, rfl⟩
  · exact .inl ⟨f, computeOf_failure hf, rfl⟩
  · exact .inr ⟨rs, r, hc, hr, rfl⟩

/-- The command step ends the command: `DONE` is set (40 R128, R129). -/
theorem commandStep_next_done {s t : State} (h : commandStep s = .next t) : t.phase = .idle ∧ t.done = true := by
  obtain ⟨f, hx, -⟩ | hx | ⟨i, rs, r, -, -, -, hx⟩ := commandStep_cases s <;> rw [hx] at h <;> cases h <;> exact ⟨rfl, rfl⟩

/-! ### The end of BUSY -/

/-- A step that is the command step ends BUSY, or faults, within any number of steps above none. -/
theorem endsWithin_of_commandStep {s s' : State} (h : step s = commandStep s') (k : Nat) :
    ∃ n, n ≤ k + 1 ∧ (Sys2Proof.core.run n s = .fault Fault.unwrittenRead ∨
      ∃ t : State, Sys2Proof.core.run n s = .next t ∧ t.phase = .idle) := by
  refine ⟨1, by omega, ?_⟩
  obtain ⟨f, hx, -⟩ | hx | ⟨i, rs, r, -, -, -, hx⟩ := commandStep_cases s' <;> rw [hx] at h
  · exact .inr ⟨_, run_next 0 h, rfl⟩
  · exact .inl (run_fault 0 h)
  · exact .inr ⟨_, run_next 0 h, rfl⟩

/-- An access that arrives while BUSY is held or performed, and is used up. -/
theorem step_busy_access {s : State} {a : HostAccess} {rest : List PortEvent} (hp : s.phase = .busy)
    (h : s.port = .access a :: rest) : ∃ t, step s = .next t ∧ t.port = rest := by
  rw [step_busy_arrival hp h, arriveBusy]
  cases hd : a.toDmem with
  | true => exact ⟨_, rfl, rfl⟩
  | false => exact performAccess_window hd

/-! ### `ERR_CODE` as it reads -/

/-- `OP` of `ERR_CODE` (10 R30). -/
theorem errCodeWord_op (s : State) : s.errCodeWord.extractLsb' 8 8 = s.errOp := by
  rw [State.errCodeWord, BitVec.extractLsb'_setWidth_of_le (by decide), BitVec.extractLsb'_append_eq_left]

theorem errCodeWord_high_zero (s : State) : s.errCodeWord.extractLsb' 16 48 = 0 := by
  rw [State.errCodeWord]
  ext i hi
  simp

/-! ### The bytes a command leaves alone -/

/-- A success stores in the command's written regions only (40 R126). -/
theorem readByte_results_outside {i : Instr} {a : Args} {m : Mem} {rs : List Region} {r : Results}
    (hrs : commandRegions i a = .ok rs) (hr : computeOf i a m = some (.ok r)) {x : Nat} (hx : ¬mayWrite i a x) :
    Mem.readByte (Mem.writeBlocks m r.blocks) x = Mem.readByte m x := by
  refine readByte_writeBlocks_outside fun b hb => ?_
  obtain ⟨q, hq, hw, hbase, hsize⟩ := blocks_fill_regions hrs hr b hb
  by_contra hin
  exact hx ⟨rs, hrs, q, hq, hw, by omega, by omega⟩

/-- Whatever a command answers, the bytes it may not write read as before. -/
theorem exec_readByte_outside {i : Instr} {s t : State} (h : exec i s = .next t) {x : Nat} (hx : ¬mayWrite i s.snap.args x) :
    Mem.readByte t.dmem x = Mem.readByte s.dmem x := by
  obtain ⟨f, -, rfl⟩ | ⟨rs, r, hc, hr, rfl⟩ := exec_next_cases h
  · rfl
  · exact readByte_results_outside ((checkCommand_ok_iff i s.snap.args rs).mp hc).1 hr hx

/-- The permitted overlap is the one of an input that is exactly the output (40 R125). -/
theorem inPlaceAllowed_bases {i : Instr} {a : Args} {rs : List Region} (hrs : commandRegions i a = .ok rs) {p q : Region}
    (hp : p ∈ rs) (hq : q ∈ rs) (h : inPlaceAllowed i p q = true) : (i = .fft ∨ i = .ifft) ∧ a.dst0 = a.src0 := by
  simp only [inPlaceAllowed, Bool.and_eq_true, Bool.or_eq_true, beq_iff_eq] at h
  obtain ⟨⟨⟨hi, hp0⟩, hq2⟩, hbase⟩ := h
  have hregions : rs = [⟨0, a.src0.toNat, 16 * a.len0.toNat, 8, .input⟩, ⟨2, a.dst0.toNat, 16 * a.len0.toNat, 8, .output⟩] := by
    rcases hi with rfl | rfl
    · exact (fftRegions_ok hrs).2
    · exact (ifftRegions_ok hrs).2
  subst hregions
  simp only [List.mem_cons, List.not_mem_nil, or_false] at hp hq
  obtain rfl | rfl := hp
  · obtain rfl | rfl := hq
    · cases hq2
    · exact ⟨hi, BitVec.eq_of_toNat_eq hbase.symm⟩
  · cases hp0

/-- In a command that passes its checks and is no in-place transform, two regions that share a byte are both written or both not. -/
theorem written_eq_of_shared {i : Instr} {a : Args} {rs : List Region} (hc : checkCommand i a = .ok rs)
    (hin : ¬((i = .fft ∨ i = .ifft) ∧ a.dst0 = a.src0)) (x : Nat) :
    rs.Pairwise (fun p q => inRegion x p → inRegion x q → p.written = q.written) := by
  obtain ⟨hrs, -, hpairs⟩ := (checkCommand_ok_iff i a rs).mp hc
  refine hpairs.imp_of_mem fun {p q} hp hq hf hxp hxq => ?_
  have hallowed : inPlaceAllowed i p q = false := Bool.eq_false_iff.mpr fun h => hin (inPlaceAllowed_bases hrs hp hq h)
  have hoverlap : p.overlaps q = true := (overlaps_iff p q).mpr ⟨x, hxp, hxq⟩
  have hunwritten : (p.written || q.written) = false := by simpa [forbiddenPair, hallowed, hoverlap] using hf
  obtain ⟨hpw, hqw⟩ := Bool.or_eq_false_iff.mp hunwritten
  rw [hpw, hqw]

/-- In a command that passes its checks and is no in-place transform, no byte of an `in` region lies in a written one. -/
theorem not_mayWrite_of_input {i : Instr} {a : Args} {rs : List Region} (hc : checkCommand i a = .ok rs)
    (hin : ¬((i = .fft ∨ i = .ifft) ∧ a.dst0 = a.src0)) {r : Region} (hr : r ∈ rs) (hrole : r.role = .input) {x : Nat}
    (hx : inRegion x r) : ¬mayWrite i a x := by
  rintro ⟨rs', hrs', q, hq, hwritten, hxq⟩
  obtain rfl : rs = rs' := Except.ok.inj (((checkCommand_ok_iff i a rs).mp hc).1.symm.trans hrs')
  have hshared := written_eq_of_shared hc hin x
  have heq : r.written = q.written :=
    hshared.forall_of_forall_of_flip (fun _ _ _ _ => rfl) (hshared.imp fun h hxq hxp => (h hxp hxq).symm) hr hq hx hxq
  have hinput : r.written = false := by simp [Region.written, hrole]
  exact absurd (hinput.symm.trans (heq.trans hwritten)) (by decide)

/-! ### The errors of the region checks -/

/-- When the parameters pass and a region does not, the command fails with the first bad region's error (40 R124). -/
theorem exec_of_bad_region {i : Instr} {s : State} {pre post : List Region} {r : Region} {f : Failure}
    (hrs : commandRegions i s.snap.args = .ok (pre ++ r :: post)) (hpre : ∀ p ∈ pre, regionOk p) (hr : checkRegion r = some f) :
    exec i s = .next (s.fail f) := by
  apply exec_of_check_error
  simp only [checkCommand, hrs, checkRegions_append hpre, checkRegions, hr]

/-- When every region passes and a pair is forbidden, the command fails with the first forbidden pair (40 R125). -/
theorem exec_of_forbidden_pair {i : Instr} {s : State} {pre mid post : List Region} {p q : Region}
    (hrs : commandRegions i s.snap.args = .ok (pre ++ p :: (mid ++ q :: post)))
    (hok : ∀ r ∈ pre ++ p :: (mid ++ q :: post), regionOk r)
    (hpre : (pre ++ p :: (mid ++ q :: post)).Pairwise (fun a b => a ∈ pre → ¬forbidden i a b))
    (hmid : ∀ b ∈ mid, ¬forbidden i p b) (hpq : forbidden i p q) :
    exec i s = .next (s.fail
      { code := .overlap, info0 := BitVec.ofNat 64 p.index, info1 := BitVec.ofNat 64 q.index }) := by
  simp only [← forbiddenPair_eq_false_iff] at hpre hmid
  have hfound : checkAgainst i p (mid ++ q :: post) =
      some { code := .overlap, info0 := BitVec.ofNat 64 p.index, info1 := BitVec.ofNat 64 q.index } := by
    rw [checkAgainst_append hmid, checkAgainst, if_pos ((forbiddenPair_iff i p q).mpr hpq)]
  apply exec_of_check_error
  simp only [checkCommand, hrs, (checkRegions_none_iff _).mpr hok, checkOverlaps_append hpre, checkOverlaps, hfound]

end Sys2Proof.Machine
end

section
/-! SUPPORT. Binary64 arithmetic by class of operand: what the classes exclude, when a result is a NaN, the value a finite operation
rounds to, and the twiddle factors of a fraction (40 R130 to R142). -/

namespace Sys2Proof.Machine.Float64

open Sys2Proof.Safety

/-! ### Classes of values -/

theorem not_isNaN_of_isInf {x : F64} (h : isInf x = true) : isNaN x = false := by
  simp only [isInf, beq_iff_eq] at h
  simp [isNaN, h]

theorem not_isZero_of_isInf {x : F64} (h : isInf x = true) : isZero x = false := by
  simp only [isInf, beq_iff_eq] at h
  simp [isZero, h, infBits]

theorem isFinite_of_isZero {x : F64} (h : isZero x = true) : isFinite x = true := by
  simp only [isZero, beq_iff_eq] at h
  simp [isFinite, h, infBits]

theorem magUnits_pos_of_not_isZero {x : F64} (h : isZero x = false) : 0 < magUnits x :=
  Nat.pos_of_ne_zero fun h0 => by simp [magUnits_eq_zero.mp h0] at h

/-- A value below zero is no NaN and no zero, and its sign bit is set. -/
theorem class_of_flt_zero {x : F64} (h : flt x 0 = true) : isNaN x = false ∧ isZero x = false ∧ sign x = true := by
  simp only [flt, Bool.and_eq_true, Bool.not_eq_true', decide_eq_true_eq] at h
  obtain ⟨⟨hnan, -⟩, hlt⟩ := h
  rw [show orderKey 0 = 0 by decide, orderKey] at hlt
  cases hs : sign x with
  | false => simp [hs] at hlt; omega
  | true =>
    rw [hs, if_pos rfl] at hlt
    exact ⟨hnan, by simp [isZero]; omega, rfl⟩

/-- A finite value stands strictly between the infinities in the order of patterns. -/
theorem orderKey_of_isFinite {x : F64} (h : isFinite x = true) : -(infBits : Int) < orderKey x ∧ orderKey x < infBits := by
  simp only [isFinite, decide_eq_true_eq] at h
  rw [orderKey]
  split <;> omega

/-- A finite value is below plus infinity and above minus infinity (40 R135). -/
theorem flt_infinities {x : F64} (h : isFinite x = true) :
    flt x 0x7FF0000000000000 = true ∧ flt 0xFFF0000000000000 x = true := by
  obtain ⟨hlo, hhi⟩ := orderKey_of_isFinite h
  have hpos : orderKey 0x7FF0000000000000 = infBits := by decide
  have hneg : orderKey 0xFFF0000000000000 = -(infBits : Int) := by decide
  have hnan : isNaN 0x7FF0000000000000 = false ∧ isNaN 0xFFF0000000000000 = false := by decide
  constructor
  · rw [flt, not_isNaN_of_isFinite h, hnan.1, hpos]
    simpa using hhi
  · rw [flt, not_isNaN_of_isFinite h, hnan.2, hneg]
    simpa using hlo

/-! ### NaN operands and NaN results (40 R131) -/

theorem fadd_of_isNaN {a b : F64} (h : isNaN a = true ∨ isNaN b = true) : fadd a b = nan := by
  rw [fadd, if_pos (by simpa using h)]

theorem fmul_of_isNaN {a b : F64} (h : isNaN a = true ∨ isNaN b = true) : fmul a b = nan :=
  if_pos (by simpa using h)

theorem fdiv_of_isNaN {a b : F64} (h : isNaN a = true ∨ isNaN b = true) : fdiv a b = nan :=
  if_pos (by simpa using h)

/-- A value that, if it is a NaN, is the canonical one. -/
def NaNCanonical (x : F64) : Prop := isNaN x = true → x = nan

theorem nanCanonical_nan : NaNCanonical nan := fun _ => rfl

theorem nanCanonical_of_not_isNaN {x : F64} (h : isNaN x = false) : NaNCanonical x := fun hn => by simp [h] at hn

theorem nanCanonical_withSign (s : Bool) {m : Nat} (h : m ≤ infBits) : NaNCanonical (withSign s m) :=
  nanCanonical_of_not_isNaN (isNaN_withSign h)

theorem nanCanonical_inf (s : Bool) : NaNCanonical (withSign s infBits) := nanCanonical_withSign s (Nat.le_refl infBits)

theorem nanCanonical_zero (s : Bool) : NaNCanonical (withSign s 0) := nanCanonical_withSign s (Nat.zero_le infBits)

theorem nanCanonical_roundMag (s : Bool) (num den : Nat) : NaNCanonical (withSign s (roundMag num den)) :=
  nanCanonical_withSign s (roundMag_le_inf num den)

theorem nanCanonical_fadd (a b : F64) : NaNCanonical (fadd a b) := by
  unfold fadd
  dsimp only
  split_ifs with hnan ha hab hb
  exacts [nanCanonical_nan, nanCanonical_nan, nanCanonical_of_not_isNaN (not_isNaN_of_isInf ha),
    nanCanonical_of_not_isNaN (not_isNaN_of_isInf hb), nanCanonical_zero _, nanCanonical_roundMag _ _ _]

theorem nanCanonical_fmul (a b : F64) : NaNCanonical (fmul a b) := by
  unfold fmul
  dsimp only
  split_ifs
  exacts [nanCanonical_nan, nanCanonical_nan, nanCanonical_inf _, nanCanonical_roundMag _ _ _]

theorem nanCanonical_fdiv (a b : F64) : NaNCanonical (fdiv a b) := by
  unfold fdiv
  dsimp only
  split_ifs
  exacts [nanCanonical_nan, nanCanonical_nan, nanCanonical_inf _, nanCanonical_zero _, nanCanonical_nan, nanCanonical_inf _,
    nanCanonical_roundMag _ _ _]

/-- `fneg` moves bit 63 and no other (40 R134). -/
theorem getLsbD_fneg (x : F64) (n : Nat) : (fneg x).getLsbD n = if n = 63 then !x.getLsbD n else x.getLsbD n := by
  have hmask : (0x8000000000000000 : F64) = BitVec.twoPow 64 63 := by decide
  rw [fneg, hmask, BitVec.getLsbD_xor, BitVec.getLsbD_twoPow]
  by_cases h : n = 63
  · simp [h]
  · simp [h, Ne.symm h]

/-! ### Special operands (40 R132) -/

/-- An exact zero rounds to zero. -/
theorem roundMag_zero {den : Nat} (h : 0 < den) : roundMag 0 den = 0 := Nat.le_zero.mp (roundMag_le h (Nat.zero_le _))

theorem fadd_fneg_self {x : F64} (h : isFinite x = true) : fadd x (fneg x) = 0 := by
  rw [fadd_finite h (by simpa using h), if_pos (by simp), sign_fneg, Bool.and_not_self]
  rfl

theorem fadd_fneg_self_of_isInf {x : F64} (h : isInf x = true) : fadd x (fneg x) = nan := by
  simp [fadd, h, not_isNaN_of_isInf h]

theorem fmul_zero_inf {a b : F64} (h : isZero a = true ∧ isInf b = true ∨ isInf a = true ∧ isZero b = true) :
    fmul a b = nan := by
  obtain ⟨ha, hb⟩ | ⟨ha, hb⟩ := h
  · simp [fmul, ha, hb]
  · simp [fmul, ha, hb]

theorem fmul_zeros {x y : F64} (hx : isZero x = true) (hy : isZero y = true) : fmul x y = withSign (sign x != sign y) 0 := by
  rw [fmul_finite (isFinite_of_isZero hx) (isFinite_of_isZero hy), magUnits_eq_zero.mpr hx, Nat.zero_mul,
    roundMag_zero unitsPerOne_pos]

theorem fdiv_infs {x y : F64} (hx : isInf x = true) (hy : isInf y = true) : fdiv x y = nan := by
  simp [fdiv, hx, hy]

theorem fdiv_zeros {x y : F64} (hx : isZero x = true) (hy : isZero y = true) : fdiv x y = nan := by
  have hxi := not_isInf_of_isFinite (isFinite_of_isZero hx)
  have hyi := not_isInf_of_isFinite (isFinite_of_isZero hy)
  simp [fdiv, hx, hy, hxi, hyi]

/-- A value that is no NaN and no zero, over a zero, is an infinity. -/
theorem fdiv_by_zero {x y : F64} (hn : isNaN x = false) (hx : isZero x = false) (hy : isZero y = true) :
    fdiv x y = withSign (sign x != sign y) infBits := by
  obtain ⟨hyi, hyn⟩ := (isFinite_iff y).mp (isFinite_of_isZero hy)
  simp [fdiv, hn, hx, hy, hyi, hyn]

theorem fdiv_by_inf {x y : F64} (hx : isFinite x = true) (hy : isInf y = true) : fdiv x y = withSign (sign x != sign y) 0 := by
  obtain ⟨hxi, hxn⟩ := (isFinite_iff x).mp hx
  simp [fdiv, hxi, hxn, hy, not_isNaN_of_isInf hy]

theorem fdiv_of_zero {x y : F64} (hx : isZero x = true) (hy : isFinite y = true) (hz : isZero y = false) :
    fdiv x y = withSign (sign x != sign y) 0 := by
  rw [fdiv_finite (isFinite_of_isZero hx) hy hz, magUnits_eq_zero.mpr hx, Nat.zero_mul,
    roundMag_zero (magUnits_pos_of_not_isZero hz)]

/-! ### Rounding once (40 R130) -/

theorem cast_unitsPerOne {e : Nat} (h : e = 1074) : (unitsPerOne : Int) = 2 ^ e := by
  rw [unitsPerOne_eq h]
  push_cast
  rfl

/-- What `roundMag` gives is the nearest pattern, or an infinity's where that lies past the largest finite one. -/
theorem exists_nearestEven (s : Bool) (num : Nat) {den : Nat} (h : 0 < den) :
    ∃ v, nearestEven num den v ∧ withSign s (roundMag num den) = withSign s (min v infBits) :=
  ⟨_, roundPattern_nearestEven num h, rfl⟩

theorem fadd_nearestEven {a b : F64} (ha : isFinite a = true) (hb : isFinite b = true) (h : units a + units b ≠ 0) :
    ∃ v, nearestEven (units a + units b).natAbs 1 v ∧
      fadd a b = withSign (decide (units a + units b < 0)) (min v infBits) := by
  rw [fadd_finite ha hb, if_neg h]
  exact exists_nearestEven _ _ Nat.one_pos

theorem fsub_nearestEven {a b : F64} (ha : isFinite a = true) (hb : isFinite b = true) (h : units a - units b ≠ 0) :
    ∃ v, nearestEven (units a - units b).natAbs 1 v ∧
      fsub a b = withSign (decide (units a - units b < 0)) (min v infBits) := by
  have hneg : units a + units (fneg b) = units a - units b := by rw [units_fneg, Int.sub_eq_add_neg]
  rw [← hneg] at h ⊢
  exact fadd_nearestEven ha (by simpa using hb) h

theorem fmul_nearestEven {a b : F64} (ha : isFinite a = true) (hb : isFinite b = true) :
    ∃ v, nearestEven (magUnits a * magUnits b) unitsPerOne v ∧ fmul a b = withSign (sign a != sign b) (min v infBits) := by
  rw [fmul_finite ha hb]
  exact exists_nearestEven _ _ unitsPerOne_pos

theorem fdiv_nearestEven {a b : F64} (ha : isFinite a = true) (hb : isFinite b = true) (hz : isZero b = false) :
    ∃ v, nearestEven (magUnits a * unitsPerOne) (magUnits b) v ∧
      fdiv a b = withSign (sign a != sign b) (min v infBits) := by
  rw [fdiv_finite ha hb hz]
  exact exists_nearestEven _ _ (magUnits_pos_of_not_isZero hz)

/-! ### Whole numbers (40 R137, R138) -/

theorem units_toF64 {i : Nat} (h : i < 2 ^ 53) : units (toF64 i) = (i : Int) * unitsPerOne := by
  obtain ⟨-, hsign, hmag⟩ := toF64_exact h
  rw [units_of_sign hsign, hmag, Nat.cast_mul]

theorem floorI_bounds (x : F64) : floorI x * unitsPerOne ≤ units x ∧ units x < (floorI x + 1) * unitsPerOne := by
  have hpos : (0 : Int) < unitsPerOne := by exact_mod_cast unitsPerOne_pos
  exact ⟨Int.ediv_mul_le _ hpos.ne', Int.lt_ediv_add_one_mul_self _ hpos⟩

/-- The ceiling is the floor of the negated value, negated. -/
theorem ceilI_eq_neg_floorI (x : F64) : ceilI x = -floorI (fneg x) := by rw [ceilI, floorI, units_fneg]

theorem ceilI_bounds (x : F64) : (ceilI x - 1) * unitsPerOne < units x ∧ units x ≤ ceilI x * unitsPerOne := by
  obtain ⟨hlo, hhi⟩ := floorI_bounds (fneg x)
  rw [units_fneg] at hlo hhi
  rw [ceilI_eq_neg_floorI]
  constructor <;> linarith

end Sys2Proof.Machine.Float64

namespace Sys2Proof.Machine.Elementary

open Sys2Proof.Machine.Float64

/-! ### The logarithm's special values (40 R133) -/

theorem flog_of_isNaN {x : F64} (h : isNaN x = true) : flog x = nan := if_pos h

theorem flog_of_negative {x : F64} (h : flt x 0 = true) : flog x = nan := by
  obtain ⟨hnan, hzero, hsign⟩ := class_of_flt_zero h
  simp [flog, hnan, hzero, hsign]

theorem flog_of_isZero {x : F64} (h : isZero x = true) : flog x = withSign true infBits := by
  simp [flog, h, not_isNaN_of_isFinite (isFinite_of_isZero h)]

/-! ### Twiddle factors of a fraction (40 R142) -/

/-- The enclosures, and the free value where they do not decide, are those of the fraction. -/
theorem cosNearest_double (k m : Nat) : cosNearest (2 * k) (2 * m) = cosNearest k m := by
  have hangle : ∀ p, 2 * (2 * k) * p / (2 * m) = 2 * k * p / m := fun p => by
    rw [Nat.mul_assoc, Nat.mul_div_mul_left _ _ Nat.two_pos]
  have hlowest : ∀ n, 2 * n / (2 * k.gcd m) = n / k.gcd m := fun n => Nat.mul_div_mul_left _ _ Nat.two_pos
  simp only [cosNearest, hangle, Nat.gcd_mul_left, hlowest]

theorem cosQuadrant_double (k m : Nat) : cosQuadrant (2 * k) (2 * m) = cosQuadrant k m := by
  have hzero : 2 * k = 0 ↔ k = 0 := by omega
  have hright : 4 * (2 * k) = 2 * m ↔ 4 * k = m := by omega
  simp only [cosQuadrant, hzero, hright, cosNearest_double]

/-- Doubling both parts of the fraction leaves the factor alone, where a quarter of the circle is a whole number. -/
theorem tw_double (k n : Nat) : tw (2 * k) (2 * (4 * n)) = tw k (4 * n) := by
  have hzero : 2 * k = 0 ↔ k = 0 := by omega
  have hquadrant : 4 * (2 * k) ≤ 2 * (4 * n) ↔ 4 * k ≤ 4 * n := by omega
  have hquarter : 2 * (4 * n) / 4 - 2 * k = 2 * (4 * n / 4 - k) := by omega
  have hhalf : 2 * (4 * n) / 2 - 2 * k = 2 * (4 * n / 2 - k) := by omega
  have hpast : 2 * k - 2 * (4 * n) / 4 = 2 * (k - 4 * n / 4) := by omega
  simp only [tw, hzero, hquadrant, hquarter, hhalf, hpast, cosQuadrant_double]

theorem tw_zero (m : Nat) : tw 0 m = (one, zero) := rfl

/-- A quarter of the circle. -/
theorem tw_quarter {k : Nat} (h : 0 < k) : tw k (4 * k) = (zero, fneg one) := by
  have hk : k ≠ 0 := by omega
  simp [tw, cosQuadrant, hk]

end Sys2Proof.Machine.Elementary
end

section
/-! The statements of 40_common.md, settled. -/

namespace Sys2Proof.Machine

open Sys2Proof.Machine.Float64 Sys2Proof.Safety

/-- Settles O32, by the kinds of step: an access is held or performed, the command step is taken, or only the port moves. -/
theorem stepKeepsInvariant : Obligations.StepKeepsInvariant := by
  unfold Obligations.StepKeepsInvariant
  intro s t h ht
  obtain ⟨a, rest, -, -, hd, hs⟩ | ⟨a, rest, -, -, -, hs⟩ | ⟨s', hn, hs⟩ | ⟨a, later, -, hheld, hs⟩ | ⟨a, rest, -, -, -, hs⟩ |
    ⟨rest, -, -, -, hs⟩ | ⟨-, -, -, hs⟩ := step_cases s <;> rw [hs] at ht
  · cases ht
    exact inv_withHeld (inv_withPort h rest) (by simpa [or_imp, forall_and, hd] using h.heldDmem)
  · exact inv_performAccess (inv_withPort h rest) ht
  · exact inv_commandStep (inv_engineNext h hn) ht
  · have hlater : ∀ b ∈ later, b.toDmem = true := fun b hb => h.heldDmem b (by simp [hheld, hb])
    exact inv_performAccess (inv_withHeld h hlater) ht
  · exact inv_performAccess (inv_withPort h rest) ht
  · cases ht
    exact inv_withPort h rest
  · cases ht
    exact h

/-- Settles O8: in IDLE the named write of `CMD` is `State.accept`. -/
theorem commandWordAccepted : Obligations.CommandWordAccepted := by
  unfold Obligations.CommandWordAccepted
  intro s w rest hp h
  have hw := step_named_write (r := .cmd) h
  rw [State.writeReg, State.writeCmd, State.withPort_phase, hp] at hw
  exact hw

/-- Settles O9: in BUSY the named write of `CMD` is `State.drop`. -/
theorem commandWordDropped : Obligations.CommandWordDropped := by
  unfold Obligations.CommandWordDropped
  intro s w rest hp h
  have hw := step_named_write (r := .cmd) h
  rw [State.writeReg, State.writeCmd, State.withPort_phase, hp] at hw
  exact hw

/-- Settles O25: the step is `State.fail`, and a failure that a command can report is a plain one. -/
theorem failedCommandReportsItsError : Obligations.FailedCommandReportsItsError := by
  unfold Obligations.FailedCommandReportsItsError
  intro i s t hs h ht
  obtain ⟨f, ⟨hcode, hresult⟩, rfl⟩ | ⟨rs, r, -, -, rfl⟩ := exec_next_cases h
  · refine ⟨f.code, f.info0, f.info1, f.result, hcode, hresult, rfl, ?_, errCodeWord_op (s.fail f), errCodeWord_high_zero (s.fail f)⟩
    rw [State.readReg, errCodeWord_code, State.fail_errCode]
    cases f.code <;> rfl
  · exact absurd (hs.symm.trans ht) (by decide)

/-- Settles O26: neither end of a command writes a host register, and a success stores in its written regions. -/
theorem commandWritesOnlyItsRegions : Obligations.CommandWritesOnlyItsRegions := by
  unfold Obligations.CommandWritesOnlyItsRegions
  intro i s t h
  have hbytes := fun x => exec_readByte_outside (x := x) h
  obtain ⟨f, -, rfl⟩ | ⟨rs, r, -, -, rfl⟩ := exec_next_cases h
  · exact ⟨by simp [sameControl], rfl, rfl, fun _ herr => absurd herr (by simp), hbytes⟩
  · exact ⟨by simp [sameControl, succeeded], rfl, rfl, fun _ _ => ⟨rfl, rfl, rfl, rfl⟩, hbytes⟩

/-- Settles O27: a failure stores nothing, and the checks a success has passed keep the `in` regions apart from the written ones. -/
theorem commandPreservesItsInputs : Obligations.CommandPreservesItsInputs := by
  unfold Obligations.CommandPreservesItsInputs
  intro i s t rs r x h hrs hr hrole hx hin
  obtain ⟨f, -, rfl⟩ | ⟨rs', res, hc, -, -⟩ := exec_next_cases h
  · rfl
  · obtain ⟨hrs', -, -⟩ := (checkCommand_ok_iff i s.snap.args rs').mp hc
    obtain rfl : rs = rs' := Except.ok.inj (hrs.symm.trans hrs')
    exact exec_readByte_outside h (not_mayWrite_of_input hc hin hr hrole hx)

/-- Settles O30: a BUSY step at the port stays BUSY unless it is a soft reset, and the command step sets `DONE`. -/
theorem busyEndsInDoneOrSoftReset : Obligations.BusyEndsInDoneOrSoftReset := by
  unfold Obligations.BusyEndsInDoneOrSoftReset
  intro s t hp h ht
  by_cases hr : softResetNext s
  · exact .inr hr
  · obtain ⟨hbusy, -, -⟩ | ⟨s', -, hc⟩ := step_busy_cases hp hr h
    · exact absurd (hbusy.symm.trans ht) (by decide)
    · exact .inl (commandStep_next_done hc).2

/-- Settles O31, by induction on the arrivals to come: a step in BUSY uses one up and stays BUSY, or leaves BUSY, or faults. -/
theorem busyAlwaysEnds : Obligations.BusyAlwaysEnds := by
  unfold Obligations.BusyAlwaysEnds
  intro s hp
  generalize hport : s.port = port
  induction port generalizing s with
  | nil => exact endsWithin_of_commandStep (s' := s) (step_engineNext ⟨hp, .inl ⟨hport, rfl⟩⟩) _
  | cons e rest ih =>
    cases e with
    | engineTurn =>
      exact endsWithin_of_commandStep (s' := s.withPort rest) (step_engineNext ⟨hp, .inr ⟨rest, hport, rfl⟩⟩) _
    | access a =>
      obtain ⟨t, ht, htport⟩ := step_busy_access hp hport
      cases hphase : t.phase with
      | idle => exact ⟨1, by omega, .inr ⟨t, run_next 0 ht, hphase⟩⟩
      | busy =>
        obtain ⟨n, hn, hrun⟩ := ih t hphase htport
        exact ⟨n + 1, by simpa using hn, by rwa [run_next n ht]⟩

/-- Settles O33: the regions before a bad one are skipped. -/
theorem firstBadRegionIsReported : Obligations.FirstBadRegionIsReported := by
  unfold Obligations.FirstBadRegionIsReported
  intro i s pre post r hrs
  refine ⟨commandRegions_index hrs, fun hpre => ⟨fun hrange => ?_, fun hrange halign => ?_⟩⟩
  · exact exec_of_bad_region hrs hpre (if_pos hrange)
  · exact exec_of_bad_region hrs hpre ((if_neg (Nat.not_lt.mpr hrange)).trans (if_pos halign))

/-- Settles O34: the pairs before the first forbidden one are skipped. -/
theorem firstOverlapIsReported : Obligations.FirstOverlapIsReported := by
  unfold Obligations.FirstOverlapIsReported
  refine ⟨fun i s pre mid post p q hrs hok hpre hmid hpq => ⟨?_, exec_of_forbidden_pair hrs hok hpre hmid hpq⟩,
    fun i a rs hrs hok hpairs => ?_⟩
  · obtain ⟨-, hrest, -⟩ := List.pairwise_append.mp (commandRegions_index hrs)
    exact List.rel_of_pairwise_cons hrest (by simp)
  · exact checkCommand_of_regions hrs hok (hpairs.imp fun h => (forbiddenPair_eq_false_iff ..).mpr h)

/-- Settles O53: every quantity a factor is computed from is one of the fraction `k/M`. -/
theorem twiddleDependsOnTheFraction : Obligations.TwiddleDependsOnTheFraction := by
  unfold Obligations.TwiddleDependsOnTheFraction
  have hquad : ∀ l, 2 ^ (l + 2) = 4 * 2 ^ l := fun l => by ring
  refine ⟨fun l => Elementary.tw_zero _, fun l => ?_, fun l k hk => ?_⟩
  · rw [hquad, Elementary.tw_quarter (Nat.two_pow_pos l)]
    rfl
  · cases l with
    | zero =>
      obtain rfl : k = 0 := by omega
      rfl
    | succ l => rw [pow_succ' 2 (l + 2), hquad l, Elementary.tw_double]

/-- Settles O57: an operation's result is a NaN only where it is the constant one, and a logarithm's class decides its branch. -/
theorem naNResultsAreCanonical : Obligations.NaNResultsAreCanonical := by
  unfold Obligations.NaNResultsAreCanonical
  refine ⟨?_, fun x h => h.elim Elementary.flog_of_isNaN Elementary.flog_of_negative, Elementary.flog_of_isZero (by decide),
    Elementary.flog_of_isZero (by decide), by decide, by decide, fun x n _ => getLsbD_fneg x n⟩
  have hsub : ∀ {a b : F64}, isNaN a = true ∨ isNaN b = true → fsub a b = nan := fun h => fadd_of_isNaN (by simpa using h)
  simp only [List.forall_mem_cons]
  exact ⟨fun a b => ⟨fadd_of_isNaN, nanCanonical_fadd a b⟩, fun a b => ⟨hsub, nanCanonical_fadd a (fneg b)⟩,
    fun a b => ⟨fmul_of_isNaN, nanCanonical_fmul a b⟩, fun a b => ⟨fdiv_of_isNaN, nanCanonical_fdiv a b⟩, nofun⟩

/-- Settles O58: each operation is `roundMag` of the exact result, and `roundMag` gives the nearest pattern. -/
theorem finiteOperationsRoundToNearestEven : Obligations.FiniteOperationsRoundToNearestEven := by
  unfold Obligations.FiniteOperationsRoundToNearestEven
  rw [← unitsPerOne_eq rfl, ← cast_unitsPerOne rfl]
  refine ⟨fun i => ⟨exists_nearestEven false _ Nat.one_pos, fun hi => ⟨(toF64_exact hi).1, units_toF64 hi⟩⟩,
    fun x hx => ⟨floorI_bounds x, ceilI_bounds x, fadd_fneg_self hx⟩, fun a b ha hb => ?_⟩
  exact ⟨fadd_nearestEven ha hb, fsub_nearestEven ha hb, fmul_nearestEven ha hb, fdiv_nearestEven ha hb⟩

/-- Settles O60: the order of the patterns is the order of the values. -/
theorem comparisonsAreOrdered : Obligations.ComparisonsAreOrdered := by
  unfold Obligations.ComparisonsAreOrdered
  intro a b
  refine ⟨fun h => ?_, fun ha hb => ⟨flt_iff ha hb, fle_iff ha hb⟩, by decide, isFinite_iff a, flt_infinities⟩
  obtain h | h := h <;> simp [flt, fle, h]

/-- Settles O24: the engine's turn is the command step, which runs the decoded command. -/
theorem stepRunsTheDecodedCommand : Obligations.StepRunsTheDecodedCommand := by
  unfold Obligations.StepRunsTheDecodedCommand
  have hstep : ∀ {s s' : State} {i : Instr}, engineNext s s' → decode s.snap.cmd = .ok i → step s = exec i s' := by
    intro s s' i hn hd
    rw [step_engineNext hn, commandStep, engineNext_snap hn, hd]
  refine ⟨fun s s' i => hstep, fun s i => ?_, fun s i rest hp h => ?_⟩
  · have hword : tableWord 64 (encode i).toNat = encode i := by
      rw [tableWord, Nat.mod_eq_of_lt (encode i).isLt, BitVec.ofNat_toNat, BitVec.setWidth_eq]
    rw [State.withFetchWord, hword]
    exact hstep (s' := s.accept (encode i)) ⟨rfl, .inr ⟨s.port, rfl, rfl⟩⟩ (decode_encode i)
  · exact ⟨_, commandWordAccepted s (encode i) _ hp h, rfl, hstep ⟨rfl, .inr ⟨rest, rfl, rfl⟩⟩ (decode_encode i)⟩

/-- Settles O59: the class of the operands decides the branch of the operation. -/
theorem specialOperandsGiveIeeeResults : Obligations.SpecialOperandsGiveIeeeResults := by
  unfold Obligations.SpecialOperandsGiveIeeeResults
  refine ⟨fun x => fadd_fneg_self, by decide, by decide, fun x hx => ?_, fun x y => fdiv_infs,
    fun x y hx hy => ⟨fdiv_zeros hx hy, fmul_zeros hx hy⟩, fun x y => fdiv_by_zero, fun x y => fdiv_by_inf, fun x y => fdiv_of_zero⟩
  have hsub := fadd_fneg_self_of_isInf hx
  exact ⟨hsub, hsub, fmul_zero_inf (.inl ⟨by decide, hx⟩), fmul_zero_inf (.inr ⟨hx, by decide⟩)⟩

end Sys2Proof.Machine
end

section
/-! SUPPORT. The three transform commands as one: their regions, their checks, the sequence each stores, and what a success leaves in
memory (41 R170 to R175). -/

namespace Sys2Proof.Machine

open Sys2Proof.Machine.Float64 Sys2Proof.Safety

/-- The commands of the transform engine (41 R170 to R172). -/
def transforms : List Instr := [.fft, .fftR, .ifft]

/-- The region list of a transform whose length passes: `FFT.R` reads reals, the others complex values (41 R170 to R172). -/
def transformRegions (i : Instr) (a : Args) : List Region :=
  [⟨0, a.src0.toNat, if i = .fftR then 8 * a.len0.toNat else 16 * a.len0.toNat, 8, .input⟩,
   ⟨2, a.dst0.toNat, 16 * a.len0.toNat, 8, .output⟩]

/-- The sequence a transform stores, `none` where it would read an unwritten byte (41 R170 to R172). -/
def transformOutput (i : Instr) (a : Args) (m : Mem) : Option (List Cplx) :=
  match i with
  | .fft => (loadComplexes m a.src0.toNat a.len0.toNat).map fftCore
  | .fftR => (loadReals m a.src0.toNat a.len0.toNat).map (fun xs => fftCore (xs.map ofReal))
  | .ifft => (loadComplexes m a.src0.toNat a.len0.toNat).map (ifftCore a.len0.toNat)
  | _ => none

/-! ### Lengths -/

theorem checkLen_of_invalid {n : Word} (h : n.toNat = 0 ∨ n.toNat &&& (n.toNat - 1) ≠ 0 ∨ 2 ^ 20 < n.toNat) :
    checkLen n = some { code := .invalidLength, info0 := offLen0, info1 := n } := if_pos h

theorem checkLen_of_valid {n : Word} (h : ¬(n.toNat = 0 ∨ n.toNat &&& (n.toNat - 1) ≠ 0 ∨ 2 ^ 20 < n.toNat)) :
    checkLen n = none := if_neg h

/-- The lengths that pass the tests of 41 R175 are the powers of two up to `2^20`. -/
theorem validLength_iff (n : Word) :
    ¬(n.toNat = 0 ∨ n.toNat &&& (n.toNat - 1) ≠ 0 ∨ 2 ^ 20 < n.toNat) ↔ ∃ l, l ≤ 20 ∧ n.toNat = 2 ^ l := by
  refine Iff.trans ⟨checkLen_of_valid, fun hnone hbad => ?_⟩ (checkLen_none_iff n)
  exact nomatch hnone.symm.trans (checkLen_of_invalid hbad)

/-! ### Checks -/

section Transform

variable {i : Instr} (hi : i ∈ transforms) {a : Args}

include hi

theorem commandRegions_transform (h : checkLen a.len0 = none) : commandRegions i a = .ok (transformRegions i a) := by
  fin_cases hi <;> simp [commandRegions, fftRegions, fftRRegions, ifftRegions, h, transformRegions]

theorem commandRegions_transform_error {f : Failure} (h : checkLen a.len0 = some f) : commandRegions i a = .error f := by
  fin_cases hi <;> simp [commandRegions, fftRegions, fftRRegions, ifftRegions, h]

/-- A transform that passes its checks has a legal length. -/
theorem length_of_checkCommand_transform {rs : List Region} (h : checkCommand i a = .ok rs) :
    ∃ l, l ≤ 20 ∧ a.len0.toNat = 2 ^ l := by
  obtain ⟨hrs, -⟩ := (checkCommand_ok_iff i a rs).mp h
  refine (checkLen_none_iff a.len0).mp (Option.eq_none_iff_forall_ne_some.mpr fun f hf => ?_)
  exact nomatch (commandRegions_transform_error hi hf).symm.trans hrs

/-- A transform of a legal length passes its checks when its regions fit and are disjoint, or are the same and it may work in
place (41 R174). -/
theorem checkCommand_transform {l n : Nat} (hl : l ≤ 20) (hN : a.len0.toNat = 2 ^ l)
    (hn : n = if i = .fftR then 8 * 2 ^ l else 16 * 2 ^ l) (hsrc : fits a.src0.toNat n 8)
    (hdst : fits a.dst0.toNat (16 * 2 ^ l) 8)
    (hoverlap : i ≠ .fftR ∧ a.dst0 = a.src0 ∨ disjoint a.src0.toNat n a.dst0.toNat (16 * 2 ^ l)) :
    checkCommand i a = .ok (transformRegions i a) := by
  have hregions := commandRegions_transform hi ((checkLen_none_iff a.len0).mpr ⟨l, hl, hN⟩)
  rw [transformRegions, hN, ← hn] at hregions ⊢
  refine checkCommand_of_regions hregions (by simp [regionOk, hsrc, hdst]) (List.pairwise_pair.mpr ?_)
  obtain ⟨hreal, hsame⟩ | hdisjoint := hoverlap
  · have hinPlace : i = .fft ∨ i = .ifft := by fin_cases hi <;> simp at hreal ⊢
    obtain rfl | rfl := hinPlace <;> simp [forbiddenPair, inPlaceAllowed, hsame]
  · exact forbiddenPair_of_disjoint i hdisjoint

/-! ### The output -/

/-- A transform's computation is one block, its output at `DST0`. -/
theorem computeOf_transform (m : Mem) :
    computeOf i a m = (transformOutput i a m).map
      (fun ys => .ok { blocks := [(a.dst0.toNat, complexBytes ys)], count := a.len0.toNat }) := by
  fin_cases hi <;> simp only [computeOf, fftCompute, fftRCompute, ifftCompute, transformOutput]
  · cases loadComplexes m a.src0.toNat a.len0.toNat <;> rfl
  · cases loadReals m a.src0.toNat a.len0.toNat <;> rfl
  · cases loadComplexes m a.src0.toNat a.len0.toNat <;> rfl

/-- A transform of `2^l` values stores as many. -/
theorem transformOutput_length {m : Mem} {ys : List Cplx} {l : Nat} (hN : a.len0.toNat = 2 ^ l)
    (h : transformOutput i a m = some ys) : ys.length = 2 ^ l := by
  fin_cases hi <;> obtain ⟨xs, hxs, rfl⟩ := Option.map_eq_some_iff.mp h
  · exact fftCore_length xs ((loadComplexes_length hxs).trans hN)
  · exact fftCore_map_length ofReal xs rfl ((loadReals_length hxs).trans hN)
  · exact ifftCore_length _ xs ((loadComplexes_length hxs).trans hN)

/-- A transform that passes its checks and whose input is written stores its output and completes (40 R129). -/
theorem exec_transform {s : State} {rs : List Region} {ys : List Cplx} (hc : checkCommand i s.snap.args = .ok rs)
    (hys : transformOutput i s.snap.args s.dmem = some ys) :
    exec i s = .next (succeeded s (Mem.writeBytes s.dmem s.snap.args.dst0.toNat (complexBytes ys)) s.snap.args.len0.toNat) := by
  have hr := computeOf_transform hi (a := s.snap.args) s.dmem
  rw [hys, Option.map_some] at hr
  exact exec_of_results hc hr

/-- A transform that answers a state without an error has stored its output, of as many values as its length (40 R129). -/
theorem exec_transform_success {s t : State} (h : exec i s = .next t) (ht : t.err = false) :
    ∃ ys, transformOutput i s.snap.args s.dmem = some ys ∧ ys.length = s.snap.args.len0.toNat ∧
      t = succeeded s (Mem.writeBytes s.dmem s.snap.args.dst0.toNat (complexBytes ys)) s.snap.args.len0.toNat := by
  obtain ⟨f, -, rfl⟩ | ⟨rs, r, hc, hr, rfl⟩ := exec_next_cases h
  · exact absurd ht (by simp)
  · obtain ⟨l, -, hN⟩ := length_of_checkCommand_transform hi hc
    rw [computeOf_transform hi] at hr
    obtain ⟨ys, hys, hres⟩ := Option.map_eq_some_iff.mp hr
    cases hres
    exact ⟨ys, hys, (transformOutput_length hi hN hys).trans hN.symm, rfl⟩

end Transform

/-- The inverse transform by index (41 R172). -/
theorem ifftCore_eq_map_range {l : Nat} (n : Nat) {xs : List Cplx} (h : xs.length = 2 ^ l) :
    ifftCore n xs = (List.range (2 ^ l)).map
      (fun k => cscale (conj (complexEntry (fftCore (xs.map conj)) k)) (fdiv one (toF64 n))) := by
  have hlen : (fftCore (xs.map conj)).length = 2 ^ l := fftCore_map_length conj xs rfl h
  have hentries := complexList_eq_map_entry (fftCore (xs.map conj))
  rw [hlen] at hentries
  rw [ifftCore]
  conv_lhs => rw [hentries]
  rw [List.map_map]
  rfl

/-- The byte `k` above the start of a store. -/
theorem readByte_writeBytes_add (m : Mem) (b : Nat) {bs : List Byte} {k : Nat} (h : k < bs.length) :
    Mem.readByte (Mem.writeBytes m b bs) (b + k) = bs[k]? := by
  rw [readByte_writeBytes, if_pos (by omega), Nat.add_sub_cancel_left]

end Sys2Proof.Machine
end

section
/-! SUPPORT. The iterative transform (41 R176), one level at a time: its last pass combines the iterative transforms of the even and of
the odd entries, as the recursion does. -/

namespace Sys2Proof.Machine

open Sys2Proof.Machine.Float64 Sys2Proof.Safety

theorem evens_length_two_pow {α : Type} {l : Nat} {xs : List α} (h : xs.length = 2 ^ (l + 1)) : (evens xs).length = 2 ^ l := by
  rw [evens_length, h, pow_succ]
  omega

theorem odds_length_two_pow {α : Type} {l : Nat} {xs : List α} (h : xs.length = 2 ^ (l + 1)) : (odds xs).length = 2 ^ l := by
  rw [odds_length, h, pow_succ]
  omega

theorem complexEntry_evens (xs : List Cplx) (j : Nat) : complexEntry (evens xs) j = complexEntry xs (2 * j) := by
  simp [complexEntry, List.getD, evens_getElem?]

theorem complexEntry_odds (xs : List Cplx) (j : Nat) : complexEntry (odds xs) j = complexEntry xs (2 * j + 1) := by
  simp [complexEntry, List.getD, odds_getElem?]

/-- One butterfly of the first block of a pass: both outputs, from the old values. -/
theorem butterflyPass_first_block (l : Nat) (f : Nat → Cplx) {k : Nat} (hk : k < 2 ^ l) :
    butterflyPass (2 ^ (l + 1)) f k = cadd (f k) (cmul (Elementary.tw k (2 ^ (l + 1))) (f (k + 2 ^ l))) ∧
      butterflyPass (2 ^ (l + 1)) f (k + 2 ^ l) =
        csub (f k) (cmul (Elementary.tw k (2 ^ (l + 1))) (f (k + 2 ^ l))) := by
  have hdouble : 2 ^ (l + 1) = 2 * 2 ^ l := by rw [pow_succ, Nat.mul_comm]
  have hhalf : 2 ^ (l + 1) / 2 = 2 ^ l := by omega
  simp only [butterflyPass, hhalf]
  constructor
  · rw [Nat.mod_eq_of_lt (by omega), if_pos hk]
  · rw [Nat.mod_eq_of_lt (by omega), if_neg (by omega), Nat.add_sub_cancel]

/-- The passes before the last leave in the lower half the iterative transform of the entries of even index. -/
theorem butterflyPasses_reversed_low (l : Nat) (x : Nat → Cplx) {k : Nat} (hk : k < 2 ^ l) :
    butterflyPasses l (fun i => x (reverseBits (l + 1) i)) k = iterativeTransform l (fun j => x (2 * j)) k := by
  refine butterflyPasses_congr l _ _ 0 (fun i hi => ?_) k (Nat.div_eq_of_lt hk)
  rw [reverseBits_low l i (Nat.lt_of_div_eq_zero (Nat.two_pow_pos l) hi)]

/-- The passes before the last leave in the upper half the iterative transform of the entries of odd index. -/
theorem butterflyPasses_reversed_high (l : Nat) (x : Nat → Cplx) {k : Nat} (hk : k < 2 ^ l) :
    butterflyPasses l (fun i => x (reverseBits (l + 1) i)) (k + 2 ^ l) =
      iterativeTransform l (fun j => x (2 * j + 1)) k := by
  have hshift := butterflyPasses_shift l (fun i => x (reverseBits (l + 1) i)) 1 k
  rw [Nat.one_mul] at hshift
  rw [← hshift]
  refine butterflyPasses_congr l _ _ 0 (fun i hi => ?_) k (Nat.div_eq_of_lt hk)
  rw [reverseBits_high l i (Nat.lt_of_div_eq_zero (Nat.two_pow_pos l) hi)]

/-- Both outputs of butterfly `k` of the last pass (41 R176). -/
theorem iterativeTransform_succ (l : Nat) (x : Nat → Cplx) {k : Nat} (hk : k < 2 ^ l) :
    iterativeTransform (l + 1) x k =
        cadd (iterativeTransform l (fun j => x (2 * j)) k)
          (cmul (Elementary.tw k (2 ^ (l + 1))) (iterativeTransform l (fun j => x (2 * j + 1)) k)) ∧
      iterativeTransform (l + 1) x (k + 2 ^ l) =
        csub (iterativeTransform l (fun j => x (2 * j)) k)
          (cmul (Elementary.tw k (2 ^ (l + 1))) (iterativeTransform l (fun j => x (2 * j + 1)) k)) := by
  rw [← butterflyPasses_reversed_low l x hk, ← butterflyPasses_reversed_high l x hk]
  exact butterflyPass_first_block l _ hk

/-- The base case of the recursion (41 R173). -/
theorem fftCore_singleton (x : Cplx) : fftCore [x] = [x] := by
  rw [fftCore, List.length_singleton, ← Nat.pow_zero 2, Nat.log2_two_pow, fftLevels]

/-- Both outputs of butterfly `k` of the recursion (41 R173). -/
theorem fftCore_succ_entry {l : Nat} {xs : List Cplx} (h : xs.length = 2 ^ (l + 1)) {k : Nat} (hk : k < 2 ^ l) :
    complexEntry (fftCore xs) k =
        cadd (complexEntry (fftCore (evens xs)) k)
          (cmul (Elementary.tw k (2 ^ (l + 1))) (complexEntry (fftCore (odds xs)) k)) ∧
      complexEntry (fftCore xs) (k + 2 ^ l) =
        csub (complexEntry (fftCore (evens xs)) k)
          (cmul (Elementary.tw k (2 ^ (l + 1))) (complexEntry (fftCore (odds xs)) k)) := by
  rw [fftCore_succ h]
  exact combine_entry (fftCore_length _ (evens_length_two_pow h)) (fftCore_length _ (odds_length_two_pow h)) hk

end Sys2Proof.Machine
end

section
/-! The statements of 41_transform.md, settled. -/

namespace Sys2Proof.Machine

open Sys2Proof.Machine.Float64 Sys2Proof.Safety

/-- Settles O35: the length is the one parameter check of a transform, and `commandRegions` lists the regions once it passes. -/
theorem transformLengthIsChecked : Obligations.TransformLengthIsChecked := by
  unfold Obligations.TransformLengthIsChecked
  intro i hi s
  refine ⟨fun hbad => ?_, validLength_iff s.snap.args.len0, fun hvalid => ?_⟩
  · have hregions := commandRegions_transform_error hi (checkLen_of_invalid hbad)
    exact exec_of_check_error (by rw [checkCommand, hregions])
  · exact commandRegions_transform hi (checkLen_of_valid hvalid)

/-- Settles O40: with these operands `FFT` passes its checks, and its output is `fftCore` of what it loads. -/
theorem fftStoresTheTransform : Obligations.FftStoresTheTransform := by
  unfold Obligations.FftStoresTheTransform
  intro s l xs a hl hN hsrc hdst hoverlap hxs
  have hc := checkCommand_transform (i := .fft) (by decide) hl hN rfl hsrc hdst (hoverlap.imp_left fun h => ⟨by decide, h⟩)
  rw [← hN] at hxs ⊢
  have hout : transformOutput .fft a s.dmem = some (fftCore xs) := by rw [transformOutput, hxs]; rfl
  exact ⟨exec_transform (by decide) hc hout, (transformOutput_length (by decide) hN hout).trans hN.symm⟩

/-- Settles O41: with these operands `FFT.R` passes its checks, and its output is `fftCore` of the samples made complex. -/
theorem realFftStoresTheTransform : Obligations.RealFftStoresTheTransform := by
  unfold Obligations.RealFftStoresTheTransform
  intro s l xs a hl hN hsrc hdst hdisjoint hxs
  have hc := checkCommand_transform (i := .fftR) (by decide) hl hN rfl hsrc hdst (.inr hdisjoint)
  rw [← hN] at hxs ⊢
  exact exec_transform (by decide) hc (by rw [transformOutput, hxs]; rfl)

/-- Settles O42: with these operands `IFFT` passes its checks, and its output is `ifftCore` of what it loads, entry by entry. -/
theorem ifftStoresTheInverse : Obligations.IfftStoresTheInverse := by
  unfold Obligations.IfftStoresTheInverse
  intro s l xs a y ys hl hN hsrc hdst hoverlap hxs
  have hc := checkCommand_transform (i := .ifft) (by decide) hl hN rfl hsrc hdst (hoverlap.imp_left fun h => ⟨by decide, h⟩)
  have hys : ifftCore (2 ^ l) xs = ys := ifftCore_eq_map_range _ (loadComplexes_length hxs)
  rw [← hN] at hxs hys ⊢
  exact exec_transform (by decide) hc (by rw [transformOutput, hxs, ← hys]; rfl)

/-- Settles O50: one level of the recursion is a combine of the transforms of the even and of the odd entries. -/
theorem fftCoreIsTheButterflyRecursion : Obligations.FftCoreIsTheButterflyRecursion := by
  unfold Obligations.FftCoreIsTheButterflyRecursion
  refine ⟨fftCore_singleton, fun l k xs h hk => ?_⟩
  rw [← evens_eq_map h, ← odds_eq_map h]
  exact ⟨fftCore_length xs h, fftCore_succ_entry h hk⟩

/-- Settles O51, by induction on the size: the last pass and the recursion combine the same two half transforms. -/
theorem iterativeTransformGivesTheSameBits : Obligations.IterativeTransformGivesTheSameBits := by
  unfold Obligations.IterativeTransformGivesTheSameBits
  intro l
  induction l with
  | zero =>
    intro i xs h hi
    obtain ⟨x, rfl⟩ := List.length_eq_one_iff.mp h
    obtain rfl : i = 0 := by omega
    simp [fftCore_singleton, iterativeTransform, butterflyPasses, reverseBits]
  | succ l ih =>
    intro i xs h hi
    have heven (k : Nat) (hk : k < 2 ^ l) := ih k (evens xs) (evens_length_two_pow h) hk
    have hodd (k : Nat) (hk : k < 2 ^ l) := ih k (odds xs) (odds_length_two_pow h) hk
    simp only [funext (complexEntry_evens xs), funext (complexEntry_odds xs)] at heven hodd
    rcases Nat.lt_or_ge i (2 ^ l) with hlow | hhigh
    · rw [(fftCore_succ_entry h hlow).1, (iterativeTransform_succ l _ hlow).1, heven i hlow, hodd i hlow]
    · obtain ⟨k, rfl⟩ := Nat.exists_eq_add_of_le' hhigh
      have hk : k < 2 ^ l := by rw [pow_succ] at hi; omega
      rw [(fftCore_succ_entry h hk).2, (iterativeTransform_succ l _ hk).2, heven k hk, hodd k hk]

/-- Settles O52: the output does not depend on `DST0`, so both commands store the same bytes. -/
theorem inPlaceTransformGivesTheSameOutput : Obligations.InPlaceTransformGivesTheSameOutput := by
  unfold Obligations.InPlaceTransformGivesTheSameOutput
  intro i hi s t₁ t₂ d a N inPlace apart _ _ h₁ ht₁ h₂ ht₂
  have htransform : i ∈ transforms := by fin_cases hi <;> decide
  obtain ⟨ys, hys, hlen, rfl⟩ := exec_transform_success htransform h₁ ht₁
  obtain ⟨zs, hzs, -, rfl⟩ := exec_transform_success htransform h₂ ht₂
  have hsame : transformOutput i inPlace.snap.args s.dmem = transformOutput i apart.snap.args s.dmem := by
    fin_cases hi <;> rfl
  obtain rfl : ys = zs := Option.some.inj (hys.symm.trans (hsame.trans hzs))
  refine ⟨fun x hx => ?_, rfl⟩
  have hin : x < (complexBytes ys).length := by rw [complexBytes_length, hlen]; exact hx
  exact (readByte_writeBytes_add s.dmem a.src0.toNat hin).trans (readByte_writeBytes_add s.dmem d.toNat hin).symm

end Sys2Proof.Machine
end

section
/-! SUPPORT. The region lists of `ACORR`, `LEVDUR` and `IIRSYN` when their parameters pass (42 R190, 43 R200, R210), and the checks and
the computation of `ACORR`. -/

namespace Sys2Proof.Machine

open Sys2Proof.Machine.Float64 Sys2Proof.Safety

/-! ### Parameter checks -/

/-- A command whose parameters fail a check fails with that error (40 R123). -/
theorem exec_of_parameter_error {i : Instr} {s : State} {f : Failure} (h : commandRegions i s.snap.args = .error f) :
    exec i s = .next (s.fail f) :=
  exec_of_check_error (by rw [checkCommand, h])

section Regions

variable {a : Args}

theorem commandRegions_acorr (hn : a.len0.toNat ≠ 0) :
    commandRegions .acorr a =
      .ok [⟨0, a.src0.toNat, 8 * a.len0.toNat, 8, .input⟩, ⟨2, a.dst0.toNat, 8 * a.len0.toNat, 8, .output⟩] :=
  if_neg hn

theorem commandRegions_levdur (hp : a.len1.toNat ≤ 64) (hlong : a.len1.toNat + 1 ≤ a.len0.toNat) :
    commandRegions .levdur a =
      .ok [⟨0, a.src0.toNat, 8 * (a.len1.toNat + 1), 8, .input⟩, ⟨2, a.dst0.toNat, 8 * (a.len1.toNat + 1), 8, .output⟩,
           ⟨3, a.dst1.toNat, 8 * (a.len1.toNat + 1), 8, .output⟩] :=
  (if_neg (Nat.ne_zero_of_lt hlong)).trans ((if_neg hp.not_gt).trans (if_neg hlong.not_gt))

theorem commandRegions_iirsyn (hn : a.len0.toNat ≠ 0) (hp : a.len1.toNat ≤ 64) :
    commandRegions .iirsyn a =
      .ok [⟨0, a.src0.toNat, 8 * a.len0.toNat, 8, .input⟩, ⟨1, a.src1.toNat, 8 * (a.len1.toNat + 1), 8, .input⟩,
           ⟨2, a.dst0.toNat, 8 * a.len0.toNat, 8, .output⟩] :=
  (if_neg hn).trans (if_neg hp.not_gt)

/-! ### The autocorrelation -/

/-- `ACORR` passes its checks when its two regions fit and are disjoint (42 R190). -/
theorem checkCommand_acorr (hn : a.len0.toNat ≠ 0) (hsrc : fits a.src0.toNat (8 * a.len0.toNat) 8)
    (hdst : fits a.dst0.toNat (8 * a.len0.toNat) 8)
    (hdisjoint : disjoint a.src0.toNat (8 * a.len0.toNat) a.dst0.toNat (8 * a.len0.toNat)) :
    checkCommand .acorr a =
      .ok [⟨0, a.src0.toNat, 8 * a.len0.toNat, 8, .input⟩, ⟨2, a.dst0.toNat, 8 * a.len0.toNat, 8, .output⟩] :=
  checkCommand_of_regions (commandRegions_acorr hn) (by simp [regionOk, hsrc, hdst])
    (List.pairwise_pair.mpr (forbiddenPair_of_disjoint .acorr hdisjoint))

/-- `ACORR` on written samples computes one lag sum for each of them, to be stored at `DST0` (42 R190). -/
theorem computeOf_acorr {m : Mem} {xs : List F64} (hxs : loadReals m a.src0.toNat a.len0.toNat = some xs) :
    computeOf .acorr a m =
      some (.ok { blocks := [(a.dst0.toNat, realBytes ((List.range a.len0.toNat).map (lagSum xs)))],
                  count := a.len0.toNat }) := by
  simp only [computeOf, acorrCompute, hxs, autocorrelate_eq, loadReals_length hxs]

end Regions

end Sys2Proof.Machine
end

section
/-! The statements of 42_autocorrelation.md, settled. -/

namespace Sys2Proof.Machine

open Sys2Proof.Machine.Float64 Sys2Proof.Safety

/-- Settles O36, by the branches of each command's checks: a failed one is the command's error, and the last branch is the regions. -/
theorem signalAndOrderAreChecked : Obligations.SignalAndOrderAreChecked := by
  unfold Obligations.SignalAndOrderAreChecked
  intro s a n p
  refine ⟨?acorr, ?levdur, ?iirsyn⟩
  case acorr =>
    split_ifs with hn
    · exact exec_of_parameter_error (f := emptyInput offLen0) (if_pos hn)
    · exact commandRegions_acorr hn
  case levdur =>
    split_ifs with hn hp hshort
    · exact exec_of_parameter_error (f := emptyInput offLen0) (if_pos hn)
    · exact exec_of_parameter_error (f := invalidRange offLen1 a.len1) ((if_neg hn).trans (if_pos hp))
    · exact exec_of_parameter_error (f := invalidRange offLen0 a.len0)
        ((if_neg hn).trans ((if_neg hp).trans (if_pos hshort)))
    · exact commandRegions_levdur (Nat.not_lt.mp hp) (Nat.not_lt.mp hshort)
  case iirsyn =>
    split_ifs with hn hp
    · exact exec_of_parameter_error (f := emptyInput offLen0) (if_pos hn)
    · exact exec_of_parameter_error (f := invalidRange offLen1 a.len1) ((if_neg hn).trans (if_pos hp))
    · exact commandRegions_iirsyn hn (Nat.not_lt.mp hp)

/-- Settles O43: with these operands `ACORR` passes its checks, and its results are the lag sums by index. -/
theorem acorrStoresEveryLagSum : Obligations.AcorrStoresEveryLagSum := by
  unfold Obligations.AcorrStoresEveryLagSum
  intro s xs a n hn hsrc hdst hdisjoint hxs
  exact exec_of_results (checkCommand_acorr hn hsrc hdst hdisjoint) (computeOf_acorr hxs)

end Sys2Proof.Machine
end

section
/-! SUPPORT. The checks and the computations of `LEVDUR` and `IIRSYN`, and when the Levinson-Durbin recursion succeeds and where it breaks
down (43 R200 to R211). -/

namespace Sys2Proof.Machine

open Sys2Proof.Machine.Float64 Sys2Proof.Safety

/-! ### The energy checks (43 R202) -/

theorem strictEnergyOk_eq_false_iff (e : F64) : strictEnergyOk e = false ↔ isFinite e = false ∨ fle e zero = true := by
  rw [strictEnergyOk, Bool.and_eq_false_iff, Bool.not_eq_false']

theorem finalEnergyOk_iff (e : F64) : finalEnergyOk e = true ↔ isFinite e = true ∧ flt e zero = false := by
  rw [finalEnergyOk, Bool.and_eq_true, Bool.not_eq_true']

theorem finalEnergyOk_eq_false_iff (e : F64) : finalEnergyOk e = false ↔ isFinite e = false ∨ flt e zero = true := by
  rw [finalEnergyOk, Bool.and_eq_false_iff, Bool.not_eq_false']

/-- An energy that passes the final check is at least zero. -/
theorem zero_fle_of_finalEnergyOk {e : F64} (h : finalEnergyOk e = true) : fle zero e = true := by
  obtain ⟨hfinite, hneg⟩ := (finalEnergyOk_iff e).mp h
  have hzero : isNaN zero = false := by decide
  have hnan := not_isNaN_of_isFinite hfinite
  exact (fle_iff hzero hnan).mpr (not_lt.mp fun hlt => Bool.false_ne_true (hneg.symm.trans ((flt_iff hnan hzero).mpr hlt)))

/-! ### The recursion by index -/

section Recursion

variable {R : List F64} {p : Nat} (hR : p + 1 ≤ R.length)

include hR

/-- While the strict checks pass below order `p`, the final check decides (43 R202). -/
theorem levinsonDurbin_of_strict (hs : ∀ j, j < p → strictEnergyOk (lpcEnergy R j) = true) :
    levinsonDurbin R p =
      if finalEnergyOk (lpcEnergy R p) then
        .ok ((List.range (p + 1)).map (lpcCoefficient R p), (List.range (p + 1)).map (lpcEnergy R))
      else .error (breakdown p (lpcEnergy R p)) := by
  have h := levinsonSteps_ok (R := R) (n := p) (m := 0) (by omega) (fun j _ hj => hs j (by omega))
  simp only [Nat.zero_add] at h
  exact h

/-- Energies that pass their checks make the recursion succeed. -/
theorem levinsonDurbin_of_energiesOk (h : energiesOk R p) :
    levinsonDurbin R p =
      .ok ((List.range (p + 1)).map (lpcCoefficient R p), (List.range (p + 1)).map (lpcEnergy R)) := by
  obtain ⟨hstrict, hfinal⟩ := h
  rw [levinsonDurbin_of_strict hR fun j hj => (strictEnergyOk_iff _).mpr (hstrict j hj),
    if_pos ((finalEnergyOk_iff _).mpr hfinal)]

/-- The recursion breaks down at the lowest order whose energy fails its check, strict below order `p` and final at it. -/
theorem levinsonDurbin_breakdown {j : Nat} (hj : j ≤ p) (hs : ∀ h, h < j → strictEnergyOk (lpcEnergy R h) = true)
    (hfail : isFinite (lpcEnergy R j) = false ∨
      (if j < p then fle (lpcEnergy R j) zero else flt (lpcEnergy R j) zero) = true) :
    levinsonDurbin R p = .error (breakdown j (lpcEnergy R j)) := by
  obtain hlt | rfl := Nat.lt_or_eq_of_le hj
  · rw [if_pos hlt] at hfail
    exact levinsonSteps_strict_breakdown (m := 0) (by omega) (Nat.zero_le j) (by omega) (fun h _ hh => hs h hh)
      ((strictEnergyOk_eq_false_iff _).mpr hfail)
  · rw [if_neg (Nat.lt_irrefl j)] at hfail
    rw [levinsonDurbin_of_strict hR hs, (finalEnergyOk_eq_false_iff _).mpr hfail, if_neg Bool.false_ne_true]

end Recursion

/-- The energies of a recursion that succeeds: as many as the orders, above zero below the requested order, not below zero at it, and
none above the one before it (43 R204). -/
theorem levinsonDurbin_energies {R cs es : List F64} {p : Nat} (h : levinsonDurbin R p = .ok (cs, es)) :
    (∀ j, j < p → flt zero (entry es j) = true) ∧ fle zero (entry es p) = true ∧
      ∀ m, m < p → fle (entry es (m + 1)) (entry es m) = true := by
  obtain ⟨_, rfl, -, -, hstrict, hfinal, hnext⟩ := levinsonSteps_energies h
  have hfinite (j : Nat) (hj : j ≤ p) : isFinite (entry es j) = true := by
    obtain hlt | rfl := Nat.lt_or_eq_of_le hj
    · exact ((strictEnergyOk_iff _).mp (hstrict j hlt)).1
    · exact ((finalEnergyOk_iff _).mp hfinal).1
  refine ⟨fun j hj => ((strictEnergyOk_iff _).mp (hstrict j hj)).2, zero_fle_of_finalEnergyOk hfinal, fun m hm => ?_⟩
  obtain ⟨k, hk⟩ := hnext m hm
  have hf := hfinite (m + 1) hm
  rw [hk] at hf ⊢
  exact nextEnergy_le (hstrict m hm) hf

/-! ### `LEVDUR` -/

section Command

variable {a : Args} {m : Mem}

/-- `LEVDUR` passes its checks when its order and length are legal and its three regions fit and are disjoint (43 R200). -/
theorem checkCommand_levdur (hp : a.len1.toNat ≤ 64) (hlong : a.len1.toNat + 1 ≤ a.len0.toNat)
    (hsrc : fits a.src0.toNat (8 * (a.len1.toNat + 1)) 8) (hdst0 : fits a.dst0.toNat (8 * (a.len1.toNat + 1)) 8)
    (hdst1 : fits a.dst1.toNat (8 * (a.len1.toNat + 1)) 8)
    (h02 : disjoint a.src0.toNat (8 * (a.len1.toNat + 1)) a.dst0.toNat (8 * (a.len1.toNat + 1)))
    (h03 : disjoint a.src0.toNat (8 * (a.len1.toNat + 1)) a.dst1.toNat (8 * (a.len1.toNat + 1)))
    (h23 : disjoint a.dst0.toNat (8 * (a.len1.toNat + 1)) a.dst1.toNat (8 * (a.len1.toNat + 1))) :
    ∃ rs, checkCommand .levdur a = .ok rs := by
  refine ⟨_, checkCommand_of_regions (commandRegions_levdur hp hlong) (by simp [regionOk, hsrc, hdst0, hdst1]) ?_⟩
  simp [forbiddenPair_of_disjoint, h02, h03, h23]

/-- `LEVDUR` on written input is the recursion: its error, or its coefficients at `DST0` and its energies at `DST1` (43 R200). -/
theorem computeOf_levdur {R : List F64} (hR : loadReals m a.src0.toNat (a.len1.toNat + 1) = some R) :
    computeOf .levdur a m = some ((levinsonDurbin R a.len1.toNat).map fun c =>
      { blocks := [(a.dst0.toNat, realBytes c.1), (a.dst1.toNat, realBytes c.2)], count := a.len1.toNat + 1 }) := by
  simp only [computeOf, levdurCompute, hR]
  cases levinsonDurbin R a.len1.toNat <;> rfl

/-- A `LEVDUR` that answers a state without an error has run a recursion that succeeded and stored what it gave. -/
theorem exec_levdur_success {s t : State} (h : exec .levdur s = .next t) (ht : t.err = false) :
    ∃ R cs es, levinsonDurbin R s.snap.args.len1.toNat = .ok (cs, es) ∧
      t = succeeded s (Mem.writeBytes (Mem.writeBytes s.dmem s.snap.args.dst0.toNat (realBytes cs)) s.snap.args.dst1.toNat
        (realBytes es)) (s.snap.args.len1.toNat + 1) := by
  obtain ⟨f, -, rfl⟩ | ⟨rs, r, -, hr, rfl⟩ := exec_next_cases h
  · exact absurd ht (by simp)
  · cases hR : loadReals s.dmem s.snap.args.src0.toNat (s.snap.args.len1.toNat + 1) with
    | none => simp [computeOf, levdurCompute, hR] at hr
    | some R =>
      rw [computeOf_levdur hR] at hr
      cases hrec : levinsonDurbin R s.snap.args.len1.toNat with
      | error f => simp [hrec, Except.map] at hr
      | ok c =>
        rw [hrec] at hr
        cases hr
        exact ⟨R, c.1, c.2, hrec, rfl⟩

/-! ### `IIRSYN` -/

/-- `IIRSYN` passes its checks when its order is legal, its regions fit and its output is disjoint from both inputs (43 R210). -/
theorem checkCommand_iirsyn (hn : a.len0.toNat ≠ 0) (hp : a.len1.toNat ≤ 64)
    (hsrc0 : fits a.src0.toNat (8 * a.len0.toNat) 8) (hsrc1 : fits a.src1.toNat (8 * (a.len1.toNat + 1)) 8)
    (hdst : fits a.dst0.toNat (8 * a.len0.toNat) 8)
    (h02 : disjoint a.src0.toNat (8 * a.len0.toNat) a.dst0.toNat (8 * a.len0.toNat))
    (h12 : disjoint a.src1.toNat (8 * (a.len1.toNat + 1)) a.dst0.toNat (8 * a.len0.toNat)) :
    ∃ rs, checkCommand .iirsyn a = .ok rs := by
  refine ⟨_, checkCommand_of_regions (commandRegions_iirsyn hn hp) (by simp [regionOk, hsrc0, hsrc1, hdst]) ?_⟩
  have h01 : forbiddenPair .iirsyn ⟨0, a.src0.toNat, 8 * a.len0.toNat, 8, .input⟩
      ⟨1, a.src1.toNat, 8 * (a.len1.toNat + 1), 8, .input⟩ = false := rfl
  simp [forbiddenPair_of_disjoint, h01, h02, h12]

/-- `IIRSYN` on written samples and coefficients filters them, for storing at `DST0` (43 R210). -/
theorem computeOf_iirsyn {xs cs : List F64} (hxs : loadReals m a.src0.toNat a.len0.toNat = some xs)
    (hcs : loadReals m (a.src1.toNat + 8) a.len1.toNat = some cs) :
    computeOf .iirsyn a m =
      some (.ok { blocks := [(a.dst0.toNat, realBytes (iirSynthesize a.fp0 cs xs))], count := a.len0.toNat }) := by
  simp only [computeOf, iirsynCompute, hxs, hcs]

end Command

end Sys2Proof.Machine
end

section
/-! The statements of 43_linear_prediction.md, settled. -/

namespace Sys2Proof.Machine

open Sys2Proof.Machine.Float64 Sys2Proof.Safety

/-- Settles O44: with these operands `LEVDUR` passes its checks, and its recursion succeeds with the coefficients and energies by
index. -/
theorem levdurStoresCoefficientsAndEnergies : Obligations.LevdurStoresCoefficientsAndEnergies := by
  unfold Obligations.LevdurStoresCoefficientsAndEnergies
  intro s R a p k hp hlong hsrc hdst0 hdst1 h02 h03 h23 hR hok
  obtain ⟨rs, hc⟩ := checkCommand_levdur hp hlong hsrc hdst0 hdst1 h02 h03 h23
  have hr := computeOf_levdur hR
  rw [levinsonDurbin_of_energiesOk (loadReals_length hR).ge hok] at hr
  exact exec_of_results hc hr

/-- Settles O45: with these operands `LEVDUR` passes its checks, and its recursion breaks down at the first energy that fails. -/
theorem levdurReportsBreakdown : Obligations.LevdurReportsBreakdown := by
  unfold Obligations.LevdurReportsBreakdown
  intro s R j a p k hp hlong hsrc hdst0 hdst1 h02 h03 h23 hR hj hbelow hfail
  obtain ⟨rs, hc⟩ := checkCommand_levdur hp hlong hsrc hdst0 hdst1 h02 h03 h23
  have hr := computeOf_levdur hR
  rw [levinsonDurbin_breakdown (loadReals_length hR).ge hj (fun h hh => (strictEnergyOk_iff _).mpr (hbelow h hh)) hfail] at hr
  exact exec_of_compute_error hc hr

/-- Settles O46: the outputs `IIRSYN` stores are those of `iirSynthesize`, which satisfy the recurrence by index. -/
theorem iirsynStoresTheRecurrence : Obligations.IirsynStoresTheRecurrence := by
  unfold Obligations.IirsynStoresTheRecurrence
  intro s xs cs a n p hn hp hsrc0 hsrc1 hdst h02 h12 hxs hcs
  have hlen : xs.length = n := loadReals_length hxs
  obtain ⟨rs, hc⟩ := checkCommand_iirsyn hn hp hsrc0 hsrc1 hdst h02 h12
  refine ⟨iirSynthesize a.fp0 cs xs, (iirFilter_length ..).trans hlen, fun i hi => ?_, ?_⟩
  · exact iirSynthesize_entry a.fp0 cs xs i (hi.trans_eq hlen.symm)
  · exact exec_of_results hc (computeOf_iirsyn hxs hcs)

/-- Settles O54: what is stored at `DST1` loads back as the energies of a recursion that succeeded. -/
theorem levdurEnergiesDoNotIncrease : Obligations.LevdurEnergiesDoNotIncrease := by
  unfold Obligations.LevdurEnergiesDoNotIncrease
  intro s t _ hexec ht p
  obtain ⟨R, cs, es, hrec, rfl⟩ := exec_levdur_success hexec ht
  have hlen : es.length = p + 1 := (levinsonDurbin_length hrec).2
  refine ⟨es, ?_, levinsonDurbin_energies hrec⟩
  rw [← hlen]
  exact loadReals_writeBytes _ _ es

end Sys2Proof.Machine
end

section
/-! SUPPORT. The parameter checks and the computation of `RESAMPLE`, and the exact quotients of a length by the ratios 2 and 1/2
(44 R230 to R233). -/

namespace Sys2Proof.Machine.Float64

/-! ### Exact quotients of whole numbers -/

/-- A whole number over a positive ratio `2^k / d`, where `n * d` has at most 53 bits, is exact. -/
theorem units_fdiv_toF64 {n d k : Nat} {r : F64} (hn : n < 2 ^ 53) (hnd : n * d < 2 ^ 53) (hk : k ≤ 1022)
    (hfinite : isFinite r = true) (hpos : flt zero r = true) (hr : magUnits r * d = 2 ^ k * unitsPerOne) :
    units (fdiv (toF64 n) r) * 2 ^ k = (n * d : Nat) * unitsPerOne := by
  obtain ⟨e, he⟩ : ∃ e : Nat, e = 1074 := ⟨_, rfl⟩
  have hunit : 2 ^ (e - k) * 2 ^ k = unitsPerOne := by rw [← pow_add, Nat.sub_add_cancel (by omega), unitsPerOne_eq he]
  obtain ⟨hsign, hmag⟩ := magUnits_pos_of_flt hfinite hpos
  obtain ⟨v, hv, hpattern⟩ := exists_pattern (j := e - k) hnd (by omega) (by omega)
  have hquotient : patternUnits v * magUnits r = n * unitsPerOne * unitsPerOne :=
    calc patternUnits v * magUnits r = n * 2 ^ (e - k) * (magUnits r * d) := by rw [hpattern]; ring
      _ = n * (2 ^ (e - k) * 2 ^ k) * unitsPerOne := by rw [hr]; ring
      _ = n * unitsPerOne * unitsPerOne := by rw [hunit]
  rw [units_fdiv_exact hn hfinite (not_isZero_of_magUnits_pos hmag) hsign hv hquotient, hpattern, ← hunit]
  push_cast
  ring

/-- The ceiling of a value that is `p / q`, between whole numbers. -/
theorem ceilI_bounds_of_fraction {x : F64} {p q : Int} (hq : 0 < q) (h : units x * q = p * unitsPerOne) :
    (ceilI x - 1) * q < p ∧ p ≤ ceilI x * q := by
  have hunit : (0 : Int) < unitsPerOne := by exact_mod_cast unitsPerOne_pos
  obtain ⟨hlo, hhi⟩ := ceilI_bounds x
  constructor
  · exact lt_of_mul_lt_mul_right (by linarith [mul_lt_mul_of_pos_right hlo hq]) hunit.le
  · exact le_of_mul_le_mul_right (by linarith [mul_le_mul_of_nonneg_right hhi hq.le]) hunit

end Sys2Proof.Machine.Float64

namespace Sys2Proof.Machine

open Sys2Proof.Machine.Float64 Sys2Proof.Safety

/-- A rate or ratio in range passes its test. -/
theorem positiveFinite_passes {x : F64} (h : isFinite x = true ∧ flt zero x = true) : ¬(!positiveFinite x) = true := by
  simp [positiveFinite, h]

/-- A rate or ratio out of range fails its test. -/
theorem positiveFinite_fails {x : F64} (h : ¬(isFinite x = true ∧ flt zero x = true)) : (!positiveFinite x) = true := by
  rwa [positiveFinite, Bool.not_eq_true', ← Bool.not_eq_true, Bool.and_eq_true]

section Checks

variable {a : Args} (hn : a.len0.toNat ≠ 0) (hrate0 : isFinite a.fp0 = true ∧ flt zero a.fp0 = true)
  (hrate1 : isFinite a.fp1 = true ∧ flt zero a.fp1 = true)
  (hratio : isFinite (resampleRatio a) = true ∧ flt zero (resampleRatio a) = true)
  (hq : isFinite (resampleQuotient a) = true)

include hn hrate0 hrate1 hratio hq

/-- Where the length, the rates, the ratio and the quotient pass, the capacity decides (44 R231). -/
theorem commandRegions_resample :
    commandRegions .resample a =
      if a.len1.toNat < resampleLength a then
        .error { invalidRange offLen1 (saturate (resampleLength a)) with result := saturate (resampleLength a) }
      else .ok [⟨0, a.src0.toNat, 8 * a.len0.toNat, 8, .input⟩, ⟨2, a.dst0.toNat, 8 * resampleLength a, 8, .output⟩] :=
  (if_neg hn).trans ((if_neg (positiveFinite_passes hrate0)).trans ((if_neg (positiveFinite_passes hrate1)).trans
    ((if_neg (positiveFinite_passes hratio)).trans (if_neg (by simp [hq])))))

/-- `RESAMPLE` passes its checks when its output is within the capacity and its two regions fit and are disjoint (44 R230). -/
theorem checkCommand_resample (hcapacity : resampleLength a ≤ a.len1.toNat) (hsrc : fits a.src0.toNat (8 * a.len0.toNat) 8)
    (hdst : fits a.dst0.toNat (8 * resampleLength a) 8)
    (hdisjoint : disjoint a.src0.toNat (8 * a.len0.toNat) a.dst0.toNat (8 * resampleLength a)) :
    checkCommand .resample a =
      .ok [⟨0, a.src0.toNat, 8 * a.len0.toNat, 8, .input⟩, ⟨2, a.dst0.toNat, 8 * resampleLength a, 8, .output⟩] :=
  checkCommand_of_regions ((commandRegions_resample hn hrate0 hrate1 hratio hq).trans (if_neg hcapacity.not_gt))
    (by simp [regionOk, hsrc, hdst]) (List.pairwise_pair.mpr (forbiddenPair_of_disjoint .resample hdisjoint))

end Checks

/-- `RESAMPLE` on written samples interpolates at every index of its output, to be stored at `DST0` (44 R230, R232). -/
theorem computeOf_resample {a : Args} {m : Mem} {xs : List F64} (hxs : loadReals m a.src0.toNat a.len0.toNat = some xs) :
    computeOf .resample a m =
      some (.ok { blocks := [(a.dst0.toNat, realBytes ((List.range (resampleLength a)).map (interpolated xs (resampleRatio a))))],
                  count := resampleLength a }) := by
  simp only [computeOf, resampleCompute, hxs]
  rw [← loadReals_length hxs, resampleFrom_eq]
  simp only [Nat.zero_add]

/-! ### Lengths by the ratios 2 and 1/2 (44 R233) -/

/-- Ratio 2 halves the length, rounding up. -/
theorem resampleLength_of_ratio_two {a : Args} (hratio : resampleRatio a = two) (hn : a.len0.toNat < 2 ^ 53) :
    resampleLength a = (a.len0.toNat + 1) / 2 := by
  have hexact := units_fdiv_toF64 (d := 1) (k := 1) (r := two) hn (by omega) (by decide) (by decide) (by decide)
    (by decide +kernel)
  obtain ⟨hlo, hhi⟩ := ceilI_bounds_of_fraction (q := 2 ^ 1) (by decide) hexact
  rw [resampleLength, resampleQuotient, hratio]
  omega

/-- Ratio 1/2 doubles the length. -/
theorem resampleLength_of_ratio_half {a : Args} (hratio : resampleRatio a = 0x3FE0000000000000) (hn : a.len0.toNat < 2 ^ 52) :
    resampleLength a = 2 * a.len0.toNat := by
  have hexact := units_fdiv_toF64 (d := 2) (k := 0) (r := 0x3FE0000000000000) (hn.trans (by decide)) (by omega) (by decide)
    (by decide) (by decide) (by decide +kernel)
  obtain ⟨hlo, hhi⟩ := ceilI_bounds_of_fraction (q := 2 ^ 0) (by decide) hexact
  rw [resampleLength, resampleQuotient, hratio]
  omega

end Sys2Proof.Machine
end

section
/-! The statements of 44_resampler.md, settled. -/

namespace Sys2Proof.Machine

open Sys2Proof.Machine.Float64 Sys2Proof.Safety

/-- Settles O37, by the branches of `resample_len`: the first failed check is the command's error; where all but the capacity pass, the
length is at least one and the capacity decides. -/
theorem resampleLengthIsChecked : Obligations.ResampleLengthIsChecked := by
  unfold Obligations.ResampleLengthIsChecked
  intro s a n ratio q L Ls
  split_ifs with hn hrate0 hrate1 hratio hq hcapacity
  · exact exec_of_parameter_error (f := emptyInput offLen0) (if_pos hn)
  · refine ⟨one_le_ceilI_quotient hn hratio.1 hratio.2 hq, ?_⟩
    exact exec_of_parameter_error (f := { invalidRange offLen1 Ls with result := Ls })
      ((commandRegions_resample hn hrate0 hrate1 hratio hq).trans (if_pos hcapacity))
  · refine ⟨one_le_ceilI_quotient hn hratio.1 hratio.2 hq, ?_⟩
    exact (commandRegions_resample hn hrate0 hrate1 hratio hq).trans (if_neg hcapacity)
  · exact exec_of_parameter_error (f := invalidRange offFp0 q) ((if_neg hn).trans
      ((if_neg (positiveFinite_passes hrate0)).trans ((if_neg (positiveFinite_passes hrate1)).trans
        ((if_neg (positiveFinite_passes hratio)).trans (if_pos ((Bool.not_eq_true' _).mpr (Bool.eq_false_of_not_eq_true hq)))))))
  · exact exec_of_parameter_error (f := invalidRange offFp0 ratio) ((if_neg hn).trans
      ((if_neg (positiveFinite_passes hrate0)).trans ((if_neg (positiveFinite_passes hrate1)).trans
        (if_pos (positiveFinite_fails hratio)))))
  · exact exec_of_parameter_error (f := invalidRange offFp1 a.fp1) ((if_neg hn).trans
      ((if_neg (positiveFinite_passes hrate0)).trans (if_pos (positiveFinite_fails hrate1))))
  · exact exec_of_parameter_error (f := invalidRange offFp0 a.fp0)
      ((if_neg hn).trans (if_pos (positiveFinite_fails hrate0)))

/-- Settles O47: with these operands `RESAMPLE` passes its checks, and its results are the interpolated samples by index. -/
theorem resampleStoresTheInterpolation : Obligations.ResampleStoresTheInterpolation := by
  unfold Obligations.ResampleStoresTheInterpolation
  intro s xs a n ratio q L hn hrate0 hrate1 hratio hq hcapacity hsrc hdst hdisjoint hxs
  exact exec_of_results (checkCommand_resample hn hrate0 hrate1 hratio hq hcapacity hsrc hdst hdisjoint) (computeOf_resample hxs)

/-- Settles O56: ratio 2 halves the length rounding up, and ratio 1/2 doubles what that gives. -/
theorem resampleRoundTripLength : Obligations.ResampleRoundTripLength := by
  unfold Obligations.ResampleRoundTripLength
  intro a b ha hb hn hlen
  have hhalf := resampleLength_of_ratio_two ha (hn.trans (by decide))
  rw [hhalf] at hlen ⊢
  rw [resampleLength_of_ratio_half hb (by omega), hlen]
  exact ⟨rfl, rfl, by omega⟩

end Sys2Proof.Machine
end

section
/-! SUPPORT. The parameter checks, the region checks and the computation of `CEPSTRUM`, its result by index (45 R250 to R254). -/

namespace Sys2Proof.Machine

open Sys2Proof.Machine.Float64 Sys2Proof.Safety

section Checks

variable {a : Args}

/-- A length of `CEPSTRUM` that is not zero fails as that of a transform does (45 R254). -/
theorem commandRegions_cepstrum_of_bad_length {f : Failure} (hn : a.len0.toNat ≠ 0) (hlen : checkLen a.len0 = some f) :
    commandRegions .cepstrum a = .error f := by
  rw [commandRegions, cepstrumRegions, if_neg hn, hlen]

/-- Where the length of `CEPSTRUM` passes, the number of coefficients decides (45 R250). -/
theorem commandRegions_cepstrum {l : Nat} (hl : l ≤ 20) (hN : a.len0.toNat = 2 ^ l) :
    commandRegions .cepstrum a =
      if a.len1.toNat = 0 ∨ a.len0.toNat < a.len1.toNat then .error (invalidRange offLen1 a.len1)
      else .ok [⟨0, a.src0.toNat, 8 * a.len0.toNat, 8, .input⟩, ⟨2, a.dst0.toNat, 8 * a.len1.toNat, 8, .output⟩,
                ⟨4, a.scr.toNat, 16 * a.len0.toNat, 8, .scratch⟩] := by
  have hn : a.len0.toNat ≠ 0 := hN ▸ (Nat.two_pow_pos l).ne'
  rw [commandRegions, cepstrumRegions, if_neg hn, (checkLen_none_iff a.len0).mpr ⟨l, hl, hN⟩]

/-- `CEPSTRUM` passes its checks when its parameters are legal and its three regions fit and are disjoint (45 R250). -/
theorem checkCommand_cepstrum {l : Nat} (hl : l ≤ 20) (hN : a.len0.toNat = 2 ^ l) (hnc : a.len1.toNat ≠ 0)
    (hle : a.len1.toNat ≤ 2 ^ l) (hsrc : fits a.src0.toNat (8 * 2 ^ l) 8) (hdst : fits a.dst0.toNat (8 * a.len1.toNat) 8)
    (hscr : fits a.scr.toNat (16 * 2 ^ l) 8)
    (h02 : disjoint a.src0.toNat (8 * 2 ^ l) a.dst0.toNat (8 * a.len1.toNat))
    (h04 : disjoint a.src0.toNat (8 * 2 ^ l) a.scr.toNat (16 * 2 ^ l))
    (h24 : disjoint a.dst0.toNat (8 * a.len1.toNat) a.scr.toNat (16 * 2 ^ l)) :
    ∃ rs, checkCommand .cepstrum a = .ok rs := by
  have hregions := (commandRegions_cepstrum hl hN).trans (if_neg (by omega))
  rw [hN] at hregions
  refine ⟨_, checkCommand_of_regions hregions (by simp [regionOk, hsrc, hdst, hscr]) ?_⟩
  simp [forbiddenPair_of_disjoint, h02, h04, h24]

end Checks

/-- The first entries of a complex sequence, by index. -/
theorem take_eq_map_complexEntry {xs : List Cplx} {n : Nat} (h : n ≤ xs.length) :
    xs.take n = (List.range n).map (complexEntry xs) := by
  conv_lhs => rw [complexList_eq_map_entry xs]
  rw [← List.map_take, List.take_range, Nat.min_eq_left h]

/-- The real cepstrum by index: the inverse transform of the log-magnitudes (45 R250, R251). -/
theorem cepstrumOf_eq_map_range (eps : F64) {l : Nat} (n : Nat) {xs : List F64} (h : xs.length = 2 ^ l) :
    cepstrumOf eps n xs = (List.range (2 ^ l)).map (fun k =>
      cscale (conj (complexEntry (fftCore (((fftCore (xs.map ofReal)).map (logBin eps)).map conj)) k))
        (fdiv one (toF64 n))) :=
  ifftCore_eq_map_range n ((List.length_map _).trans (fftCore_map_length ofReal xs rfl h))

/-- `CEPSTRUM` on written samples stores the whole cepstrum at `SCR` and the real parts of its first entries at `DST0`
(45 R250, R252). -/
theorem computeOf_cepstrum {a : Args} {m : Mem} {l : Nat} {xs : List F64} (hN : a.len0.toNat = 2 ^ l)
    (hle : a.len1.toNat ≤ 2 ^ l) (hxs : loadReals m a.src0.toNat a.len0.toNat = some xs) :
    computeOf .cepstrum a m =
      some (.ok { blocks := [(a.scr.toNat, complexBytes (cepstrumOf a.cepEps a.len0.toNat xs)),
                             (a.dst0.toNat, realBytes ((List.range a.len1.toNat).map fun i =>
                               (complexEntry (cepstrumOf a.cepEps a.len0.toNat xs) i).1))],
                  count := a.len1.toNat }) := by
  have hlen := cepstrumOf_length a.cepEps xs hN (loadReals_length hxs)
  have hfirst := take_eq_map_complexEntry (hle.trans_eq (hN.symm.trans hlen.symm))
  simp only [computeOf, cepstrumCompute, hxs, hfirst, List.map_map]
  rfl

end Sys2Proof.Machine
end

section
/-! The statements of 45_cepstrum.md, settled. -/

namespace Sys2Proof.Machine

open Sys2Proof.Machine.Float64 Sys2Proof.Safety

/-- Settles O38, by the branches of the checks: a failed one is the command's error, and the last branch is the regions. -/
theorem cepstrumParametersAreChecked : Obligations.CepstrumParametersAreChecked := by
  unfold Obligations.CepstrumParametersAreChecked
  intro s a N nc
  split_ifs with hn hlen hnc
  · exact exec_of_parameter_error (f := emptyInput offLen0) (if_pos hn)
  · obtain ⟨l, hl, hN⟩ := hlen
    exact exec_of_parameter_error (f := invalidRange offLen1 a.len1) ((commandRegions_cepstrum hl hN).trans (if_pos hnc))
  · obtain ⟨l, hl, hN⟩ := hlen
    exact (commandRegions_cepstrum hl hN).trans (if_neg hnc)
  · have hbad := checkLen_of_invalid (not_not.mp (mt (validLength_iff a.len0).mp hlen))
    exact exec_of_parameter_error (commandRegions_cepstrum_of_bad_length hn hbad)

/-- Settles O48: with these operands `CEPSTRUM` passes its checks, and its results are the cepstrum and its first real parts by
index. -/
theorem cepstrumStoresBothRegions : Obligations.CepstrumStoresBothRegions := by
  unfold Obligations.CepstrumStoresBothRegions
  intro s l xs a nc V y C hl hN hnc hle hsrc hdst hscr h02 h04 h24 hxs
  obtain ⟨rs, hc⟩ := checkCommand_cepstrum hl hN hnc hle hsrc hdst hscr h02 h04 h24
  have hC : cepstrumOf a.cepEps (2 ^ l) xs = C := cepstrumOf_eq_map_range a.cepEps (2 ^ l) (loadReals_length hxs)
  rw [← hN] at hxs hC
  have hr := computeOf_cepstrum hN hle hxs
  rw [hC] at hr
  exact exec_of_results hc hr

end Sys2Proof.Machine
end

section
/-! SUPPORT. The parameter checks, the region checks and the computation of `VQNEAR` (46 R270, R273), the indices it computes by row, and
what the search finds and what a NaN component does to a distance (46 R272). -/

namespace Sys2Proof.Machine

open Sys2Proof.Machine.Float64 Sys2Proof.Safety

/-! ### Checks -/

section Checks

variable {a : Args} (hNF : a.len0.toNat ≠ 0) (hK : a.len1.toNat ≠ 0) (hD : a.len2.toNat ≠ 0) (hDc : a.len3 = a.len2)
  (hle : a.len1.toNat ≤ 2 ^ 32)

include hNF hK hD hDc hle

theorem commandRegions_vqnear :
    commandRegions .vqnear a =
      .ok [⟨0, a.src0.toNat, 8 * (a.len0.toNat * a.len2.toNat), 8, .input⟩,
           ⟨1, a.src1.toNat, 8 * (a.len1.toNat * a.len2.toNat), 8, .input⟩,
           ⟨2, a.dst0.toNat, 4 * a.len0.toNat, 4, .output⟩] := by
  rw [commandRegions, vqnearRegions, hDc, if_neg hNF, if_neg hK, if_neg hD, if_neg hD, if_neg (not_not.mpr rfl),
    if_neg hle.not_gt]

/-- `VQNEAR` passes its checks when its counts are legal, its three regions fit, and the output is disjoint from both inputs, which
may overlap each other (46 R270). -/
theorem checkCommand_vqnear (hsrc0 : fits a.src0.toNat (8 * (a.len0.toNat * a.len2.toNat)) 8)
    (hsrc1 : fits a.src1.toNat (8 * (a.len1.toNat * a.len2.toNat)) 8) (hdst : fits a.dst0.toNat (4 * a.len0.toNat) 4)
    (h02 : disjoint a.src0.toNat (8 * (a.len0.toNat * a.len2.toNat)) a.dst0.toNat (4 * a.len0.toNat))
    (h12 : disjoint a.src1.toNat (8 * (a.len1.toNat * a.len2.toNat)) a.dst0.toNat (4 * a.len0.toNat)) :
    ∃ rs, checkCommand .vqnear a = .ok rs := by
  refine ⟨_, checkCommand_of_regions (commandRegions_vqnear hNF hK hD hDc hle) (by simp [regionOk, hsrc0, hsrc1, hdst]) ?_⟩
  have h01 : ∀ p q : Region, p.role = .input → q.role = .input → forbiddenPair .vqnear p q = false := by
    intro p q hp hq
    simp [forbiddenPair, Region.written, hp, hq]
  simp [h01, forbiddenPair_of_disjoint, h02, h12]

end Checks

/-! ### The indices by row -/

/-- The rows of a row-major array, by index (20 R62). -/
theorem rows_eq_map_range (d n : Nat) (xs : List F64) :
    rows d n xs = (List.range n).map fun v => (xs.drop (v * d)).take d := by
  apply List.ext_getElem?
  intro v
  by_cases hv : v < n
  · rw [rows_getElem? d n xs v hv]
    simp [hv]
  · simp [Nat.not_lt.mp hv]

/-- `VQNEAR` on written inputs computes the index of each feature, to be stored at `DST0` (46 R270). -/
theorem computeOf_vqnear {a : Args} {m : Mem} {F CB : List F64} (hK : a.len1.toNat ≠ 0)
    (hF : loadReals m a.src0.toNat (a.len0.toNat * a.len2.toNat) = some F)
    (hCB : loadReals m a.src1.toNat (a.len1.toNat * a.len2.toNat) = some CB) :
    computeOf .vqnear a m =
      some (.ok { blocks := [(a.dst0.toNat,
                    indexBytes ((List.range a.len0.toNat).map (nearestRow F CB a.len1.toNat a.len2.toNat)))],
                  count := a.len0.toNat }) := by
  have hidx : (rows a.len2.toNat a.len0.toNat F).map (nearest (rows a.len2.toNat a.len1.toNat CB)) =
      (List.range a.len0.toNat).map (nearestRow F CB a.len1.toNat a.len2.toNat) := by
    rw [rows_eq_map_range _ _ F, List.map_map]
    refine List.map_congr_left fun v hv => nearest_rows hK ?_ (loadReals_length hCB).ge
    rw [loadReals_length hF]
    exact Nat.mul_le_mul_right _ (List.mem_range.mp hv)
  simp only [computeOf, vqnearCompute, hF, hCB, hidx]

/-! ### The search -/

/-- Where the search stands after codewords `0` to `n`, for distances given by index. -/
def nearestUpTo (d : Nat → F64) : Nat → Nat
  | 0 => 0
  | n + 1 => if flt (d (n + 1)) (d (nearestUpTo d n)) then n + 1 else nearestUpTo d n

/-- `b` has the least distance of `0` to `n` that are no NaN, and every smaller index has a greater one or a NaN (46 R272). -/
def IsLowestMinimum (d : Nat → F64) (n b : Nat) : Prop :=
  isNaN (d b) = false ∧ ∀ c, c ≤ n → isNaN (d c) = false → fle (d b) (d c) = true ∧ (c < b → flt (d b) (d c) = true)

section Search

variable (d : Nat → F64)

/-- The loop of 46 R270 carries the index found so far and its distance. -/
theorem foldl_search_eq (n : Nat) :
    (List.range n).foldl (fun best c => if flt (d (c + 1)) best.2 then (c + 1, d (c + 1)) else best) (0, d 0) =
      (nearestUpTo d n, d (nearestUpTo d n)) := by
  induction n with
  | zero => rfl
  | succ n ih =>
    rw [List.range_succ, List.foldl_concat, ih, nearestUpTo]
    split_ifs <;> rfl

theorem nearestRow_eq (F CB : List F64) (K D v : Nat) :
    nearestRow F CB K D v = nearestUpTo (rowDistance F CB D v) (K - 1) :=
  congrArg Prod.fst (foldl_search_eq (rowDistance F CB D v) (K - 1))

theorem nearestUpTo_le (n : Nat) : nearestUpTo d n ≤ n := by
  induction n with
  | zero => exact Nat.le_refl 0
  | succ n ih =>
    rw [nearestUpTo]
    split_ifs
    · exact Nat.le_refl (n + 1)
    · exact Nat.le_succ_of_le ih

variable {d}

/-- Nothing is below a NaN, so a NaN distance of codeword 0 stays (46 R272). -/
theorem nearestUpTo_of_isNaN (h : isNaN (d 0) = true) (n : Nat) : nearestUpTo d n = 0 := by
  induction n with
  | zero => rfl
  | succ n ih => rw [nearestUpTo, ih, if_neg (by simp [flt, h])]

/-- One more codeword, strictly nearer: it is the new lowest minimum. -/
theorem isLowestMinimum_of_flt {n b : Nat} (h : IsLowestMinimum d n b) (hlt : flt (d (n + 1)) (d b) = true) :
    IsLowestMinimum d (n + 1) (n + 1) := by
  obtain ⟨hb, hmin⟩ := h
  have hn : isNaN (d (n + 1)) = false := by
    simp only [flt, Bool.and_eq_true, Bool.not_eq_true'] at hlt
    obtain ⟨⟨hn, -⟩, -⟩ := hlt
    exact hn
  rw [flt_iff hn hb] at hlt
  refine ⟨hn, fun c hc hcn => ?_⟩
  rw [fle_iff hn hcn, flt_iff hn hcn]
  obtain hc | rfl := Nat.le_succ_iff.mp hc
  · have hbc := (fle_iff hb hcn).mp (hmin c hc hcn).1
    omega
  · exact ⟨le_rfl, fun h => absurd h (lt_irrefl _)⟩

/-- One more codeword, not strictly nearer: the lowest minimum stays. -/
theorem isLowestMinimum_of_not_flt {n b : Nat} (h : IsLowestMinimum d n b) (hle : b ≤ n)
    (hlt : ¬flt (d (n + 1)) (d b) = true) : IsLowestMinimum d (n + 1) b := by
  obtain ⟨hb, hmin⟩ := h
  refine ⟨hb, fun c hc hcn => ?_⟩
  obtain hc | rfl := Nat.le_succ_iff.mp hc
  · exact hmin c hc hcn
  · rw [flt_iff hcn hb] at hlt
    exact ⟨(fle_iff hb hcn).mpr (Int.not_lt.mp hlt), fun h => absurd h (Nat.not_lt.mpr (Nat.le_succ_of_le hle))⟩

/-- Where codeword 0's distance is no NaN, the search finds the lowest minimum (46 R272). -/
theorem nearestUpTo_isLowestMinimum (h : isNaN (d 0) = false) (n : Nat) : IsLowestMinimum d n (nearestUpTo d n) := by
  induction n with
  | zero =>
    refine ⟨h, fun c hc _ => ?_⟩
    obtain rfl := Nat.le_zero.mp hc
    exact ⟨(fle_iff h h).mpr le_rfl, fun h => absurd h (lt_irrefl 0)⟩
  | succ n ih =>
    rw [nearestUpTo]
    split_ifs with hlt
    · exact isLowestMinimum_of_flt ih hlt
    · exact isLowestMinimum_of_not_flt ih (nearestUpTo_le d n) hlt

end Search

/-! ### NaN components -/

/-- A loop that reaches a value at step `j`, whatever it held, and keeps that value from then on, ends in it. -/
theorem foldl_range_eq_of_absorbing {α : Type} {f : α → Nat → α} {z : α} (hkeep : ∀ i, f z i = z) {j : Nat}
    (hreach : ∀ x, f x j = z) (x : α) {n : Nat} (hj : j < n) : (List.range n).foldl f x = z := by
  induction n with
  | zero => exact absurd hj (Nat.not_lt_zero j)
  | succ n ih =>
    rw [List.range_succ, List.foldl_concat]
    obtain rfl | hj := Nat.eq_or_lt_of_le (Nat.le_of_lt_succ hj)
    · exact hreach _
    · rw [ih hj, hkeep]

/-- A NaN component of the feature or of the codeword makes the distance the canonical NaN (46 R272, 40 R131). -/
theorem rowDistance_of_isNaN {F CB : List F64} {D v c j : Nat} (hj : j < D)
    (h : isNaN (entry F (v * D + j)) = true ∨ isNaN (entry CB (c * D + j)) = true) : rowDistance F CB D v c = nan := by
  have hnan : isNaN nan = true := by decide
  have hdiff : fsub (entry F (v * D + j)) (entry CB (c * D + j)) = nan := fadd_of_isNaN (by simpa using h)
  refine foldl_range_eq_of_absorbing (fun i => fadd_of_isNaN (.inl hnan)) (fun acc => ?_) zero hj
  rw [hdiff, fmul_of_isNaN (.inl hnan)]
  exact fadd_of_isNaN (.inr hnan)

end Sys2Proof.Machine
end

section
/-! The statements of 46_vector_quantizer.md, settled. -/

namespace Sys2Proof.Machine

open Sys2Proof.Machine.Float64 Sys2Proof.Safety

/-- Settles O39, by the branches of the checks: a failed one is the command's error, and the last branch is the regions. -/
theorem quantizerParametersAreChecked : Obligations.QuantizerParametersAreChecked := by
  unfold Obligations.QuantizerParametersAreChecked
  intro s a
  have hzero : ∀ w : Word, w = 0 ↔ w.toNat = 0 := fun w => BitVec.toNat_eq
  simp only [hzero]
  split_ifs with hNF hK hD hDc hne hbig
  · exact exec_of_parameter_error (f := emptyInput offLen0) (if_pos hNF)
  · exact exec_of_parameter_error (f := emptyInput offLen1) ((if_neg hNF).trans (if_pos hK))
  · exact exec_of_parameter_error (f := emptyInput offLen2) ((if_neg hNF).trans ((if_neg hK).trans (if_pos hD)))
  · exact exec_of_parameter_error (f := emptyInput offLen3)
      ((if_neg hNF).trans ((if_neg hK).trans ((if_neg hD).trans (if_pos hDc))))
  · exact exec_of_parameter_error (f := { code := .dimensionMismatch, info0 := a.len2, info1 := a.len3 })
      ((if_neg hNF).trans ((if_neg hK).trans ((if_neg hD).trans ((if_neg hDc).trans (if_pos hne)))))
  · exact exec_of_parameter_error (f := invalidRange offLen1 a.len1)
      ((if_neg hNF).trans ((if_neg hK).trans ((if_neg hD).trans ((if_neg hDc).trans ((if_neg hne).trans (if_pos hbig))))))
  · exact commandRegions_vqnear hNF hK hD (not_not.mp hne).symm (Nat.not_lt.mp hbig)

/-- Settles O49: with these operands `VQNEAR` passes its checks, and its results are the indices by row. -/
theorem vqnearStoresNearestIndices : Obligations.VqnearStoresNearestIndices := by
  unfold Obligations.VqnearStoresNearestIndices
  intro s F CB a NF K D hNF hK hD hDc hle hsrc0 hsrc1 hdst h02 h12 hF hCB
  obtain ⟨rs, hc⟩ := checkCommand_vqnear hNF hK hD hDc hle hsrc0 hsrc1 hdst h02 h12
  exact exec_of_results hc (computeOf_vqnear hK hF hCB)

/-- Settles O55, through the search by distances alone: it ends at the lowest minimum, or at 0 where codeword 0's distance is a NaN. -/
theorem nearestIndexIsLowestMinimum : Obligations.NearestIndexIsLowestMinimum := by
  unfold Obligations.NearestIndexIsLowestMinimum
  intro F CB K D v hK d b
  have hb : b = nearestUpTo d (K - 1) := nearestRow_eq F CB K D v
  rw [hb]
  refine ⟨?range, fun h => nearestUpTo_of_isNaN h (K - 1), fun h => ?lowest, fun c j hj h => rowDistance_of_isNaN hj h⟩
  case range => exact Nat.lt_of_le_of_lt (nearestUpTo_le d (K - 1)) (Nat.sub_one_lt hK)
  case lowest =>
    obtain ⟨hnan, hmin⟩ := nearestUpTo_isLowestMinimum h (K - 1)
    exact ⟨hnan, fun c hc => hmin c (Nat.le_sub_one_of_lt hc)⟩

end Sys2Proof.Machine
end

section
/-! SUPPORT. Which accesses the aperture takes, and the bus error that answers every other one (60 R304, 10 R23, 20 R66, R70). -/

namespace Sys2Proof.Machine

open Sys2Proof.Safety

/-- Whether an access of this width is one that the place takes: an unmapped offset takes none. -/
def Place.takes : Place → Nat → Bool
  | .window off, width => windowAccessOk off width
  | .dmem address, width => dmemAccessOk address width
  | .unmapped, _ => false

theorem windowAccessOk_iff (off width : Nat) : windowAccessOk off width = true ↔ width = 8 ∧ off % 8 = 0 := by
  simp only [windowAccessOk, Bool.and_eq_true, beq_iff_eq]

theorem dmemAccessOk_iff (address width : Nat) : dmemAccessOk address width = true ↔
    (width = 1 ∨ width = 2 ∨ width = 4 ∨ width = 8) ∧ address % width = 0 := by
  simp only [dmemAccessOk, Bool.and_eq_true, Bool.or_eq_true, beq_iff_eq, or_assoc]

/-- An access in the DMEM window is aligned in the aperture exactly when it is aligned in DMEM: the window starts at a multiple of
every legal width. -/
theorem dmemAccessOk_sub_iff {off width : Nat} (h : 0x04000000 ≤ off) : dmemAccessOk (off - 0x04000000) width = true ↔
    (width = 1 ∨ width = 2 ∨ width = 4 ∨ width = 8) ∧ off % width = 0 := by
  rw [dmemAccessOk_iff]
  refine and_congr_right fun hw => ?_
  rcases hw with rfl | rfl | rfl | rfl <;> omega

/-- An access that its place does not take is answered with a bus error and has no other effect. -/
theorem performAccess_busError {s : State} {a : HostAccess} (h : ¬(placeOf a.offset).takes a.width = true) :
    performAccess s a = .next (s.answer .busError) := by
  cases a with
  | read off w =>
    simp only [HostAccess.offset, HostAccess.width] at h
    rw [performAccess, performRead]
    cases hpl : placeOf off with
    | window o => rw [hpl] at h; exact if_neg h
    | dmem x => rw [hpl] at h; exact if_neg h
    | unmapped => rfl
  | write off w v =>
    simp only [HostAccess.offset, HostAccess.width] at h
    rw [performAccess, performWrite]
    cases hpl : placeOf off with
    | window o => rw [hpl] at h; exact congrArg _ (if_neg h)
    | dmem x => rw [hpl] at h; exact congrArg _ (if_neg h)
    | unmapped => rfl

/-- An arriving access that is performed and that its place does not take. -/
theorem step_busError {s : State} {a : HostAccess} {rest : List PortEvent} (h : arrives s a rest)
    (hd : s.phase = .busy → a.toDmem = false) (ht : ¬(placeOf a.offset).takes a.width = true) :
    step s = .next { s with port := rest, answers := s.answers ++ [.busError] } := by
  rw [step_arrival h hd, performAccess_busError ht]
  rfl

end Sys2Proof.Machine
end

section
/-! The statement of 60_exceptions.md about bus errors, settled. -/

namespace Sys2Proof.Machine

open Sys2Proof.Safety

/-- Settles O16: by the three kinds of 60 R304, each an access that its place does not take and that is not held. -/
theorem busErrorsChangeNothing : Obligations.BusErrorsChangeNothing := by
  unfold Obligations.BusErrorsChangeNothing
  intro s a rest h hkind
  have performed (hlow : a.offset.toNat < 0x04000000) : a.toDmem = false := by
    rw [Bool.eq_false_iff, ne_eq, toDmem_iff]
    omega
  rcases hkind with ⟨hlo, hhi⟩ | ⟨hwindow, hbad⟩ | ⟨hdmem, hidle, hbad⟩
  · refine step_busError h (fun _ => performed hhi) ?_
    rw [placeOf_unmapped hlo hhi]
    exact Bool.false_ne_true
  · refine step_busError h (fun _ => performed (by omega)) ?_
    rw [placeOf_window hwindow]
    exact mt (windowAccessOk_iff _ _).mp hbad
  · refine step_busError h (fun hbusy => by rw [hidle] at hbusy; cases hbusy) ?_
    rw [placeOf_dmem hdmem]
    exact mt (dmemAccessOk_sub_iff hdmem).mp hbad

end Sys2Proof.Machine
end

section
/-! SUPPORT. The two resets, the faults of unwritten bytes, and a run from a launch to the end of its command (70 R340 to R365). -/

namespace Sys2Proof.Machine

open Sys2Proof.Safety

/-! ### Reset values -/

theorem inv_reset : Inv State.reset where
  memWf := wf_nil
  busyClear := nofun
  busyCmd := nofun
  errReported := nofun
  noErrorNoInfo _ := ⟨rfl, rfl, rfl⟩
  heldDmem := nofun

/-- A reset of the registers leaves every one of the window at its reset value, the constant ones among them. -/
theorem readReg_resetRegisters (s : State) (r : Reg) : s.resetRegisters.readReg r = State.reset.readReg r := by
  cases r <;> rfl

/-! ### Soft reset -/

/-- In either phase a soft reset resets the registers of a state that keeps the port and the held accesses, and DMEM too unless a
command is abandoned. -/
theorem softReset_eq_resetRegisters (s : State) :
    ∃ u : State, s.softReset = u.resetRegisters ∧ u.held = s.held ∧ u.port = s.port ∧
      (s.phase = .idle → u.dmem = s.dmem) ∧ (s.phase = .busy → u.dmem = abandonedMem s.draws s.snap s.dmem) := by
  unfold State.softReset
  cases s.phase with
  | idle => exact ⟨s, rfl, rfl, rfl, fun _ => rfl, nofun⟩
  | busy => exact ⟨_, rfl, rfl, rfl, nofun, fun _ => rfl⟩

/-- Abandoning a command that passes its checks draws the bytes of its written regions. -/
theorem abandonedMem_of_checked {n : Snapshot} {i : Instr} {rs : List Region} (hd : decode n.cmd = .ok i)
    (hc : checkCommand i n.args = .ok rs) (draw : Nat) (m : Mem) : abandonedMem draw n m = scrambleRegions draw m rs := by
  simp only [abandonedMem, hd, hc]

/-- Abandoning a command that fails a check leaves DMEM alone. -/
theorem abandonedMem_of_unchecked {n : Snapshot} (h : ¬∃ i rs, decode n.cmd = .ok i ∧ checkCommand i n.args = .ok rs)
    (draw : Nat) (m : Mem) : abandonedMem draw n m = m := by
  unfold abandonedMem
  cases hd : decode n.cmd with
  | error e => rfl
  | ok i =>
    dsimp only
    cases hc : checkCommand i n.args with
    | error f => rfl
    | ok rs => exact absurd ⟨i, rs, hd, hc⟩ h

theorem step_softReset {s : State} {v : Word} {rest : List PortEvent} (hv : v.getLsbD 0 = true)
    (h : arrives s (.write 0x010 8 v) rest) : step s = .next ((s.withPort rest).softReset.answer .written) := by
  rw [step_named_write (r := .ctrl) h, State.writeReg, State.writeCtrl, if_pos hv]

/-! ### Faults of unwritten bytes -/

/-- An aligned host read of DMEM in IDLE that meets an unwritten byte (70 R340). -/
theorem step_dmem_read_unwritten {s : State} {a w x : Nat} {rest : List PortEvent} (hp : s.phase = .idle)
    (hok : dmemAccessOk a w = true) (ha : a < Config.dmemSize) (h : arrives s (.read (dmemOffsetOf a) w) rest)
    (h₁ : a ≤ x) (h₂ : x < a + w) (hx : Mem.readByte s.dmem x = none) : step s = .fault .unwrittenRead := by
  have hread : Mem.read s.dmem a w = none := by rw [Mem.read, readBytes_none h₁ h₂ hx, Option.map_none]
  rw [step_idle_arrival hp h, performAccess, performRead, placeOf_dmemOffsetOf ha]
  simp only [hok, if_true, State.withPort_dmem, hread]

/-- A command faults exactly when it passes its checks and its computation needs an unwritten byte. -/
theorem exec_fault_iff (i : Instr) (s : State) :
    exec i s = .fault .unwrittenRead ↔
      ∃ rs, checkCommand i s.snap.args = .ok rs ∧ ∃ x, readsByte i rs x ∧ Mem.readByte s.dmem x = none := by
  have hnone {rs : List Region} (hc : checkCommand i s.snap.args = .ok rs) :
      computeOf i s.snap.args s.dmem = none ↔ ∃ x, readsByte i rs x ∧ Mem.readByte s.dmem x = none :=
    computeOf_none_iff ((checkCommand_ok_iff i s.snap.args rs).mp hc).1
  refine ⟨fun h => ?_, fun ⟨rs, hc, hx⟩ => exec_of_unwritten hc ((hnone hc).mpr hx)⟩
  obtain ⟨f, -, hs⟩ | ⟨rs, hc, ⟨f, -, hs⟩ | ⟨hf, -⟩ | ⟨r, -, hs⟩⟩ := exec_cases i s
  · cases hs.symm.trans h
  · cases hs.symm.trans h
  · exact ⟨rs, hc, (hnone hc).mp hf⟩
  · cases hs.symm.trans h

/-- A command whose input bytes inside DMEM are written does not fault: the regions it reads have passed their range check. -/
theorem exec_completes {i : Instr} {s : State} (h : inputsWritten i s.snap.args s.dmem) : ∃ t, exec i s = .next t := by
  cases hx : exec i s with
  | next t => exact ⟨t, rfl⟩
  | fault r =>
    cases r
    obtain ⟨rs, hc, x, ⟨r, hr, hrole, hin, -⟩, hnone⟩ := (exec_fault_iff i s).mp hx
    obtain ⟨hrs, hok, -⟩ := (checkCommand_ok_iff i s.snap.args rs).mp hc
    exact absurd hnone (h rs hrs r hr hrole x hin (hin.2.trans_le (hok r hr).1))
  | refused r => exact absurd hx (exec_not_refused i s r)

/-! ### Argument registers and a running command -/

/-- A command step reads and writes no argument register: only the snapshot's (10 R45). -/
theorem exec_withArgs (i : Instr) (s : State) (a : Args) :
    exec i (s.withArgs a) = mapNext (fun t => t.withArgs a) (exec i s) := by
  obtain ⟨f, hc, hs⟩ | ⟨rs, hc, ⟨f, hf, hs⟩ | ⟨hf, hs⟩ | ⟨r, hr, hs⟩⟩ := exec_cases i s <;> rw [hs]
  · exact exec_of_check_error (s := s.withArgs a) hc
  · exact exec_of_compute_error (s := s.withArgs a) hc hf
  · exact exec_of_unwritten (s := s.withArgs a) hc hf
  · exact exec_of_results (s := s.withArgs a) hc hr

/-! ### The command step of a run -/

section CommandStep

variable {s t : State}

theorem commandStep_completes (h : ∀ i, decode s.snap.cmd = .ok i → inputsWritten i s.snap.args s.dmem) :
    ∃ t, commandStep s = .next t := by
  unfold commandStep
  cases hd : decode s.snap.cmd with
  | error e => exact ⟨_, rfl⟩
  | ok i => exact exec_completes (h i hd)

theorem commandStep_keeps (h : commandStep s = .next t) : t.snap = s.snap ∧ t.args = s.args := by
  obtain ⟨f, hs, -⟩ | hs | ⟨i, rs, r, -, -, -, hs⟩ := commandStep_cases s <;> rw [hs] at h <;> cases h <;> exact ⟨rfl, rfl⟩

/-- The command step leaves every byte alone that the command of the snapshot may not write. -/
theorem commandStep_readByte_outside (h : commandStep s = .next t) {x : Nat}
    (hx : ∀ i, decode s.snap.cmd = .ok i → ¬mayWrite i s.snap.args x) : Mem.readByte t.dmem x = Mem.readByte s.dmem x := by
  unfold commandStep at h
  cases hd : decode s.snap.cmd with
  | error e =>
    rw [hd] at h
    cases h
    rfl
  | ok i =>
    rw [hd] at h
    exact exec_readByte_outside h (hx i hd)

end CommandStep

/-! ### The bytes observed -/

/-- The written regions of a snapshot hold the bytes its command may write. -/
theorem snapshotRegions_written_iff (n : Snapshot) (x : Nat) :
    (∃ r ∈ snapshotRegions n, r.written = true ∧ inRegion x r) ↔ ∃ i, decode n.cmd = .ok i ∧ mayWrite i n.args x := by
  unfold snapshotRegions mayWrite
  cases decode n.cmd with
  | error e => simp
  | ok i => cases hrs : commandRegions i n.args <;> simp [hrs]

theorem readByte_writtenBytes (n : Snapshot) (m : Mem) (x : Nat) :
    Mem.readByte (writtenBytes n m) x =
      if (snapshotRegions n).any (fun r => r.written && decide (inRegion x r)) then Mem.readByte m x else none :=
  readByte_filter (fun y => (snapshotRegions n).any fun r => r.written && decide (inRegion y r)) m x

/-- A byte that the command of the snapshot may write is observed as DMEM holds it. -/
theorem readByte_writtenBytes_of_mayWrite {n : Snapshot} {i : Instr} {x : Nat} (hd : decode n.cmd = .ok i)
    (hx : mayWrite i n.args x) (m : Mem) : Mem.readByte (writtenBytes n m) x = Mem.readByte m x := by
  have hin := (snapshotRegions_written_iff n x).mpr ⟨i, hd, hx⟩
  rw [readByte_writtenBytes, if_pos (by simpa using hin)]

/-- No other byte is observed. -/
theorem readByte_writtenBytes_outside {n : Snapshot} {x : Nat} (hx : ∀ i, decode n.cmd = .ok i → ¬mayWrite i n.args x)
    (m : Mem) : Mem.readByte (writtenBytes n m) x = none := by
  have hout : ¬∃ r ∈ snapshotRegions n, r.written = true ∧ inRegion x r := fun h =>
    let ⟨i, hd, hw⟩ := (snapshotRegions_written_iff n x).mp h
    hx i hd hw
  rw [readByte_writtenBytes, if_neg (by simpa using hout)]

/-! ### Runs -/

theorem run_refused {s : State} {r : Refusal} (k : Nat) (h : step s = .refused r) :
    Sys2Proof.core.run (k + 1) s = .refused r := by
  have hc : Sys2Proof.core.step s = .refused r := h
  refine (Host.Core.run.eq_2 Sys2Proof.core s k).trans ?_
  rw [hc]

/-- A run of several steps that answers a state has a first step that answers one. -/
theorem step_of_run_succ {s t : State} {k : Nat} (h : Sys2Proof.core.run (k + 1) s = .next t) :
    ∃ u, step s = .next u ∧ Sys2Proof.core.run k u = .next t := by
  cases hs : step s with
  | next u => exact ⟨u, rfl, (run_next k hs).symm.trans h⟩
  | fault r => cases (run_fault k hs).symm.trans h
  | refused r => cases (run_refused k hs).symm.trans h

/-- A run that leaves BUSY, with no soft reset on the way, ends with the command step of the snapshot on the DMEM it started with. -/
theorem run_busy_ends {u t : State} {n : Nat} (hp : u.phase = .busy) (hrun : Sys2Proof.core.run n u = .next t)
    (ht : t.phase = .idle)
    (hway : ∀ (k : Nat) (v : State), k < n → Sys2Proof.core.run k u = .next v → v.phase = .busy ∧ ¬softResetNext v) :
    ∃ s', s'.snap = u.snap ∧ s'.dmem = u.dmem ∧ commandStep s' = .next t := by
  induction n generalizing u with
  | zero =>
    cases hrun
    cases hp.symm.trans ht
  | succ n ih =>
    obtain ⟨v, hstep, hrest⟩ := step_of_run_succ hrun
    have hway' : ∀ (k : Nat) (w : State), k < n → Sys2Proof.core.run k v = .next w → w.phase = .busy ∧ ¬softResetNext w :=
      fun k w hk hw => hway (k + 1) w (by omega) ((run_next k hstep).trans hw)
    obtain ⟨hbusy, hsnap, hdmem⟩ | ⟨s', hnext, hcommand⟩ := step_busy_cases hp (hway 0 u (by omega) rfl).2 hstep
    · obtain ⟨s', hs', hd', hc'⟩ := ih hbusy hrest hway'
      exact ⟨s', hs'.trans hsnap, hd'.trans hdmem, hc'⟩
    · have hend : t = v := by
        cases n with
        | zero => exact (Host.Outcome.next.inj hrest).symm
        | succ n => cases (hway' 0 v (by omega) rfl).1.symm.trans (commandStep_next_done hcommand).1
      rw [hend]
      obtain ⟨heq, -⟩ := engineNext_eq hnext
      exact ⟨s', engineNext_snap hnext, by rw [heq, State.withPort_dmem], hcommand⟩

/-- A step into BUSY and a step back to IDLE, with no soft reset next in between, are a run. -/
theorem runEnds_two {s u t : State} (hu : step s = .next u) (hbusy : u.phase = .busy) (hway : ¬softResetNext u)
    (ht : step u = .next t) (hidle : t.phase = .idle) : RunEnds s 2 t := by
  refine ⟨by omega, (run_next 1 hu).trans (run_next 0 ht), hidle, fun k v hk hk2 hv => ?_⟩
  obtain rfl : k = 1 := by omega
  cases (run_next 0 hu).symm.trans hv
  exact ⟨hbusy, hway⟩

/-- After the acceptance of a word with the engine's turn the event behind it, the command step is next. -/
theorem engineNext_accepted (s : State) (w : Word) (later : List PortEvent) :
    engineNext (((s.withPort (.engineTurn :: later)).accept w).answer .written)
      (((s.withPort later).accept w).answer .written) :=
  ⟨rfl, .inr ⟨later, rfl, rfl⟩⟩

section Launch

variable {s t : State} {w : Word} {rest : List PortEvent}

/-- The first step of a launch is the acceptance of its word. -/
theorem step_launch (h : Launch s w rest) : step s = .next (((s.withPort rest).accept w).answer .written) := by
  obtain ⟨⟨hp, hheld⟩, hport, -⟩ := h
  exact commandWordAccepted s w rest hp ⟨hport, fun _ => hheld⟩

/-- The last step of a run from a launch is the command step of the launched word, on the arguments and the DMEM of the launch. -/
theorem runEnds_commandStep {n : Nat} (h : Launch s w rest) (he : RunEnds s n t) :
    ∃ s', s'.snap = { cmd := w, args := s.args } ∧ s'.dmem = s.dmem ∧ commandStep s' = .next t := by
  obtain ⟨hn, hrun, ht, hway⟩ := he
  obtain ⟨k, rfl⟩ : ∃ k, n = k + 1 := ⟨n - 1, by omega⟩
  have hstep := step_launch h
  rw [run_next k hstep] at hrun
  exact run_busy_ends rfl hrun ht fun j v hj hv => hway (j + 1) v (by omega) (by omega) ((run_next j hstep).trans hv)

end Launch

end Sys2Proof.Machine
end

section
/-! The statements of 70_reset_and_hazards.md, settled. -/

namespace Sys2Proof.Machine

open Sys2Proof.Safety

/-- Settles O4: the values at reset are literals, and asserting the reset input is power-on reset. -/
theorem resetStateValues : Obligations.ResetStateValues := by
  unfold Obligations.ResetStateValues
  refine ⟨fun r => by cases r <;> rfl, rfl, rfl, readByte_nil, fun s => ?_⟩
  rw [platformAsserts_resetSource]
  exact ⟨readReg_powerOnReset s, powerOnReset_phase s, rfl, powerOnReset_held s, readByte_nil⟩

/-- Settles O5: at reset DMEM is empty, nothing is held and no error is reported. -/
theorem invariantAtReset : Obligations.InvariantAtReset := inv_reset

/-- Settles O13: a write to an argument register is an update of the argument registers, and `exec` commutes with one. -/
theorem runningCommandIgnoresArgumentRegisters : Obligations.RunningCommandIgnoresArgumentRegisters := by
  unfold Obligations.RunningCommandIgnoresArgumentRegisters
  refine ⟨fun r hr s v rest _ h => ?_, exec_withArgs⟩
  rw [registerOffset_eq] at h
  rw [step_named_write h, writeReg_argument _ hr]
  exact ⟨_, rfl⟩

/-- Settles O21: the access is well formed, and a run of bytes with an unwritten one has no value. -/
theorem unwrittenHostReadFaults : Obligations.UnwrittenHostReadFaults := by
  unfold Obligations.UnwrittenHostReadFaults
  intro s a w x rest hp hw ha hlt h
  exact step_dmem_read_unwritten hp (dmemAccessOk_of hw ha) hlt h

/-- Settles O22: the step is `State.softReset`, a reset of the registers on the DMEM that an abandoned command leaves. -/
theorem softResetReinitialises : Obligations.SoftResetReinitialises := by
  unfold Obligations.SoftResetReinitialises
  intro s v rest hv h
  have hstep := step_softReset hv h
  obtain ⟨u, hu, hheld, hport, hidle, hbusy⟩ := softReset_eq_resetRegisters (s.withPort rest)
  rw [hu] at hstep
  refine ⟨_, hstep, fun r => ?_, rfl, rfl, rfl, hidle, fun hp => ?_, hheld, hport, fun a later => step_held rfl⟩
  · rw [readReg_answer, readReg_resetRegisters]
  · rw [State.answer_dmem, State.resetRegisters_dmem, hbusy hp]
    refine ⟨fun i rs hd hc x => ?_, fun hn => abandonedMem_of_unchecked hn s.draws s.dmem⟩
    have hdrawn : abandonedMem s.draws s.snap s.dmem = scrambleRegions s.draws s.dmem rs := abandonedMem_of_checked hd hc _ _
    exact hdrawn ▸ readByte_scrambleRegions s.draws s.dmem rs x

/-- Settles O28: by `exec_fault_iff`, the byte and its region named in the other order. -/
theorem commandFaultsExactlyOnUnwrittenInput : Obligations.CommandFaultsExactlyOnUnwrittenInput := by
  unfold Obligations.CommandFaultsExactlyOnUnwrittenInput
  intro i s
  rw [exec_fault_iff]
  refine exists_congr fun rs => and_congr_right fun _ => ⟨?_, ?_⟩
  · rintro ⟨x, ⟨r, hr, hrole, hin, hread⟩, hnone⟩
    exact ⟨r, hr, hrole, x, hin, hnone, hread⟩
  · rintro ⟨r, hr, hrole, x, hin, hnone, hread⟩
    exact ⟨x, ⟨r, hr, hrole, hin, hread⟩, hnone⟩

/-- Settles O29: a run from a launch ends with the command step of the launched word, and that step does not fault, since the bytes it
reads are written. -/
theorem cleanLaunchCompletes : Obligations.CleanLaunchCompletes := by
  unfold Obligations.CleanLaunchCompletes
  intro s w rest hl
  refine ⟨fun n t he => ?_, fun later hrest => ?_⟩
  · obtain ⟨s', hsnap, hdmem, hc⟩ := runEnds_commandStep hl he
    obtain ⟨htsnap, -⟩ := commandStep_keeps hc
    rw [hsnap] at htsnap
    have hwritten : (observe t).written = writtenBytes { cmd := w, args := s.args } t.dmem := by rw [observe, htsnap]
    rw [hwritten]
    refine ⟨(commandStep_next_done hc).2, htsnap, fun x hx => ⟨?_, ?_⟩, fun x i hd hx => ?_⟩
    · rw [← hdmem]
      exact commandStep_readByte_outside hc (by rwa [hsnap])
    · exact readByte_writtenBytes_outside (n := { cmd := w, args := s.args }) hx t.dmem
    · exact readByte_writtenBytes_of_mayWrite (n := { cmd := w, args := s.args }) hd hx t.dmem
  · subst hrest
    obtain ⟨t, ht⟩ := commandStep_completes (s := ((s.withPort later).accept w).answer .written) hl.2.2
    have hfirst := step_launch hl
    have hsecond := (step_engineNext (engineNext_accepted s w later)).trans ht
    have hway : ¬softResetNext (((s.withPort (.engineTurn :: later)).accept w).answer .written) := by simp [softResetNext]
    exact ⟨_, t, hfirst, rfl, hsecond, runEnds_two hfirst rfl hway hsecond (commandStep_next_done ht).1,
      (commandStep_keeps ht).2⟩

end Sys2Proof.Machine
end
